-- ==== Sys2Proof/Word.lean ====
section
/-! DEFINITION. The word types: 32-bit data words (00_scope.md R8 WORD_W), 8-bit bytes for request frames
(REQ_W). The engine has no arithmetic on words but bit selection and equality (42 R182), so nothing else
stands here. -/

namespace Sys2Proof

/-- A data word, a target identifier, an address (00_scope.md R8, WORD_W = 32). -/
abbrev Word := BitVec 32

/-- A request frame (00_scope.md R8, REQ_W = 8). -/
abbrev Byte := BitVec 8

end Sys2Proof
end

