-- ==== Sys2Proof/Machine/Bits.lean ====
section
/-! DEFINITION. The engine's bit-level helpers (42 R182): population count, parity, bit placing, the layout
of the six REG bits at the command port. Everything a test could show wrong about a bit stands here. -/

namespace Sys2Proof.Machine

/-- `popcount(v)`: the number of bits of v that are 1 (00 R10). -/
def popcount {n : Nat} (v : BitVec n) : Nat :=
  (List.range n).countP fun i => v.getLsbD i

/-- `parity(v) = popcount(v) mod 2` (00 R10, 42 R160, 90 C1), as a line level. -/
def parity {n : Nat} (v : BitVec n) : Bool :=
  popcount v % 2 == 1

/-- A line level as the one-bit word that `write(b, 1)` sends. -/
def levelWord (b : Bool) : Word := if b then 1#32 else 0#32

/-- `v[i] <- b` for a bit that is still 0 (40 R123). -/
def placeBit (v : Word) (i : Nat) (b : Bool) : Word :=
  if b then v ||| (1#32 <<< i) else v

/-- The REG values of 30 R88: `REG[4]`, `REG[1]`, `REG[0]` must be 0. -/
def legalReg (reg : BitVec 6) : Bool := reg &&& 0b010011#6 == 0#6

/-- The four variable bits of a request frame, in the order of 30 R82: `{a[1], a[0], rnw, sel}`. -/
def frameVariable (a : BitVec 2) (r s : BitVec 1) : BitVec 4 := a ++ r ++ s

end Sys2Proof.Machine
end

