-- ==== Sys2Proof/Config.lean ====
section
/-! DEFINITION. What is fixed for one engine: the parameters of 00_scope.md R8 that shape the state or the
run, the open parameters of R9 that the model leaves free (opaque constants: nothing can be proved of
their value), and the free values. The register roles and the wire literals stand in Machine/Params.lean. -/

namespace Sys2Proof.Config

/-- WAIT_RETRY_BOUND (R8): attempts of one register access before STALLED, "must be at least 1". -/
def waitRetryBound : Nat := 32

/-- SENTINEL (R8): the value of a failed read. -/
def sentinel : Word := 0xFFFFFFFF#32

/-- The open part of BUF_DEPTH: free, log 5, safe. -/
opaque bufDepthLessOne : Nat

/-- BUF_DEPTH (R9, OPEN, natural, >= 1): the largest word count of PEEK_MANY and POKE_MANY. A parameter (93 U23): all
that can be proved of it is that it is at least 1. Log 5. -/
def bufDepth : Nat := bufDepthLessOne + 1

/-- The open part of the width of PIN_ID: free, log 4, safe. -/
opaque pinIdWidthLessOne : Nat

/-- The width of PIN_ID (R9, OPEN; 91 N21). A parameter (93 U23): all that can be proved of it is that it is at least
1, so that there are two pins for INIT to name. Log 4. -/
def pinIdWidth : Nat := pinIdWidthLessOne + 1

/-- ABORT_CLEAR_WORD (R9, OPEN): free, log 8, safe. -/
opaque abortClearWord : Word

/-- SELECT_IDLE (R9, OPEN): free, log 8, safe. -/
opaque selectIdle : Word

/-- CTRLSTAT_POWERUP_WORD (R9, OPEN): free, log 8, safe. -/
opaque ctrlstatPowerupWord : Word

/-- SELECT_IDR (R9, OPEN): free, log 8, safe. -/
opaque selectIdr : Word

/-- SELECT_CSW (R9, OPEN): free, log 8, safe. -/
opaque selectCsw : Word

/-- CSW_WORD (R9, OPEN): free, log 8, safe. -/
opaque cswWord : Word

/-- What a SAMPLE returns when the environment's answer script is used up (40 R120: "a free input of the
step"), one free value for each draw. Log 9, safe. -/
opaque freeSample : Nat → Bool

/-- The data pin's pulls after DISCONNECT (10 R26, 93 U5: any value), one free value for each draw. Log 10,
safe. -/
opaque freePull : Nat → Bool

/-- What stands in a BUF entry that a failed PEEK_MANY did not reach (10 R35, 93 U9: any value), one free value for
each draw. Log 25, safe. -/
opaque freeEntry : Nat → Word

end Sys2Proof.Config
end

