-- ==== Sys2Proof/Machine/State.lean ====
section
/-! DEFINITION. The state of the machine, as plain data: the engine state S of 10_state.md R20 (session and
pins, command port, latched operands, sequencer), and the model's own record of its surroundings (the
peer's answers and the inputs still to come, the events made). Parameters are not state
(R20); the peer's registers are not state (R20, R38). -/

namespace Sys2Proof.Machine

/-- A pin's direction (10 R23): OUT when the engine drives it, IN when it has released it. -/
inductive Dir where
  | input
  | output
  deriving DecidableEq, Repr

/-- The target-selector bit of a register address (20 R51). -/
inductive Sel where
  | dp
  | ap
  deriving DecidableEq, Repr

/-- A register address: the pair (sel, a), a = offset / 4 (20 R51). -/
structure RegAddr where
  sel : Sel
  a : BitVec 2
  deriving DecidableEq, Repr

/-- A status value (00 R12). WAIT is the result of one transaction only, STALLED of a retried access,
REFUSED of a command the engine does not start. -/
inductive Status where
  | ok
  | wait
  | fault
  | protocolError
  | stalled
  | refused
  deriving DecidableEq, Repr

/-- A pin identifier: PIN_ID, of a width that is a parameter (00 R9, 93 U23; log 4). -/
abbrev PinId := BitVec Config.pinIdWidth

/-- The two open delays of 00 R9. They have no length in the model (00 R7, 93 U4; log 21). -/
inductive DelayKind where
  /-- HALF_PERIOD -/
  | halfPeriod
  /-- PAD_DELAY -/
  | padDelay
  deriving DecidableEq, Repr

/-- The eight pin events (40 R120). -/
inductive PinEvent where
  | clk (level : Bool)
  | clkDir (d : Dir)
  | dio (level : Bool)
  | dir (d : Dir)
  | pull (up down : Bool)
  | sample (b : Bool)
  | delay (k : DelayKind)
  | pinInit (p : PinId)
  deriving DecidableEq, Repr

/-- A call at the primitive level (00 R6): the five primitives, and a call of the GPIO collaborator made by
no primitive (INIT and DISCONNECT, 41 R141, R150). -/
inductive Call where
  | write (word : Word) (len : Nat)
  | read (len : Nat) (v : Word)
  | turn (d : Dir)
  | clock (n : Nat)
  | pad
  | gpio (e : PinEvent)
  deriving DecidableEq, Repr

/-- A move of the host (60 R236, 10 R33); log 11. Only `start`, and the call that begins with it, let S or the pins change
(60 R236). -/
inductive HostMove where
  /-- the host does nothing or polls (60 R232): a running command goes on by one position -/
  | wait
  /-- the blocking call of the source's API (30 R96, 92 D3): `start`, then nothing until DONE -/
  | run
  /-- the event `start` (10 R33) -/
  | start
  | writeCmdw (w : Word)
  | writeArgAddr (w : Word)
  | writeArgData (w : Word)
  | writeArgCount (n : Nat)
  /-- `BUF[i] <- w` (10 R35) -/
  | writeBuf (i : Nat) (w : Word)
  /-- "writes 0 to DIAG_STALLED" (60 R236) -/
  | clearDiag
  deriving DecidableEq, Repr

/-- What comes from outside at a step. -/
inductive Input where
  /-- the host moves -/
  | host (m : HostMove)
  /-- the power comes on (70 R250), which is no move of the host; log 23 -/
  | powerOn
  deriving DecidableEq, Repr

/-- The phase of a transaction the sequencer stands at, that is the primitive it makes next (42 R179). -/
inductive Phase where
  /-- REQ: the request frame in the shift register is sent next -/
  | req
  /-- TRN1: `turn(IN)` -/
  | trn1
  /-- ACK: `read(3)` -/
  | ack
  /-- the ACK in `seq.ack` is classified next; `rnw` says whether this is a read transaction -/
  | decode (rnw : Bool)
  /-- TRN2 of a write, or of a read whose ACK was not OK; `st` is what the ACK said -/
  | trn2 (st : Status)
  /-- WDATA -/
  | wdata
  /-- WPAR -/
  | wpar
  /-- RDATA -/
  | rdata
  /-- RPAR, with the data read -/
  | rpar (data : Word)
  /-- TRN2 of a read whose ACK was OK, with what was read -/
  | trn2Check (data : Word) (par : Bool)
  deriving DecidableEq, Repr

/-- The sequencer position S.step (10 R36): no command running, or at statement k of the running command's
microprogram. A statement that is an access has the phases of a transaction inside it. -/
inductive Pos where
  | idle
  /-- at a statement that is no access and no request frame -/
  | stmt (k : Nat)
  /-- at a statement that sends the request frame in the shift register (SELECT_TARGET, 41 R146) -/
  | frame (k : Nat)
  /-- inside the access that is statement k -/
  | xfer (k : Nat) (ph : Phase)
  deriving DecidableEq, Repr

/-- Session and pin state (10 R21 to R26). -/
structure Pins where
  bound : Bool
  dataPin : PinId
  clockPin : PinId
  dir : Dir
  dio : Bool
  clk : Bool
  clkDir : Dir
  pullUp : Bool
  pullDown : Bool
  deriving DecidableEq, Repr

/-- The command port (10 R28 to R35). -/
structure Port where
  cmdw : Word
  argAddr : Word
  argData : Word
  argCount : Nat
  result : Word
  busy : Bool
  done : Bool
  success : Bool
  /-- one-hot, 30 R98 -/
  status : BitVec 6
  diagStalled : Bool
  buf : Vector Word Config.bufDepth
  deriving DecidableEq, Repr

/-- The operands the engine latched at `start` (10 R33). -/
structure Latch where
  cmdw : Word
  addr : Word
  data : Word
  count : Nat
  deriving DecidableEq, Repr

/-- The sequencer (10 R36). None of it is visible to the host. -/
structure Seq where
  /-- S.step -/
  pos : Pos
  /-- S.attempt: transactions begun for the current access (log 20) -/
  attempt : Nat
  /-- S.ack: the ACK last read -/
  ack : BitVec 3
  /-- S.idx: word index of a multi-word command -/
  idx : Nat
  /-- the shift register of the running write or read (log 19) -/
  shift : Word
  /-- the bit counter of the running write or read (log 19) -/
  bit : Nat
  /-- the local variable `v` or `idr` of a command with a value result (43 R191; log 24) -/
  held : Word
  deriving DecidableEq, Repr

/-- The model's own fields, not the spec's: the inputs still to come and the observation (00 R6). -/
structure Env where
  /-- the peer's answers still to come: what the next SAMPLE events return (40 R120; log 9) -/
  samples : List Bool
  /-- how many free values have been drawn (log 9) -/
  fresh : Nat
  /-- what comes from outside, still to come (logs 11, 23) -/
  inputs : List Input
  /-- the pin events made, newest first (00 R6, pin level; log 22) -/
  trace : List PinEvent
  /-- the primitive calls made, newest first (00 R6, primitive level; log 22) -/
  calls : List Call
  deriving DecidableEq, Repr

structure State where
  pins : Pins
  port : Port
  latch : Latch
  seq : Seq
  env : Env
  deriving DecidableEq, Repr

/-- Why the machine stops. No instruction's meaning raises one: `step` raises them for a move the host does
not have (93 U16, treatment `stuck`) and for a request frame no command can send. -/
inductive Fault where
  /-- raised by `step`: the host wrote CMDW while BUSY = 1, which 10 R28 forbids ("The host writes it only
  while x[BUSY] = 0"). Safe: the model stops. Log 13. -/
  | cmdwWrittenWhileBusy
  /-- raised by `step`: the host wrote BUF while BUSY = 1, which 10 R35 forbids (93 U16: stuck). Safe. Log 13. -/
  | bufWrittenWhileBusy
  /-- raised by `step`: the host wrote an entry BUF does not have (10 R35: BUF[0..BUF_DEPTH-1]). Safe. Log 14. -/
  | bufIndexBeyondDepth
  /-- raised by `step`: the shift register holds, at a request position, a word with a wrong start, stop or
  park bit, which no command can send (30 R94). Safe. Log 18. -/
  | frameNotProducible
  deriving DecidableEq, Repr

/-- Why an instruction is given no meaning. -/
inductive Refusal where
  /-- raised by `exec` for an instruction the model has no meaning for. Safe. No instruction is left so. -/
  | notModelled (mnemonic : String)
  deriving DecidableEq, Repr

/-- The outcome of a meaning. -/
abbrev Out := Host.Outcome State Fault Refusal

/-- The pins after power-on (70 R250): no session, both pins released. The other fields are unspecified:
DESIGN CHOICE zero, log 1, unsafe. -/
def Pins.atReset : Pins where
  bound := false
  dataPin := 0
  clockPin := 0
  dir := .input
  dio := false
  clk := false
  clkDir := .input
  pullUp := false
  pullDown := false

/-- The command port after power-on (70 R250): CMDW, BUSY, DONE, SUCCESS, STATUS, DIAG_STALLED are 0. The
operands, RESULT and BUF are unspecified: DESIGN CHOICE zero, log 2, unsafe. -/
def Port.atReset : Port where
  cmdw := 0#32
  argAddr := 0#32
  argData := 0#32
  argCount := 0
  result := 0#32
  busy := false
  done := false
  success := false
  status := 0#6
  diagStalled := false
  buf := Vector.replicate Config.bufDepth 0#32

/-- The latched operands after power-on: unspecified, DESIGN CHOICE zero, log 3, unsafe. -/
def Latch.atReset : Latch where
  cmdw := 0#32
  addr := 0#32
  data := 0#32
  count := 0

/-- The sequencer after power-on: 70 R251 "waits for the first start"; the rest is unspecified, DESIGN CHOICE
zero, logs 3 and 24, unsafe. -/
def Seq.atReset : Seq where
  pos := .idle
  attempt := 0
  ack := 0#3
  idx := 0
  shift := 0#32
  bit := 0
  held := 0#32

/-- The model's own fields at reset: no input to come, nothing observed. DESIGN CHOICE, logs 9, 11, 22. -/
def Env.atReset : Env where
  samples := []
  fresh := 0
  inputs := []
  trace := []
  calls := []

/-- The machine after power-on reset (70 R250). -/
def State.reset : State where
  pins := Pins.atReset
  port := Port.atReset
  latch := Latch.atReset
  seq := Seq.atReset
  env := Env.atReset

end Sys2Proof.Machine
end

