-- ==== Sys2Proof/Machine/Flags.lean ====
section
/-! DEFINITION. The status computations: the ACK decoder, the read check, success, the one-hot code. -/

namespace Sys2Proof.Machine

/-- `decode_ack(ack)` (42 R162, 30 R84). -/
def ackStatus (ack : BitVec 3) : Status :=
  if ack = 1#3 then .ok
  else if ack = 2#3 then .wait
  else if ack = 4#3 then .fault
  else .protocolError

/-- `check_read(data, par)` (42 R164). -/
def checkRead (data : Word) (par : Bool) : Status :=
  if par = parity data then .ok else .protocolError

/-- `ok(s)` (42 R163). -/
def Status.isOk (s : Status) : Bool := s == .ok

/-- NONE, the code of x[STATUS] before any command has ended (30 R98). -/
def statusNone : BitVec 6 := 0x00#6

/-- The one-hot code of x[STATUS] (30 R98). -/
def Status.code : Status → BitVec 6
  | .ok => 0x01#6
  | .wait => 0x02#6
  | .fault => 0x04#6
  | .protocolError => 0x08#6
  | .stalled => 0x10#6
  | .refused => 0x20#6

end Sys2Proof.Machine
end

