-- ==== Sys2Proof/Machine/Params.lean ====
section
/-! DEFINITION. The wire literals of 00_scope.md R8 and the register roles of R9 and 20_memory.md R54. -/

namespace Sys2Proof.Machine.Params

/-- NOOP_TICKS (00 R8). -/
def noopTicks : Nat := 8

/-- LINE_RESET_W0, LINE_RESET_W1, 32 bits each (00 R8, 30 R89). -/
def lineResetW0 : Word := 0xFFFFFFFF#32
def lineResetW1 : Word := 0x00FFFFFF#32

/-- WAKE_HIGH, 8 bits (00 R8, 30 R90, 90 C6). -/
def wakeHigh : Word := 0x000000FF#32

/-- ALERT0 to ALERT3, the Selection Alert (00 R8, 30 R90). -/
def alert0 : Word := 0x6209F392#32
def alert1 : Word := 0x86852D95#32
def alert2 : Word := 0xE3DDAFE9#32
def alert3 : Word := 0x19BC0EA2#32

/-- ACTIVATION, 16 bits (00 R8, 30 R90). -/
def activation : Word := 0x0000F1A0#32

/-- The eight register addresses (20 R51). -/
def dp0 : RegAddr := ⟨.dp, 0#2⟩
def dp4 : RegAddr := ⟨.dp, 1#2⟩
def dp8 : RegAddr := ⟨.dp, 2#2⟩
def dpC : RegAddr := ⟨.dp, 3#2⟩
def ap0 : RegAddr := ⟨.ap, 0#2⟩
def ap4 : RegAddr := ⟨.ap, 1#2⟩
def ap8 : RegAddr := ⟨.ap, 2#2⟩
def apC : RegAddr := ⟨.ap, 3#2⟩

/-- The register roles, at the defaults of 20 R54. PRESUMED (the spec marks each default as general knowledge
and not of its source), log 6, unsafe. -/
def regIdcode : RegAddr := dp0
def regAbort : RegAddr := dp0
def regCtrlstat : RegAddr := dp4
def regSelect : RegAddr := dp8
def regRdbuff : RegAddr := dpC
def regTargetsel : RegAddr := dpC
def regCsw : RegAddr := ap0
def regTar : RegAddr := ap4
def regDrw : RegAddr := apC
def regIdr : RegAddr := apC

end Sys2Proof.Machine.Params
end

