-- ==== Sys2Proof/Machine/Operands.lean ====
section
/-! DEFINITION. The operand forms: the register address at the command port (30 R88), the request frame of a
register address (42 R161), the operands latched at `start` (10 R33), the words of BUF (10 R35). -/

namespace Sys2Proof.Machine

/-- The register address a REG value names: `REG[5]` = sel, `REG[3:2]` = a (30 R88); none unless it is one of
the eight. -/
def regOf (reg : BitVec 6) : Option RegAddr :=
  if legalReg reg then some ⟨if reg.getLsbD 5 then .ap else .dp, reg.extractLsb' 2 2⟩ else none

/-- The selector bit: 0 = DP, 1 = AP (30 R81). -/
def Sel.bit : Sel → BitVec 1
  | .dp => 0#1
  | .ap => 1#1

/-- The REG value of a register address (30 R88). -/
def RegAddr.field (r : RegAddr) : BitVec 6 := r.sel.bit ++ 0#1 ++ r.a ++ 0#2

/-- The request-frame builder `req((sel, a), rnw)` (42 R161, 30 R81, R82). The bit positions are PRESUMED (the
spec marks them as general knowledge and not of its source), log 7, unsafe. -/
def req (r : RegAddr) (rnw : Bool) : Byte :=
  1#1 ++ 0#1 ++ BitVec.ofBool (parity (frameVariable r.a (BitVec.ofBool rnw) r.sel.bit)) ++ r.a
    ++ BitVec.ofBool rnw ++ r.sel.bit ++ 1#1

/-- The pin that an operand register names: "a PIN_ID in its low bits" (10 R29). -/
def pinOf (w : Word) : PinId := BitVec.ofNat Config.pinIdWidth w.toNat

/-- `data_pin`, the operand of INIT that x[ARG_ADDR] carries (10 R29). -/
def State.dataPinArg (s : State) : PinId := pinOf s.latch.addr

/-- `clock_pin`, the operand of INIT that x[ARG_DATA] carries (10 R30); that it stands in the low bits, as data_pin
does, is DEDUCED, log 4. -/
def State.clockPinArg (s : State) : PinId := pinOf s.latch.data

/-- `BUF[i]` (10 R35). No command reads an entry that BUF does not have (60 R226 (6)). -/
def State.bufWord (s : State) (i : Nat) : Word := s.port.buf[i]?.getD Config.sentinel

/-- `BUF[i] <- v` (10 R35). -/
def State.setBuf (s : State) (i : Nat) (v : Word) : State :=
  { s with port.buf := s.port.buf.setIfInBounds i v }

/-- The entries of BUF from `lo` on become unspecified (10 R35, 93 U9): a free value each. Log 25. -/
def State.freeBuf (lo : Nat) (s : State) : State :=
  { s with
    port.buf := s.port.buf.mapIdx fun j w => if lo ≤ j then Config.freeEntry (s.env.fresh + j) else w
    env.fresh := s.env.fresh + Config.bufDepth }

/-- Latching the operands at `start` (10 R33): x[BUSY] <- 1, x[DONE] <- 0. -/
def State.latchOperands (s : State) : State :=
  { s with
    latch := { cmdw := s.port.cmdw, addr := s.port.argAddr, data := s.port.argData, count := s.port.argCount }
    port.busy := true
    port.done := false }

end Sys2Proof.Machine
end

