-- ==== Sys2Proof/Machine/Ops.lean ====
section
/-! DEFINITION. The shared operations, from the pin up: pin events (40 R120), micro-operations (40 R121 to R126),
transactions (42 R165 to R167), the retried access (42 R170), microprograms (43 R190), and ending a command
with a status (60 R227), which is what "taking an exception" is on this engine. -/

namespace Sys2Proof.Machine

/-! ## Pin events and observation -/

/-- What a pin event writes (40 R120, column "state written"). -/
def PinEvent.apply (e : PinEvent) (p : Pins) : Pins :=
  match e with
  | .clk l => { p with clk := l }
  | .clkDir d => { p with clkDir := d }
  | .dio l => { p with dio := l }
  | .dir d => { p with dir := d }
  | .pull up down => { p with pullUp := up, pullDown := down }
  | .sample _ => p
  | .delay _ => p
  | .pinInit _ => p

/-- One pin event: it writes its pin state and is observed. -/
def pin (e : PinEvent) (s : State) : State :=
  { s with pins := e.apply s.pins, env.trace := e :: s.env.trace }

/-- A primitive call is observed (00 R6). -/
def note (c : Call) (s : State) : State := { s with env.calls := c :: s.env.calls }

/-- A free value of the sample stream: the next answer of the script, or a fresh free value (40 R120). -/
def drawSample (s : State) : Bool × State :=
  match s.env.samples with
  | b :: rest => (b, { s with env.samples := rest })
  | [] => (Config.freeSample s.env.fresh, { s with env.fresh := s.env.fresh + 1 })

/-- `SAMPLE() -> b` (40 R120). -/
def sample (s : State) : Bool × State :=
  let (b, s) := drawSample s
  (b, pin (.sample b) s)

/-! ## Micro-operations -/

/-- One tick (40 R121): clock low for a half-period, then high for a half-period. -/
def tick (s : State) : State :=
  pin (.delay .halfPeriod) (pin (.clk true) (pin (.delay .halfPeriod) (pin (.clk false) s)))

def ticks : Nat → State → State
  | 0, s => s
  | n + 1, s => ticks n (tick s)

/-- `clock(n)` (40 R121). -/
def clock (n : Nat) (s : State) : State := ticks n (note (.clock n) s)

/-- The loop of `write`, from bit i, for the bits still to send. -/
def writeFrom (word : Word) : Nat → Nat → State → State
  | _, 0, s => s
  | i, k + 1, s => writeFrom word (i + 1) k (tick (pin (.dio (word.getLsbD i)) { s with seq.bit := i + 1 }))

/-- `write(word, len)` (40 R122): bit 0 first, the line low afterwards. "len > 32 is never used and has no meaning":
every `write` of a command has a len of at most 32; that this definition, a total one, sends zeros past bit 31 is
DESIGN CHOICE, log 33. -/
def write (word : Word) (len : Nat) (s : State) : State :=
  pin (.dio false) (writeFrom word 0 len { note (.write word len) s with seq.shift := word, seq.bit := 0 })

/-- The loop of `read`, from bit i, for the bits still to take; the value is assembled in the shift register. -/
def readFrom : Nat → Nat → State → State
  | _, 0, s => s
  | i, k + 1, s =>
    let (b, s) := sample s
    readFrom (i + 1) k (tick { s with seq.shift := placeBit s.seq.shift i b, seq.bit := i + 1 })

/-- `read(len)` (40 R123): sample before the tick, first sample in bit 0; the value is left in the shift
register. The rule has len in 0..32 and every `read` of a command has; that this definition drops the samples past the
32nd is DESIGN CHOICE, log 33. -/
def read (len : Nat) (s : State) : State :=
  let s := readFrom 0 len { s with seq.shift := 0#32, seq.bit := 0 }
  note (.read len s.seq.shift) s

/-- `turn(d)` (40 R124, R125): taking the line comes after the tick, releasing it before. -/
def turn (d : Dir) (s : State) : State :=
  match d with
  | .output => pin (.dir .output) (tick (note (.turn .output) s))
  | .input => tick (pin (.dir .input) (note (.turn .input) s))

/-- `pad()` (40 R126). -/
def pad (s : State) : State := pin (.delay .padDelay) (note .pad s)

/-- A call of the GPIO collaborator made by no primitive (41 R141, R150; 60 R238). -/
def gpio (e : PinEvent) (s : State) : State := pin e (note (.gpio e) s)

/-! ## One transaction -/

/-- Sending a request frame between its two pads (42 R165). -/
def sendFrame (f : Byte) (s : State) : State := pad (write (f.setWidth 32) 8 (pad s))

/-- Reading the ACK: `ack <- read(3); S.ack <- ack` (42 R165). -/
def readAck (s : State) : State :=
  let s := read 3 s
  { s with seq.ack := s.seq.shift.setWidth 3 }

/-- `prefix(reg, rnw)` (42 R165). The ACK is left in `seq.ack`. -/
def requestAck (reg : RegAddr) (rnw : Bool) (s : State) : State :=
  readAck (turn .input (sendFrame (req reg rnw) s))

/-- Taking the line back, and the pad after it (42 R166, R167). -/
def takeLine (s : State) : State := pad (turn .output s)

/-- The data of a write transaction: `write(value, 32); pad()` (42 R166). -/
def sendWord (value : Word) (s : State) : State := pad (write value 32 s)

/-- The parity bit of a write transaction: `write(parity(value), 1); pad()` (42 R166). -/
def sendParity (value : Word) (s : State) : State := pad (write (levelWord (parity value)) 1 s)

/-- What a transaction or an access comes to: its status, the value of a read (SENTINEL unless the status is
OK, 42 R169; a write has no value and SENTINEL stands there unused), and the state. -/
structure Res where
  status : Status
  value : Word
  state : State
  deriving DecidableEq, Repr

/-- `xfer_write(reg, value)` (42 R166). -/
def xferWrite (reg : RegAddr) (value : Word) (s : State) : Res :=
  let s := requestAck reg false s
  let st := ackStatus s.seq.ack
  let s := takeLine s
  if st = .ok then ⟨.ok, Config.sentinel, sendParity value (sendWord value s)⟩
  else ⟨st, Config.sentinel, s⟩

/-- `xfer_read(reg)` (42 R167, 92 D9). -/
def xferRead (reg : RegAddr) (s : State) : Res :=
  let s := requestAck reg true s
  let st := ackStatus s.seq.ack
  if st = .ok then
    let s := read 32 s
    let data := s.seq.shift
    let s := read 1 s
    let par := s.seq.shift.getLsbD 0
    let s := takeLine s
    if checkRead data par = .ok then ⟨.ok, data, s⟩ else ⟨.protocolError, Config.sentinel, s⟩
  else ⟨st, Config.sentinel, takeLine s⟩

/-! ## The retried access -/

/-- The retry loop of 42 R170, with the attempts still allowed: each attempt is a whole transaction; WAIT goes
round again; none left is STALLED and sets the diagnostic (10 R34). -/
def retry (xfer : State → Res) : Nat → State → Res
  | 0, s => ⟨.stalled, Config.sentinel, { s with port.diagStalled := true }⟩
  | n + 1, s =>
    let r := xfer { s with seq.attempt := s.seq.attempt + 1 }
    if r.status = .wait then retry xfer n r.state else r

/-- `access_write(reg, value)` (42 R170). -/
def accessWrite (reg : RegAddr) (value : Word) (s : State) : Res :=
  retry (xferWrite reg value) Config.waitRetryBound { s with seq.attempt := 0 }

/-- `access_read(reg)` (42 R170). -/
def accessRead (reg : RegAddr) (s : State) : Res :=
  retry (xferRead reg) Config.waitRetryBound { s with seq.attempt := 0 }

/-! ## Microprograms -/

/-- Where the value of a read goes (43 R191 to R198). -/
inductive Sink where
  /-- it is not looked at -/
  | drop
  /-- it is the command's value result -/
  | hold
  /-- `BUF[i]` -/
  | buf (i : Nat)
  /-- `BUF[i]`, the last word fetched: the entries after it are not reached (10 R35) -/
  | last (i : Nat)
  deriving DecidableEq, Repr

/-- One access of a command's list (43 R190). -/
structure Access where
  reg : RegAddr
  /-- the value of a write; none for a read -/
  value : Option Word
  sink : Sink
  /-- S.idx while the access runs, where the command has a word index -/
  idx : Option Nat
  /-- the BUF entry being fetched, which no longer is reached if the access fails (43 R198) -/
  fetching : Option Nat
  deriving DecidableEq, Repr

/-- `W(reg, v)` (43 R190). -/
def Access.write (reg : RegAddr) (v : Word) : Access := ⟨reg, some v, .drop, none, none⟩

/-- `R(reg)` (43 R190), its value going to `sink`. -/
def Access.read (reg : RegAddr) (sink : Sink) : Access := ⟨reg, none, sink, none, none⟩

/-- RnW of an access. -/
def Access.rnw (a : Access) : Bool := a.value.isNone

/-- A statement of a command's microprogram. -/
inductive Micro where
  | pad
  /-- `pad(); write(frame, 8); pad()` -/
  | frame (f : Byte)
  | write (word : Word) (len : Nat)
  /-- `ack <- read(3)` -/
  | readAck
  | turn (d : Dir)
  | clock (n : Nat)
  | gpio (e : PinEvent)
  /-- `S.data_pin <- d; S.clock_pin <- c` -/
  | setPins (d c : PinId)
  /-- `S.bound <- 1` -/
  | bind
  /-- `S.bound <- 0`, and the pulls become unspecified (10 R26) -/
  | unbind
  | access (a : Access)
  deriving DecidableEq, Repr

/-- The end of the session (41 R150): `S.bound <- 0`; the pulls take any value (10 R26, 93 U5), two free values.
Log 10. -/
def unbind (s : State) : State :=
  { s with
    pins.bound := false
    pins.pullUp := Config.freePull s.env.fresh
    pins.pullDown := Config.freePull (s.env.fresh + 1)
    env.fresh := s.env.fresh + 2 }

/-- One transaction of an access. -/
def Access.xfer (a : Access) (s : State) : Res :=
  match a.value with
  | some v => xferWrite a.reg v s
  | none => xferRead a.reg s

/-- What is set when an access begins. -/
def Access.begin (a : Access) (s : State) : State := { s with seq.idx := a.idx.getD s.seq.idx }

/-- Where the value of an access that ended OK goes. -/
def Access.store (a : Access) (v : Word) (s : State) : State :=
  match a.sink with
  | .drop => s
  | .hold => { s with seq.held := v }
  | .buf i => s.setBuf i v
  | .last i => (s.freeBuf i).setBuf i v

/-- What a failed access leaves in BUF (43 R198, R199: "if S.idx < n: BUF[S.idx] <- SENTINEL"): the entries from the one
being fetched on are not reached, and what they hold is unspecified (10 R35, 92 D19), but for the SENTINEL. Log 25. -/
def Access.spoil (a : Access) (s : State) : State :=
  match a.fetching with
  | none => s
  | some i => if i < s.latch.count then (s.freeBuf i).setBuf i Config.sentinel else s.freeBuf i

/-- The retried access of a list's entry (42 R170). -/
def Access.run (a : Access) (s : State) : Res :=
  match a.value with
  | some v => accessWrite a.reg v (a.begin s)
  | none => accessRead a.reg (a.begin s)

/-- A statement that is no access: it cannot fail. -/
def Micro.plain (m : Micro) (s : State) : State :=
  match m with
  | .pad => Machine.pad s
  | .frame f => sendFrame f s
  | .write w n => Machine.write w n s
  | .readAck => Machine.readAck s
  | .turn d => Machine.turn d s
  | .clock n => Machine.clock n s
  | .gpio e => Machine.gpio e s
  | .setPins d c => { s with pins.dataPin := d, pins.clockPin := c }
  | .bind => { s with pins.bound := true }
  | .unbind => Machine.unbind s
  | .access _ => s

/-- One statement: the status it ends with and the state it leaves. -/
def Micro.run (m : Micro) (s : State) : Status × State :=
  match m with
  | .access a =>
    let r := a.run s
    if r.status = .ok then (.ok, a.store r.value r.state) else (r.status, a.spoil r.state)
  | m => (.ok, m.plain s)

/-- A microprogram: statement after statement, ending at the first status that is not OK (43 R190, 60 R228). -/
def runProgram : List Micro → State → Status × State
  | [], s => (.ok, s)
  | m :: ms, s =>
    let (st, s) := m.run s
    if st = .ok then runProgram ms s else (st, s)

/-! ## Commands -/

/-- Why a command is not started, in the order of the tests (60 R226). No state records it (60 R221). -/
inductive RefusalCause where
  /-- (1) reserved bits of CMDW set, or reserved opcode -/
  | reservedWord
  /-- (2) no session and the command is not INIT -/
  | noSession
  /-- (3) a session and the command is INIT -/
  | sessionExists
  /-- (4) INIT with equal pins -/
  | equalPins
  /-- (5) GET_REG or SET_REG with an illegal REG value -/
  | illegalReg
  /-- (6) PEEK_MANY or POKE_MANY with ARG_COUNT > BUF_DEPTH -/
  | countAboveDepth
  deriving DecidableEq, Repr

/-- A host command: whether it is INIT (which needs that there be no session), the refusal test of its own,
whether it has a value result in x[RESULT] (10 R32), and its microprogram over the latched operands. -/
structure Command where
  isInit : Bool
  own : State → Option RefusalCause
  valued : Bool
  program : State → List Micro

/-- The refusal tests at `start`, in the order of 60 R226. -/
def Command.refusal (c : Command) (s : State) : Option RefusalCause :=
  match c.own s with
  | some .reservedWord => some .reservedWord
  | own =>
    if c.isInit then
      if s.pins.bound then some .sessionExists else own
    else
      if s.pins.bound then own else some .noSession

/-- What the port reports of a command that ended with status `st` (60 R227, 10 R32 to R34): x[RESULT] of a
command with a value result, x[STATUS], x[SUCCESS], then x[BUSY] <- 0, x[DONE] <- 1. Any status but OK is the
failure `fail(s)` of 43 R190: the value result is SENTINEL. -/
def reportStatus (valued : Bool) (st : Status) (held : Word) (p : Port) : Port :=
  { p with
    result := if valued then (if st = .ok then held else Config.sentinel) else p.result
    status := st.code
    success := st.isOk
    busy := false
    done := true }

/-- Ending a started command with its terminal status (60 R227): the one way a command succeeds or fails. -/
def endCommand (valued : Bool) (st : Status) (s : State) : State :=
  { s with port := reportStatus valued st s.seq.held s.port, seq.pos := .idle }

/-- A command that is not started (60 R226): "A refused command changes nothing but x[STATUS], x[SUCCESS],
x[BUSY], x[DONE]" and the x[RESULT] of a command with a value result. -/
def refuseCommand (valued : Bool) (s : State) : State :=
  { s with port := reportStatus valued .refused s.seq.held s.port }

/-- A command, from `start` to its end (10 R33): ignored while BUSY; else the operands are latched, the refusal
tests made, and the microprogram run. -/
def runCommand (c : Command) (s : State) : Out :=
  if s.port.busy then .next s
  else
    match c.refusal s.latchOperands with
    | some _ => .next (refuseCommand c.valued s)
    | none =>
      let r := runProgram (c.program s.latchOperands) s.latchOperands
      .next (endCommand c.valued r.1 r.2)

/-- A command word that names no command is refused (30 R97, 60 R226 (1) and (5)). Its opcode field says whether
x[RESULT] gets SENTINEL (log 15). -/
def refusedWord (valued : Bool) : Command where
  isInit := false
  own := fun _ => some .reservedWord
  valued := valued
  program := fun _ => []

end Sys2Proof.Machine
end

