-- ==== Sys2Proof/Machine/Ack.lean ====
section
/-! DEFINITION. The ACK values (30 R84, 42 R162): branch (a) of 42 R183. Executing an ACK classifies it and moves
the sequencer on (42 R179): a write always takes the line back first; a read goes on to its data phase when the
ACK is OK and takes the line back otherwise. -/

namespace Sys2Proof.Machine

/-- Where the sequencer stands once the ACK is classified (42 R179). Elsewhere than at the classification nothing
depends on an ACK and the position stays. -/
def afterAck (st : Status) : Pos → Pos
  | .xfer k (.decode rnw) =>
    match rnw, st with
    | true, .ok => .xfer k .rdata
    | _, st => .xfer k (.trn2 st)
  | p => p

/-- Classifying an ACK: S.ack holds it (42 R165), the branch follows its status. -/
def takeAck (v : BitVec 3) (s : State) : Out :=
  .next { s with seq.ack := v, seq.pos := afterAck (ackStatus v) s.seq.pos }

def execAckOk (s : State) : Out := takeAck 1#3 s
def execAckWait (s : State) : Out := takeAck 2#3 s
def execAckFault (s : State) : Out := takeAck 4#3 s
def execAckInvalid0 (s : State) : Out := takeAck 0#3 s
def execAckInvalid3 (s : State) : Out := takeAck 3#3 s
def execAckInvalid5 (s : State) : Out := takeAck 5#3 s
def execAckInvalid6 (s : State) : Out := takeAck 6#3 s
def execAckInvalid7 (s : State) : Out := takeAck 7#3 s

end Sys2Proof.Machine
end

