-- ==== Sys2Proof/Machine/ApMemory.lean ====
section
/-! DEFINITION. AP memory configuration and the memory API (43_ap_memory.md): SETUP_MEM, PEEK, PEEK_MANY, POKE,
POKE_MANY. -/

namespace Sys2Proof.Machine

/-- The refusal test of a word count (60 R226 (6)). -/
def countTest (s : State) : Option RefusalCause :=
  if Config.bufDepth < s.latch.count then some .countAboveDepth else none

/-- SETUP_MEM's ten accesses (43 R191). -/
def setupMemProgram (_ : State) : List Micro :=
  [.access (Access.write Params.regAbort Config.abortClearWord),
   .access (Access.write Params.regSelect Config.selectIdle),
   .access (Access.write Params.regCtrlstat Config.ctrlstatPowerupWord),
   .access (Access.read Params.regCtrlstat .drop),
   .access (Access.write Params.regSelect Config.selectIdr),
   .access (Access.read Params.regIdr .drop),
   .access (Access.read Params.regRdbuff .hold),
   .access (Access.write Params.regSelect Config.selectCsw),
   .access (Access.write Params.regCsw Config.cswWord),
   .access (Access.write Params.regSelect Config.selectIdle)]

/-- SETUP_MEM (43 R191). -/
def setupMemCommand : Command where
  isInit := false
  own := fun _ => none
  valued := true
  program := setupMemProgram

/-- PEEK's three accesses (43 R195). -/
def peekProgram (s : State) : List Micro :=
  [.access (Access.write Params.regTar s.latch.addr),
   .access (Access.read Params.regDrw .drop),
   .access (Access.read Params.regRdbuff .hold)]

/-- PEEK (43 R195). -/
def peekCommand : Command where
  isInit := false
  own := fun _ => none
  valued := true
  program := peekProgram

/-- An access of PEEK_MANY: word index i, and the entry `BUF[i]` being fetched (43 R198). -/
def fetchWord (reg : RegAddr) (sink : Sink) (i : Nat) : Micro :=
  .access ⟨reg, none, sink, some i, some i⟩

/-- PEEK_MANY's accesses (43 R198): the address; unless n = 0, the prime, n - 1 reads of the data register
delivering the words 0 to n - 2, and the drain delivering word n - 1. -/
def peekManyProgram (s : State) : List Micro :=
  match s.latch.count with
  | 0 => [.access ⟨Params.regTar, some s.latch.addr, .drop, some 0, some 0⟩]
  | n + 1 =>
    .access ⟨Params.regTar, some s.latch.addr, .drop, some 0, some 0⟩
      :: fetchWord Params.regDrw .drop 0
      :: (List.range n).map (fun i => fetchWord Params.regDrw (.buf i) i)
      ++ [fetchWord Params.regRdbuff (.last n) n]

/-- PEEK_MANY (43 R198, R199). -/
def peekManyCommand : Command where
  isInit := false
  own := countTest
  valued := false
  program := peekManyProgram

/-- POKE (43 R202). -/
def pokeCommand : Command where
  isInit := false
  own := fun _ => none
  valued := false
  program := fun s =>
    [.access (Access.write Params.regTar s.latch.addr), .access (Access.write Params.regDrw s.latch.data)]

/-- POKE_MANY's accesses (43 R204). -/
def pokeManyProgram (s : State) : List Micro :=
  .access (Access.write Params.regTar s.latch.addr)
    :: (List.range s.latch.count).map fun i =>
        .access ⟨Params.regDrw, some (s.bufWord i), .drop, some i, none⟩

/-- POKE_MANY (43 R204, R205). -/
def pokeManyCommand : Command where
  isInit := false
  own := countTest
  valued := false
  program := pokeManyProgram

def execSetupMem (s : State) : Out := runCommand setupMemCommand s
def execPeek (s : State) : Out := runCommand peekCommand s
def execPeekMany (s : State) : Out := runCommand peekManyCommand s
def execPoke (s : State) : Out := runCommand pokeCommand s
def execPokeMany (s : State) : Out := runCommand pokeManyCommand s

end Sys2Proof.Machine
end

