-- ==== Sys2Proof/Machine/Link.lean ====
section
/-! DEFINITION. Session and link control (41_link_control.md): INIT, RESET, SELECT_TARGET, NOOP, DISCONNECT. -/

namespace Sys2Proof.Machine

/-- INIT's microprogram (41 R141), the pin events in the order of 92 D23. -/
def initProgram (s : State) : List Micro :=
  [.setPins s.dataPinArg s.clockPinArg,
   .gpio (.pinInit s.clockPinArg), .gpio (.clk true), .gpio (.clkDir .output),
   .gpio (.pinInit s.dataPinArg), .gpio (.dio false), .gpio (.pull true false), .gpio (.dir .output),
   .bind]

/-- INIT (41 R141, R142): refused with a session, or with equal pins. -/
def initCommand : Command where
  isInit := true
  own := fun s => if s.dataPinArg = s.clockPinArg then some .equalPins else none
  valued := false
  program := initProgram

/-- RESET's microprogram (41 R143): line reset, dormant wake, line reset, a pad between stages. -/
def resetProgram (_ : State) : List Micro :=
  [.write Params.lineResetW0 32, .write Params.lineResetW1 32,
   .pad,
   .write Params.wakeHigh 8,
   .write Params.alert0 32, .write Params.alert1 32, .write Params.alert2 32, .write Params.alert3 32,
   .write Params.activation 16,
   .pad,
   .write Params.lineResetW0 32, .write Params.lineResetW1 32]

/-- RESET (41 R143). -/
def resetCommand : Command where
  isInit := false
  own := fun _ => none
  valued := false
  program := resetProgram

/-- SELECT_TARGET's microprogram (41 R146): the ACK is read and ignored, the identifier and its parity sent. -/
def selectTargetProgram (s : State) : List Micro :=
  [.frame (req Params.regTargetsel false), .turn .input, .readAck, .turn .output, .pad,
   .write s.latch.data 32, .pad, .write (levelWord (parity s.latch.data)) 1, .pad]

/-- SELECT_TARGET (41 R146). -/
def selectTargetCommand : Command where
  isInit := false
  own := fun _ => none
  valued := false
  program := selectTargetProgram

/-- NOOP (41 R148): eight bare ticks. -/
def noopCommand : Command where
  isInit := false
  own := fun _ => none
  valued := false
  program := fun _ => [.clock Params.noopTicks]

/-- DISCONNECT (41 R150): both pins released, data then clock; the pulls are unspecified afterwards (10 R26). -/
def disconnectCommand : Command where
  isInit := false
  own := fun _ => none
  valued := false
  program := fun _ => [.gpio (.dir .input), .gpio (.clkDir .input), .unbind]

def execInit (s : State) : Out := runCommand initCommand s
def execReset (s : State) : Out := runCommand resetCommand s
def execSelectTarget (s : State) : Out := runCommand selectTargetCommand s
def execNoop (s : State) : Out := runCommand noopCommand s
def execDisconnect (s : State) : Out := runCommand disconnectCommand s

end Sys2Proof.Machine
end

