-- ==== Sys2Proof/Machine/Register.lean ====
section
/-! DEFINITION. Register access (42_register_access.md): GET_REG, SET_REG, READ_IDCODE. -/

namespace Sys2Proof.Machine

/-- The refusal test of a register operand (60 R226 (5)). -/
def regTest (reg : BitVec 6) : Option RefusalCause :=
  if (regOf reg).isSome then none else some .illegalReg

/-- GET_REG's access (42 R174). A command with an illegal REG is not started, so it has none. -/
def getRegProgram (reg : BitVec 6) : List Micro :=
  match regOf reg with
  | some r => [.access (Access.read r .hold)]
  | none => []

/-- GET_REG (42 R174). -/
def getRegCommand (reg : BitVec 6) : Command where
  isInit := false
  own := fun _ => regTest reg
  valued := true
  program := fun _ => getRegProgram reg

/-- SET_REG's access (42 R172). -/
def setRegProgram (reg : BitVec 6) (s : State) : List Micro :=
  match regOf reg with
  | some r => [.access (Access.write r s.latch.data)]
  | none => []

/-- SET_REG (42 R172). -/
def setRegCommand (reg : BitVec 6) : Command where
  isInit := false
  own := fun _ => regTest reg
  valued := false
  program := setRegProgram reg

/-- READ_IDCODE (42 R176): GET_REG of one fixed register. -/
def readIdcodeCommand : Command where
  isInit := false
  own := fun _ => none
  valued := true
  program := fun _ => [.access (Access.read Params.regIdcode .hold)]

def execGetReg (reg : BitVec 6) (s : State) : Out := runCommand (getRegCommand reg) s
def execSetReg (reg : BitVec 6) (s : State) : Out := runCommand (setRegCommand reg) s
def execReadIdcode (s : State) : Out := runCommand readIdcodeCommand s

end Sys2Proof.Machine
end

