-- ==== Sys2Proof/Syntax.lean ====
section
/-! DEFINITION. The instructions: one constructor for each of the 41 rows of spec/opcode_table.json (30 R103).
A command's operands other than REG travel in the command port's registers (30 R95), so only GET_REG and
SET_REG carry an operand; the generic frame row carries its four fields. -/

namespace Sys2Proof

inductive Instr where
  /-- 0x0, `init(data_pin, clock_pin)`, 41 R141 -/
  | init
  /-- 0x1, `reset()`, 41 R143 -/
  | reset
  /-- 0x2, `select_target(id)`, 41 R146 -/
  | selectTarget
  /-- 0x3, `read_idcode()`, 42 R176 -/
  | readIdcode
  /-- 0x4, `setup_mem()`, 43 R191 -/
  | setupMem
  /-- 0x5, `noop()`, 41 R148 -/
  | noop
  /-- 0x6, `get_reg(reg)`, 42 R174; `reg` is the six REG bits as the host wrote them -/
  | getReg (reg : BitVec 6)
  /-- 0x7, `set_reg(reg, value)`, 42 R172; `reg` is the six REG bits as the host wrote them -/
  | setReg (reg : BitVec 6)
  /-- 0x8, `peek(addr)`, 43 R195 -/
  | peek
  /-- 0x9, `peek_many(addr, n)`, 43 R198 -/
  | peekMany
  /-- 0xA, `poke(addr, value)`, 43 R202 -/
  | poke
  /-- 0xB, `poke_many(addr, values)`, 43 R204 -/
  | pokeMany
  /-- 0xC, `disconnect()`, 41 R150 -/
  | disconnect
  /-- 0xD, reserved, 30 R97 -/
  | reservedD
  /-- 0xE, reserved, 30 R97 -/
  | reservedE
  /-- 0xF, reserved, 30 R97 -/
  | reservedF
  /-- request frame 0x81, 30 R83 -/
  | reqDp0W
  /-- request frame 0xA9, 30 R83 -/
  | reqDp4W
  /-- request frame 0xB1, 30 R83 -/
  | reqDp8W
  /-- request frame 0x99, 30 R83 -/
  | reqDpCW
  /-- request frame 0xA5, 30 R83 -/
  | reqDp0R
  /-- request frame 0x8D, 30 R83 -/
  | reqDp4R
  /-- request frame 0x95, 30 R83 -/
  | reqDp8R
  /-- request frame 0xBD, 30 R83 -/
  | reqDpCR
  /-- request frame 0xA3, 30 R83 -/
  | reqAp0W
  /-- request frame 0x8B, 30 R83 -/
  | reqAp4W
  /-- request frame 0x93, 30 R83 -/
  | reqAp8W
  /-- request frame 0xBB, 30 R83 -/
  | reqApCW
  /-- request frame 0x87, 30 R83 -/
  | reqAp0R
  /-- request frame 0xAF, 30 R83 -/
  | reqAp4R
  /-- request frame 0xB7, 30 R83 -/
  | reqAp8R
  /-- request frame 0x9F, 30 R83 -/
  | reqApCR
  /-- the generic frame pattern `10paars1`, 30 R81: parity bit, address bits, RnW, APnDP. The words of the
  pattern whose parity bit is right are the sixteen rows above; this row's own words are the others. -/
  | req (p : BitVec 1) (a : BitVec 2) (r : BitVec 1) (s : BitVec 1)
  /-- ACK 1, 42 R162 -/
  | ackOk
  /-- ACK 2, 42 R162 -/
  | ackWait
  /-- ACK 4, 42 R162 -/
  | ackFault
  /-- ACK 0, 42 R162 -/
  | ackInvalid0
  /-- ACK 3, 42 R162 -/
  | ackInvalid3
  /-- ACK 5, 42 R162 -/
  | ackInvalid5
  /-- ACK 6, 42 R162 -/
  | ackInvalid6
  /-- ACK 7, 42 R162 -/
  | ackInvalid7
  deriving DecidableEq, Repr

end Sys2Proof
end

