-- ==== Sys2Proof/WellFormed.lean ====
section
/-! DEFINITION. Well-formed instructions: a register operand is one of the eight register addresses of 30 R88,
and the generic frame row stands only for the words that none of the sixteen frame rows has, those whose
parity bit is not the parity of the four variable bits (30 R81, R82; log 16). -/

namespace Sys2Proof

/-- The frame's parity bit is the parity of its four variable bits (30 R82). -/
def frameParityRight (p : BitVec 1) (a : BitVec 2) (r s : BitVec 1) : Bool :=
  p == BitVec.ofBool (Machine.parity (Machine.frameVariable a r s))

/-- The check of an instruction's operands. -/
def wellFormed : Instr → Bool
  | .getReg reg => Machine.legalReg reg
  | .setReg reg => Machine.legalReg reg
  | .req p a r s => !frameParityRight p a r s
  | .init | .reset | .selectTarget | .readIdcode | .setupMem | .noop | .peek | .peekMany | .poke | .pokeMany
  | .disconnect | .reservedD | .reservedE | .reservedF
  | .reqDp0W | .reqDp4W | .reqDp8W | .reqDpCW | .reqDp0R | .reqDp4R | .reqDp8R | .reqDpCR
  | .reqAp0W | .reqAp4W | .reqAp8W | .reqApCW | .reqAp0R | .reqAp4R | .reqAp8R | .reqApCR
  | .ackOk | .ackWait | .ackFault | .ackInvalid0 | .ackInvalid3 | .ackInvalid5 | .ackInvalid6 | .ackInvalid7 =>
    true

end Sys2Proof
end

