-- ==== Sys2Proof/Decode.lean ====
section
/-! DEFINITION. The decoder, total on every word of the three formats (30 R103) and rejecting by name, and the
encoder, both written from the tables of 30 R83, R84, R95, R96. There is no byte order (20 R57): a word of
a format is one number, bit 0 least significant. -/

namespace Sys2Proof

/-- A word tagged with its format, as the table's `format` column names it. -/
inductive Code where
  /-- the host's command word, 30 R95 -/
  | cmdw (w : Word)
  /-- a request frame, 30 R81 -/
  | req8 (w : Byte)
  /-- an ACK, 30 R84 -/
  | ack3 (w : BitVec 3)
  deriving DecidableEq, Repr

/-- Why a word is no instruction. -/
inductive DecodeError where
  /-- one of `CMDW[31:10]` is set (30 R97) -/
  | reservedBits (w : Word)
  /-- GET_REG or SET_REG with a REG value that is not one of the eight (30 R97) -/
  | illegalReg (w : Word)
  /-- a start, stop or park bit is wrong (30 R81, R94) -/
  | badFrame (w : Byte)
  deriving DecidableEq, Repr

/-- `CMDW[3:0]`, the opcode OP (30 R95). -/
def opField (w : Word) : BitVec 4 := w.extractLsb' 0 4

/-- `CMDW[9:4]`, the register address REG (30 R95). -/
def regField (w : Word) : BitVec 6 := w.extractLsb' 4 6

/-- `CMDW[31:10]`, reserved, must be 0 (30 R95). -/
def reservedField (w : Word) : BitVec 22 := w.extractLsb' 10 22

/-- The command a command word names, by the opcodes of 30 R96. -/
def commandOf (w : Word) : Instr :=
  match (opField w).toNat with
  | 0x0 => .init
  | 0x1 => .reset
  | 0x2 => .selectTarget
  | 0x3 => .readIdcode
  | 0x4 => .setupMem
  | 0x5 => .noop
  | 0x6 => .getReg (regField w)
  | 0x7 => .setReg (regField w)
  | 0x8 => .peek
  | 0x9 => .peekMany
  | 0xA => .poke
  | 0xB => .pokeMany
  | 0xC => .disconnect
  | 0xD => .reservedD
  | 0xE => .reservedE
  | _ => .reservedF

/-- Decoding a command word (30 R95 to R97). -/
def decodeCommand (w : Word) : Except DecodeError Instr :=
  if reservedField w ≠ 0#22 then .error (.reservedBits w)
  else if wellFormed (commandOf w) then .ok (commandOf w)
  else .error (.illegalReg w)

/-- Decoding a request frame by the table of 30 R83; a word of the pattern `10paars1` with the wrong parity
bit is the generic row's (log 16); any other word has a wrong start, stop or park bit. -/
def decodeFrame (w : Byte) : Except DecodeError Instr :=
  match w.toNat with
  | 0x81 => .ok .reqDp0W
  | 0xA9 => .ok .reqDp4W
  | 0xB1 => .ok .reqDp8W
  | 0x99 => .ok .reqDpCW
  | 0xA5 => .ok .reqDp0R
  | 0x8D => .ok .reqDp4R
  | 0x95 => .ok .reqDp8R
  | 0xBD => .ok .reqDpCR
  | 0xA3 => .ok .reqAp0W
  | 0x8B => .ok .reqAp4W
  | 0x93 => .ok .reqAp8W
  | 0xBB => .ok .reqApCW
  | 0x87 => .ok .reqAp0R
  | 0xAF => .ok .reqAp4R
  | 0xB7 => .ok .reqAp8R
  | 0x9F => .ok .reqApCR
  | _ =>
    if w &&& 0xC1#8 = 0x81#8 then
      .ok (.req (w.extractLsb' 5 1) (w.extractLsb' 3 2) (w.extractLsb' 2 1) (w.extractLsb' 1 1))
    else .error (.badFrame w)

/-- Decoding an ACK by the table of 30 R84: every value is a row. -/
def decodeAck (w : BitVec 3) : Instr :=
  match w.toNat with
  | 0 => .ackInvalid0
  | 1 => .ackOk
  | 2 => .ackWait
  | 3 => .ackInvalid3
  | 4 => .ackFault
  | 5 => .ackInvalid5
  | 6 => .ackInvalid6
  | _ => .ackInvalid7

/-- The decoder. -/
def decode : Code → Except DecodeError Instr
  | .cmdw w => decodeCommand w
  | .req8 w => decodeFrame w
  | .ack3 w => .ok (decodeAck w)

/-- A command word: `CMDW = OP | REG << 4` (30 R95, 95 part 3). A command that ignores REG has 0 there
(log 30). -/
def commandWord (op : BitVec 4) (reg : BitVec 6) : Word := 0#22 ++ reg ++ op

/-- A request frame from its fields: park 1, stop 0, parity, address, RnW, APnDP, start 1 (30 R81). -/
def frameWord (p : BitVec 1) (a : BitVec 2) (r s : BitVec 1) : Byte :=
  1#1 ++ 0#1 ++ p ++ a ++ r ++ s ++ 1#1

/-- The encoder: the word of an instruction, from the tables of 30 R83, R84, R96. -/
def encode : Instr → Code
  | .init => .cmdw (commandWord 0x0#4 0#6)
  | .reset => .cmdw (commandWord 0x1#4 0#6)
  | .selectTarget => .cmdw (commandWord 0x2#4 0#6)
  | .readIdcode => .cmdw (commandWord 0x3#4 0#6)
  | .setupMem => .cmdw (commandWord 0x4#4 0#6)
  | .noop => .cmdw (commandWord 0x5#4 0#6)
  | .getReg reg => .cmdw (commandWord 0x6#4 reg)
  | .setReg reg => .cmdw (commandWord 0x7#4 reg)
  | .peek => .cmdw (commandWord 0x8#4 0#6)
  | .peekMany => .cmdw (commandWord 0x9#4 0#6)
  | .poke => .cmdw (commandWord 0xA#4 0#6)
  | .pokeMany => .cmdw (commandWord 0xB#4 0#6)
  | .disconnect => .cmdw (commandWord 0xC#4 0#6)
  | .reservedD => .cmdw (commandWord 0xD#4 0#6)
  | .reservedE => .cmdw (commandWord 0xE#4 0#6)
  | .reservedF => .cmdw (commandWord 0xF#4 0#6)
  | .reqDp0W => .req8 0x81#8
  | .reqDp4W => .req8 0xA9#8
  | .reqDp8W => .req8 0xB1#8
  | .reqDpCW => .req8 0x99#8
  | .reqDp0R => .req8 0xA5#8
  | .reqDp4R => .req8 0x8D#8
  | .reqDp8R => .req8 0x95#8
  | .reqDpCR => .req8 0xBD#8
  | .reqAp0W => .req8 0xA3#8
  | .reqAp4W => .req8 0x8B#8
  | .reqAp8W => .req8 0x93#8
  | .reqApCW => .req8 0xBB#8
  | .reqAp0R => .req8 0x87#8
  | .reqAp4R => .req8 0xAF#8
  | .reqAp8R => .req8 0xB7#8
  | .reqApCR => .req8 0x9F#8
  | .req p a r s => .req8 (frameWord p a r s)
  | .ackOk => .ack3 1#3
  | .ackWait => .ack3 2#3
  | .ackFault => .ack3 4#3
  | .ackInvalid0 => .ack3 0#3
  | .ackInvalid3 => .ack3 3#3
  | .ackInvalid5 => .ack3 5#3
  | .ackInvalid6 => .ack3 6#3
  | .ackInvalid7 => .ack3 7#3

/-- A word of spec/opcode_table.json as the decoder takes it: the table's rows of 8 bits or fewer are the
wire formats (an ACK is a number below 8, a frame always has its park bit set, so the two never meet), its
32-bit rows are command words. -/
def tableCode (nbits w : Nat) : Option Code :=
  if nbits ≤ 8 then
    if w < 8 then some (.ack3 (BitVec.ofNat 3 w))
    else if w < 256 then some (.req8 (BitVec.ofNat 8 w))
    else none
  else if w < 2 ^ 32 then some (.cmdw (BitVec.ofNat 32 w))
  else none

/-- The instruction the decoder reads from a word of the opcode table. -/
def decodeTableWord (nbits w : Nat) : Option Instr :=
  match tableCode nbits w with
  | none => none
  | some c =>
    match decode c with
    | .ok i => some i
    | .error _ => none

end Sys2Proof
end

