-- ==== Sys2Proof/Machine/Request.lean ====
section
/-! DEFINITION. The request frames (30 R81 to R83): phase REQ of a transaction (42 R179). Executing a frame sends
it (42 R165) and moves the sequencer on to what follows the request (log 17). -/

namespace Sys2Proof.Machine

/-- Where the sequencer stands after the request (42 R179): TRN1 of the transaction, or the next statement of
SELECT_TARGET. At a position that is no request position nothing follows and the position stays. -/
def afterRequest : Pos → Pos
  | .xfer k .req => .xfer k .trn1
  | .frame k => .stmt (k + 1)
  | p => p

/-- Phase REQ: the frame is sent. -/
def sendRequest (f : Byte) (s : State) : Out :=
  .next { sendFrame f s with seq.pos := afterRequest s.seq.pos }

def execReqDp0W (s : State) : Out := sendRequest 0x81#8 s
def execReqDp4W (s : State) : Out := sendRequest 0xA9#8 s
def execReqDp8W (s : State) : Out := sendRequest 0xB1#8 s
def execReqDpCW (s : State) : Out := sendRequest 0x99#8 s
def execReqDp0R (s : State) : Out := sendRequest 0xA5#8 s
def execReqDp4R (s : State) : Out := sendRequest 0x8D#8 s
def execReqDp8R (s : State) : Out := sendRequest 0x95#8 s
def execReqDpCR (s : State) : Out := sendRequest 0xBD#8 s
def execReqAp0W (s : State) : Out := sendRequest 0xA3#8 s
def execReqAp4W (s : State) : Out := sendRequest 0x8B#8 s
def execReqAp8W (s : State) : Out := sendRequest 0x93#8 s
def execReqApCW (s : State) : Out := sendRequest 0xBB#8 s
def execReqAp0R (s : State) : Out := sendRequest 0x87#8 s
def execReqAp4R (s : State) : Out := sendRequest 0xAF#8 s
def execReqAp8R (s : State) : Out := sendRequest 0xB7#8 s
def execReqApCR (s : State) : Out := sendRequest 0x9F#8 s

/-- The generic frame row: the frame of its four fields. `write` sends whatever word it is given (40 R122), so a
frame with a wrong parity bit is sent as it is; no command makes one (30 R94; log 16). -/
def execReq (p : BitVec 1) (a : BitVec 2) (r x : BitVec 1) (s : State) : Out :=
  sendRequest (frameWord p a r x) s

end Sys2Proof.Machine
end

