-- ==== Sys2Proof/Machine/Reserved.lean ====
section
/-! DEFINITION. The reserved opcodes (30 R97): a command word with one is REFUSED. -/

namespace Sys2Proof.Machine

/-- A reserved opcode, refused by test (1) of 60 R226. None of the three has a value result. -/
def reservedCommand : Command := refusedWord false

def execReservedD (s : State) : Out := runCommand reservedCommand s
def execReservedE (s : State) : Out := runCommand reservedCommand s
def execReservedF (s : State) : Out := runCommand reservedCommand s

end Sys2Proof.Machine
end

