-- ==== Sys2Proof/Machine/Dispatch.lean ====
section
/-! DEFINITION. What each instruction does: one arm for each constructor of Instr. -/

namespace Sys2Proof.Machine

def exec (i : Instr) (s : State) : Host.Outcome State Fault Refusal :=
  match i with
  -- host commands (30 R96)
  | .init => Sys2Proof.Machine.execInit s
  | .reset => Sys2Proof.Machine.execReset s
  | .selectTarget => Sys2Proof.Machine.execSelectTarget s
  | .readIdcode => Sys2Proof.Machine.execReadIdcode s
  | .setupMem => Sys2Proof.Machine.execSetupMem s
  | .noop => Sys2Proof.Machine.execNoop s
  | .getReg reg => Sys2Proof.Machine.execGetReg reg s
  | .setReg reg => Sys2Proof.Machine.execSetReg reg s
  | .peek => Sys2Proof.Machine.execPeek s
  | .peekMany => Sys2Proof.Machine.execPeekMany s
  | .poke => Sys2Proof.Machine.execPoke s
  | .pokeMany => Sys2Proof.Machine.execPokeMany s
  | .disconnect => Sys2Proof.Machine.execDisconnect s
  -- reserved opcodes (30 R97)
  | .reservedD => Sys2Proof.Machine.execReservedD s
  | .reservedE => Sys2Proof.Machine.execReservedE s
  | .reservedF => Sys2Proof.Machine.execReservedF s
  -- request frames (30 R83)
  | .reqDp0W => Sys2Proof.Machine.execReqDp0W s
  | .reqDp4W => Sys2Proof.Machine.execReqDp4W s
  | .reqDp8W => Sys2Proof.Machine.execReqDp8W s
  | .reqDpCW => Sys2Proof.Machine.execReqDpCW s
  | .reqDp0R => Sys2Proof.Machine.execReqDp0R s
  | .reqDp4R => Sys2Proof.Machine.execReqDp4R s
  | .reqDp8R => Sys2Proof.Machine.execReqDp8R s
  | .reqDpCR => Sys2Proof.Machine.execReqDpCR s
  | .reqAp0W => Sys2Proof.Machine.execReqAp0W s
  | .reqAp4W => Sys2Proof.Machine.execReqAp4W s
  | .reqAp8W => Sys2Proof.Machine.execReqAp8W s
  | .reqApCW => Sys2Proof.Machine.execReqApCW s
  | .reqAp0R => Sys2Proof.Machine.execReqAp0R s
  | .reqAp4R => Sys2Proof.Machine.execReqAp4R s
  | .reqAp8R => Sys2Proof.Machine.execReqAp8R s
  | .reqApCR => Sys2Proof.Machine.execReqApCR s
  | .req p a r x => Sys2Proof.Machine.execReq p a r x s
  -- ACK values (30 R84)
  | .ackOk => Sys2Proof.Machine.execAckOk s
  | .ackWait => Sys2Proof.Machine.execAckWait s
  | .ackFault => Sys2Proof.Machine.execAckFault s
  | .ackInvalid0 => Sys2Proof.Machine.execAckInvalid0 s
  | .ackInvalid3 => Sys2Proof.Machine.execAckInvalid3 s
  | .ackInvalid5 => Sys2Proof.Machine.execAckInvalid5 s
  | .ackInvalid6 => Sys2Proof.Machine.execAckInvalid6 s
  | .ackInvalid7 => Sys2Proof.Machine.execAckInvalid7 s

end Sys2Proof.Machine
end

