-- ==== Sys2Proof/Machine/Sequencer.lean ====
section
/-! DEFINITION. The sequencer, one position at a time (10 R36, 41 R144, 42 R179): what a running command does next
after the bare event `start`. Two positions are not here, because what they do is an instruction of the opcode
table: a request position runs the frame in the shift register, and the classification runs the ACK in S.ack
(Machine/Step.lean). -/

namespace Sys2Proof.Machine

/-- The command of an instruction; the wire formats name none. -/
def commandSpec : Instr → Option Command
  | .init => some initCommand
  | .reset => some resetCommand
  | .selectTarget => some selectTargetCommand
  | .readIdcode => some readIdcodeCommand
  | .setupMem => some setupMemCommand
  | .noop => some noopCommand
  | .getReg reg => some (getRegCommand reg)
  | .setReg reg => some (setRegCommand reg)
  | .peek => some peekCommand
  | .peekMany => some peekManyCommand
  | .poke => some pokeCommand
  | .pokeMany => some pokeManyCommand
  | .disconnect => some disconnectCommand
  | .reservedD => some reservedCommand
  | .reservedE => some reservedCommand
  | .reservedF => some reservedCommand
  | .reqDp0W | .reqDp4W | .reqDp8W | .reqDpCW | .reqDp0R | .reqDp4R | .reqDp8R | .reqDpCR
  | .reqAp0W | .reqAp4W | .reqAp8W | .reqApCW | .reqAp0R | .reqAp4R | .reqAp8R | .reqApCR
  | .req _ _ _ _
  | .ackOk | .ackWait | .ackFault | .ackInvalid0 | .ackInvalid3 | .ackInvalid5 | .ackInvalid6 | .ackInvalid7 =>
    none

/-- Whether the command a word names has a value result in x[RESULT] (10 R32, 60 R226), by its opcode field. -/
def valuedWord (w : Word) : Bool :=
  match commandSpec (commandOf w) with
  | some c => c.valued
  | none => false

/-- The command a command word starts; a word that decodes to none is refused (30 R97). -/
def commandOfWord (w : Word) : Command :=
  match decodeCommand w with
  | .ok i => (commandSpec i).getD (refusedWord false)
  | .error _ => refusedWord (valuedWord w)

/-- The running command: the one whose word was latched at `start`. -/
def State.running (s : State) : Command := commandOfWord s.latch.cmdw

/-- A request frame is loaded into the shift register, to be sent next. -/
def loadFrame (f : Byte) (s : State) : State :=
  { s with seq.shift := f.setWidth 32, seq.bit := 0 }

/-- An attempt of the access at statement k begins: phase REQ (42 R170, R179). -/
def beginAttempt (k : Nat) (a : Access) (s : State) : State :=
  { loadFrame (req a.reg a.rnw) s with seq.attempt := s.seq.attempt + 1, seq.pos := .xfer k .req }

/-- Going to statement k of the running command; past the last one the command succeeds (43 R190). -/
def enter (c : Command) (k : Nat) (s : State) : State :=
  match (c.program s)[k]? with
  | none => endCommand c.valued .ok s
  | some (.access a) => beginAttempt k a { a.begin s with seq.attempt := 0 }
  | some (.frame f) => { loadFrame f s with seq.pos := .frame k }
  | some _ => { s with seq.pos := .stmt k }

/-- The end of a transaction (42 R170, R179, 60 R227): WAIT goes round again or is STALLED; OK goes on to the next
statement; FAULT and PROTOCOL_ERROR end the command. -/
def settle (c : Command) (k : Nat) (a : Access) (st : Status) (v : Word) (s : State) : State :=
  if st = .wait then
    if s.seq.attempt < Config.waitRetryBound then beginAttempt k a s
    else endCommand c.valued .stalled (a.spoil { s with port.diagStalled := true })
  else if st = .ok then enter c (k + 1) (a.store v s)
  else endCommand c.valued st (a.spoil s)

/-- One phase of a transaction (42 R179), but for the two that are instructions. -/
def phaseStep (c : Command) (k : Nat) (a : Access) (ph : Phase) (s : State) : State :=
  match ph with
  | .req => s
  | .trn1 => { turn .input s with seq.pos := .xfer k .ack }
  | .ack => { readAck s with seq.pos := .xfer k (.decode a.rnw) }
  | .decode _ => s
  | .trn2 st =>
    if st = .ok then { takeLine s with seq.pos := .xfer k .wdata }
    else settle c k a st Config.sentinel (takeLine s)
  | .wdata => { sendWord (a.value.getD Config.sentinel) s with seq.pos := .xfer k .wpar }
  | .wpar => settle c k a .ok Config.sentinel (sendParity (a.value.getD Config.sentinel) s)
  | .rdata => { read 32 s with seq.pos := .xfer k (.rpar (read 32 s).seq.shift) }
  | .rpar data => { read 1 s with seq.pos := .xfer k (.trn2Check data ((read 1 s).seq.shift.getLsbD 0)) }
  | .trn2Check data par =>
    if checkRead data par = .ok then settle c k a .ok data (takeLine s)
    else settle c k a .protocolError Config.sentinel (takeLine s)

/-- One position of the running command. A position that does not fit the running command is one no run reaches;
nothing happens there (log 27). -/
def advance (s : State) : State :=
  match s.seq.pos with
  | .idle => s
  | .frame _ => s
  | .stmt k =>
    match (s.running.program s)[k]? with
    | none => endCommand s.running.valued .ok s
    | some (.access _) => s
    | some m => enter s.running (k + 1) (m.plain s)
  | .xfer k ph =>
    match (s.running.program s)[k]? with
    | some (.access a) => phaseStep s.running k a ph s
    | _ => s

/-- The event `start` (10 R33): ignored while BUSY; else the operands are latched, the refusal tests made (60
R226), and the sequencer goes to the first statement. -/
def startCommand (c : Command) (s : State) : State :=
  if s.port.busy then s
  else
    match c.refusal s.latchOperands with
    | some _ => refuseCommand c.valued s
    | none => enter c 0 s.latchOperands

end Sys2Proof.Machine
end

