-- ==== Sys2Proof/Machine/Step.lean ====
section
/-! DEFINITION. One step of the machine: the host's next move, or one position of the running command. -/

namespace Sys2Proof.Machine

/-- The instruction the sequencer is about to execute, if it stands where one is: the frame in the shift register
at a request position, the ACK in S.ack at the classification (log 17). -/
def wireCode (s : State) : Option Code :=
  match s.seq.pos with
  | .xfer _ .req => some (.req8 (s.seq.shift.setWidth 8))
  | .frame _ => some (.req8 (s.seq.shift.setWidth 8))
  | .xfer _ (.decode _) => some (.ack3 s.seq.ack)
  | _ => none

/-- One position of the running command. -/
def engineStep (s : State) : Out :=
  match wireCode s with
  | none => .next (advance s)
  | some c =>
    match decode c with
    | .ok i => exec i s
    | .error _ => .fault .frameNotProducible

/-- The blocking call: the command word in x[CMDW] is decoded and run to its end (30 R96, R97). -/
def callCommand (s : State) : Out :=
  match decode (.cmdw s.port.cmdw) with
  | .ok i => exec i s
  | .error _ => runCommand (commandOfWord s.port.cmdw) s

/-- Power-on reset (70 R250). Everything observed before it is forgotten; the inputs still to come, and the count
of free values drawn, are not the engine's and stay (log 23). -/
def powerOn (s : State) : State :=
  { State.reset with env := { Env.atReset with samples := s.env.samples, fresh := s.env.fresh, inputs := s.env.inputs } }

/-- One move of the host (60 R236). -/
def hostMove (m : HostMove) (s : State) : Out :=
  match m with
  | .wait => if s.port.busy then engineStep s else .next s
  | .run => callCommand s
  | .start => .next (startCommand (commandOfWord s.port.cmdw) s)
  | .writeCmdw w => if s.port.busy then .fault .cmdwWrittenWhileBusy else .next { s with port.cmdw := w }
  | .writeArgAddr w => .next { s with port.argAddr := w }
  | .writeArgData w => .next { s with port.argData := w }
  | .writeArgCount n => .next { s with port.argCount := n }
  | .writeBuf i w =>
    if s.port.busy then .fault .bufWrittenWhileBusy
    else if i < Config.bufDepth then .next (s.setBuf i w)
    else .fault .bufIndexBeyondDepth
  | .clearDiag => .next { s with port.diagStalled := false }

/-- One step: the next input, a move of the host or the power coming on; with none to come, a running command goes on and
an idle engine waits (42 R183: "each ends and the engine waits for the next start"). -/
def step (s : State) : Host.Outcome State Fault Refusal :=
  match s.env.inputs with
  | [] => if s.port.busy then engineStep s else .next s
  | .host m :: rest => hostMove m { s with env.inputs := rest }
  | .powerOn :: rest => .next (powerOn { s with env.inputs := rest })

/-- The state in which the very next step fetches and runs the instruction whose word is w: a command word stands in
x[CMDW] and the host's next move is the blocking call; a frame stands in the shift register, at the request
position of a GET_REG or SET_REG of its register, in a session; an ACK stands in S.ack, at the classification of
READ_IDCODE's access, in a session. Log 11. -/
def State.withFetchWord (s : State) (nbits w : Nat) : State :=
  match tableCode nbits w with
  | none => s
  | some (.cmdw c) =>
    { s with port.cmdw := c, port.busy := false, seq.pos := .idle, env.inputs := .host .run :: s.env.inputs }
  | some (.req8 f) =>
    { s with
      pins := { s.pins with bound := true, dir := .output, dio := false, clk := true, clkDir := .output }
      port.busy := true
      port.done := false
      latch.cmdw :=
        commandWord (if f.getLsbD 2 then 0x6#4 else 0x7#4)
          (f.extractLsb' 1 1 ++ 0#1 ++ f.extractLsb' 3 2 ++ 0#2)
      seq.pos := .xfer 0 .req
      seq.attempt := 1
      seq.shift := f.setWidth 32
      seq.bit := 0
      env.inputs := .host .wait :: s.env.inputs }
  | some (.ack3 a) =>
    { s with
      pins := { s.pins with bound := true, dir := .input, dio := false, clk := true, clkDir := .output }
      port.busy := true
      port.done := false
      latch.cmdw := commandWord 0x3#4 0#6
      seq.pos := .xfer 0 (.decode true)
      seq.attempt := 1
      seq.ack := a
      env.inputs := .host .wait :: s.env.inputs }

end Sys2Proof.Machine
end

