-- ==== Sys2Proof/Machine/Observe.lean ====
section
/-! DEFINITION. The observation (00 R6): the two traces in the order of time, the expansion of a primitive into
pin events (40 R121 to R126), ticks (40 R127), and the levels the engine puts on the data line (10 R24). -/

namespace Sys2Proof.Machine

/-- The pin-level trace, oldest event first. -/
def State.pinTrace (s : State) : List PinEvent := s.env.trace.reverse

/-- The primitive calls made, oldest first, the pads included. -/
def State.callsMade (s : State) : List Call := s.env.calls.reverse

/-- The primitive-level trace, oldest call first, without the pads, which are invisible to it (00 R6). -/
def State.callTrace (s : State) : List Call := s.env.calls.reverse.filter (· ≠ .pad)

/-- The pin events of one tick (40 R121). -/
def tickEvents : List PinEvent := [.clk false, .delay .halfPeriod, .clk true, .delay .halfPeriod]

/-- The words that reads with the right parity brought, oldest first (42 R164). -/
def wordsRead : List Call → List Word
  | .read 32 v :: .read 1 b :: cs => if b = levelWord (parity v) then v :: wordsRead cs else wordsRead cs
  | _ :: cs => wordsRead cs
  | [] => []

/-- The n low bits of a word, bit 0 first: their order on the wire (20 R57). -/
def wireOf (w : Word) (n : Nat) : List Bool := (List.range n).map fun i => w.getLsbD i

/-- The expansion of a primitive call into pin events (00 R6, 40 R121 to R126); a call of the collaborator is its
own event (60 R238). -/
def Call.expand : Call → List PinEvent
  | .write w n => ((wireOf w n).flatMap fun b => .dio b :: tickEvents) ++ [.dio false]
  | .read n v => (wireOf v n).flatMap fun b => .sample b :: tickEvents
  | .turn .output => tickEvents ++ [.dir .output]
  | .turn .input => .dir .input :: tickEvents
  | .clock n => (List.replicate n tickEvents).flatten
  | .pad => [.delay .padDelay]
  | .gpio e => [e]

/-- The number of ticks in a list of pin events: every tick takes the clock low once (40 R127). -/
def tickCount (es : List PinEvent) : Nat := es.count (.clk false)

/-- A pin-level trace with delays removed (00 R6). -/
def withoutDelays (es : List PinEvent) : List PinEvent :=
  es.filter fun e => match e with
    | .delay _ => false
    | _ => true

/-- The pin state after a list of pin events (40 R120). -/
def replay (p : Pins) (es : List PinEvent) : Pins := es.foldl (fun p e => e.apply p) p

/-- What the engine puts on the data line at the rising clock edges of a list of events, from pin state p: the latch
S.dio while S.dir = OUT (10 R24), nothing while the line is released. -/
def drivenBits : Pins → List PinEvent → List Bool
  | _, [] => []
  | p, .clk true :: es => if p.dir = .output then p.dio :: drivenBits { p with clk := true } es else drivenBits { p with clk := true } es
  | p, e :: es => drivenBits (e.apply p) es

/-- The ownership rule of the line (40 R120, R128) over a list of events, from direction d: a SAMPLE only while the
line is released, a DIO only while it is owned. -/
def ownsLine : Dir → List PinEvent → Bool
  | _, [] => true
  | _, .dir d :: es => ownsLine d es
  | d, .sample _ :: es => d == .input && ownsLine d es
  | d, .dio _ :: es => d == .output && ownsLine d es
  | d, _ :: es => ownsLine d es

/-- The first n answers of the data line: from the script, then free values (40 R120). -/
def Env.answers (e : Env) (n : Nat) : List Bool :=
  e.samples.take n ++ (List.range (n - e.samples.length)).map fun i => Config.freeSample (e.fresh + i)

/-- The value that `read` assembles from samples, the first in bit 0 (40 R123), from bit i on. -/
def assembleFrom (v : Word) : Nat → List Bool → Word
  | _, [] => v
  | i, b :: bs => assembleFrom (placeBit v i b) (i + 1) bs

/-- The value that `read` assembles from samples (40 R123). -/
def assemble (bs : List Bool) : Word := assembleFrom 0#32 0 bs

end Sys2Proof.Machine
end

