-- ==== Sys2Proof/Machine/Peer.lean ====
section
/-! DEFINITION. The environment, as far as the spec describes it: a memory access port at the other end of the line, with
the peer state of 10 R39 to R46. It is no part of the machine's state and constrains none of its steps (10 R38); it is a
condition on an observed run, read off the primitive-level trace: could such a peer have answered so? Where the spec
leaves open what the peer does, the peer forgets: `none` is a content of which nothing is known, and an answer that
would show it may be anything (log 26). -/

namespace Sys2Proof.Machine

/-- The link's condition (10 R39): in the dormant state; up since a RESET or a target selection, the mandatory first read
(42 R177) still to come; ready for accesses. What is answered before it is ready may be anything (93 U7). Log 36. -/
inductive Link where
  | dormant
  | woken
  | ready
  deriving DecidableEq, Repr

/-- Which component answers (10 R40). -/
inductive Target where
  /-- none has been selected since RESET -/
  | unselected
  /-- the one with this identifier (41 R146) -/
  | selected (id : Word)
  /-- nothing is known of that -/
  | unknown
  deriving DecidableEq, Repr

/-- The registers of a component, by their function (20 R54). The target-select register is none of these: its address is
the bus's (`selectsTarget`), since every component must hear it. -/
inductive PeerReg where
  | idcode
  | abort
  | ctrlstat
  | select
  | rdbuff
  | csw
  | tar
  | drw
  | idr
  | other
  deriving DecidableEq, Repr

/-- What is fixed for one component on the bus: a debug port with one memory access port. -/
structure Component where
  /-- which register an address shows under every bank, for a write and for a read; none where the bank decides. Not in the
  source (10 R41, 43 R193, 91 N8), so it is the component's own (log 35) -/
  fixed : RegAddr → Bool → Option PeerReg
  /-- which register it shows under a bank-select word, where the bank decides -/
  banked : Word → RegAddr → Bool → PeerReg
  /-- is the word at this address the last one of a range of the auto-increment? A parameter of the component: the range is
  not in the source (10 R43, 70 R265, 91 N12, 93 U15); log 34 -/
  ends : Word → Bool
  /-- the identification code (42 R177) -/
  idcode : Option Word
  /-- the AP identification register (10 R46) -/
  idr : Option Word
  /-- what CSW reads back as, when this word was last written; its fields are not in the source (10 R42, 91 N9), so it is the
  component's own (log 34) -/
  cswShows : Word → Option Word

/-- The register that an address shows under a bank; none when the bank decides and is not known (70 R253, R259;
log 35). -/
def Component.shown (c : Component) (bank : Option Word) (r : RegAddr) (rnw : Bool) : Option PeerReg :=
  match c.fixed r rnw with
  | some reg => some reg
  | none => bank.map fun b => c.banked b r rnw

/-- The registers and the memory of a component, as far as they are known. -/
structure Regs where
  /-- SELECT, the bank-select register (10 R41) -/
  select : Option Word
  /-- CSW, the transfer-control word (10 R42) -/
  csw : Option Word
  /-- TAR, the transfer address register (10 R43) -/
  tar : Option Word
  /-- RDBUFF, the result of the most recent AP read (10 R44) -/
  posted : Option Word
  /-- the DP control/status register, as last written (10 R45) -/
  ctrlstat : Option Word
  /-- the sticky error flags: is one set? (10 R45) -/
  sticky : Option Bool
  /-- the memory, by word address (20 R55); nothing but the engine's writes changes it (log 39) -/
  mem : Word → Option Word
  /-- a memory write that may not have taken effect yet: address and word (20 R67, log 37) -/
  pending : Option (Word × Word)

/-- Nothing is known of them. -/
def Regs.unknown : Regs := ⟨none, none, none, none, none, none, fun _ => none, none⟩

/-- Nothing is known of the registers; the memory is as it was. -/
def Regs.dazed (g : Regs) : Regs := { Regs.unknown with mem := g.mem, pending := g.pending }

/-- The peer: the bus, with the components on it. -/
structure MemPeer where
  /-- which component answers, by its number: while none is selected (none on a multidrop bus, where the answers then may be
  anything, 93 U7), and when an identifier is (10 R40); a parameter of the bus (log 36) -/
  answers : Option Word → Option Nat
  /-- the components, by number -/
  parts : Nat → Component
  /-- the link's condition (10 R39) -/
  link : Link
  /-- how many of RESET's words have been heard in a row (10 R39: "pattern-matches these sequences") -/
  heard : Nat
  /-- which component is selected (10 R40) -/
  target : Target
  /-- each component's registers and memory; the ones that do not answer keep theirs (70 R252) -/
  regs : Nat → Regs
  /-- the request of the transaction under way: register address, RnW -/
  request : Option (RegAddr × Bool)
  /-- the data word last moved -/
  data : Word

/-- The number of the component that answers (10 R40); none when that is not known. -/
def MemPeer.active (p : MemPeer) : Option Nat :=
  match p.target with
  | .unselected => p.answers none
  | .selected id => p.answers (some id)
  | .unknown => none

/-- The component that answers. -/
def MemPeer.component (p : MemPeer) : Option Component := p.active.map p.parts

/-- The registers and the memory of the component that answers. -/
def MemPeer.now (p : MemPeer) : Regs := (p.active.map p.regs).getD .unknown

/-- The register that an address shows; none when that is not known. -/
def MemPeer.shown (p : MemPeer) (r : RegAddr) (rnw : Bool) : Option PeerReg :=
  p.component.bind (·.shown p.now.select r rnw)

/-- Is it a write of the target-select register (41 R146)? Its address is the role's (20 R54, log 6). -/
def selectsTarget (r : RegAddr) (rnw : Bool) : Bool := r == Params.regTargetsel && !rnw

/-- The frame of an access as the engine sends it. -/
def frameOf (r : RegAddr) (rnw : Bool) : Word := (req r rnw).setWidth 32

/-- The request that an 8-bit word is (30 R81, R83); the eight ones of the wake sequence are none. -/
def requestOf (f : Word) : Option (RegAddr × Bool) :=
  let r : RegAddr := ⟨if f.getLsbD 1 then .ap else .dp, f.extractLsb' 3 2⟩
  if f = frameOf r (f.getLsbD 2) then some (r, f.getLsbD 2) else none

/-- The ten words of RESET (41 R143), as calls. -/
def wakeWords : List Call :=
  [.write Params.lineResetW0 32, .write Params.lineResetW1 32, .write Params.wakeHigh 8,
   .write Params.alert0 32, .write Params.alert1 32, .write Params.alert2 32, .write Params.alert3 32,
   .write Params.activation 16, .write Params.lineResetW0 32, .write Params.lineResetW1 32]

/-! ## A component's registers -/

/-- The pending memory write takes effect. -/
def Regs.settle (g : Regs) : Regs :=
  match g.pending with
  | none => g
  | some (a, v) => { g with mem := fun b => if b = a then some v else g.mem b, pending := none }

/-- Where the next access of the data register goes, when the spec says it: the transfer-control word is the one of
SETUP_MEM (10 R43, 70 R260) and TAR holds a multiple of 4 (20 R59, 93 U14). Log 34. -/
def Regs.address (g : Regs) : Option Word :=
  match g.tar with
  | some a => if g.csw = some Config.cswWord ∧ a.extractLsb' 0 2 = 0#2 then some a else none
  | none => none

/-- TAR after an access at a: the next word, a + 4 (10 R43, 20 R56, R62); what it is after the last word of a range of the
auto-increment is not in the source (93 U15; log 34). -/
def Component.advanced (c : Component) (a : Word) : Option Word := if c.ends a then none else some (a + 4#32)

/-- A write of the data register (10 R43, 20 R56): the word goes to memory, where it may be seen late (20 R67), and TAR
advances; where the address is not said, neither is what becomes of the memory (log 34). -/
def Regs.store (g : Regs) (c : Component) (v : Word) : Regs :=
  match g.address with
  | some a => { g with mem := fun b => if b = a then none else g.mem b, pending := some (a, v), tar := c.advanced a }
  | none => { g with mem := fun _ => none, tar := none }

/-- A read of the data register (10 R43, 20 R56, R58, R62): the word is posted and TAR advances. -/
def Regs.fetch (g : Regs) (c : Component) : Regs :=
  match g.address with
  | some a => { g with posted := g.mem a, tar := c.advanced a }
  | none => { g with posted := none, tar := none }

/-- A write of a register. Words of the abort and control/status registers other than SETUP_MEM's have no effect in the
source (10 R45, 91 N9), nor has a write of a register that is read only: none, nothing is known after these (log 34). -/
def Regs.write (g : Regs) (c : Component) (reg : PeerReg) (v : Word) : Option Regs :=
  match reg with
  | .select => some { g with select := some v }
  | .csw => some { g with csw := some v }
  | .tar => some { g with tar := some v }
  | .drw => some (g.store c v)
  | .abort => if v = Config.abortClearWord then some { g with sticky := some false } else none
  | .ctrlstat =>
    if v = Config.ctrlstatPowerupWord then some { g with ctrlstat := some v, sticky := some false } else none
  | .idcode => none
  | .rdbuff => none
  | .idr => none
  | .other => none

/-- The word that TAR shows: the memory address it holds (10 R43); of one that is not a multiple of 4 the spec says nothing
(20 R59; log 34). -/
def Regs.tarShown (g : Regs) : Option Word := g.tar.filter fun a => a.extractLsb' 0 2 == 0#2

/-- An AP read of a register posts its content (20 R58, R62): of the data register the word at the address. What a read of
another register does to the registers is not said; it changes no memory (log 35). -/
def Regs.read (g : Regs) (c : Component) (reg : PeerReg) : Regs :=
  match reg with
  | .drw => g.fetch c
  | .idr => { g with posted := c.idr }
  | .csw => { g with posted := g.csw.bind c.cswShows }
  | .tar => { g with posted := g.tarShown }
  | .idcode => g.dazed
  | .abort => g.dazed
  | .ctrlstat => g.dazed
  | .select => g.dazed
  | .rdbuff => g.dazed
  | .other => g.dazed

/-- Another component has written memory, which may be shared: nothing is known any more of this one's. Log 36. -/
def Regs.unseen (g : Regs) : Regs := { g with mem := fun _ => none, pending := none }

/-! ### After a failed transaction

What earlier ones did is not rolled back (43 R205, R206, 60 R229); of what this one did to the register it addresses the
spec says nothing (93 U12), so that register is not known. Log 38. -/

/-- The sticky flags after a failed transaction: one is set where the peer answered FAULT (60 R223, 10 R45). -/
def Regs.flagged (g : Regs) (fault : Bool) : Regs := { g with sticky := if fault then some true else none }

/-- A write of the data register may or may not have been made: the word at its address is not known. -/
def Regs.mayStore (g : Regs) : Regs :=
  match g.address with
  | some a => { g with
      mem := fun b => if b = a then none else g.mem b, pending := g.pending.filter (·.1 != a), tar := none }
  | none => { g.unseen with tar := none }

/-- A failed write of a register. One answered FAULT writes no memory (95 V109). Whatever the failure, a write that has
no effect in the source leaves nothing known (log 34), but for the memory after FAULT. -/
def Regs.failedWrite (g : Regs) (reg : PeerReg) (fault : Bool) : Option Regs :=
  match reg with
  | .select => some { g with select := none }
  | .csw => some { g with csw := none }
  | .tar => some { g with tar := none }
  | .drw => some (if fault then { g with tar := none } else g.mayStore)
  | .abort => some g
  | .ctrlstat => some { g with ctrlstat := none }
  | .idcode => if fault then some g.dazed else none
  | .rdbuff => if fault then some g.dazed else none
  | .idr => if fault then some g.dazed else none
  | .other => if fault then some g.dazed else none

/-- A failed AP read of a register: what is posted is not known, nor has TAR surely advanced. -/
def Regs.failedRead (g : Regs) (reg : PeerReg) : Regs :=
  match reg with
  | .drw => { g with posted := none, tar := none }
  | .idr => { g with posted := none }
  | .csw => { g with posted := none }
  | .tar => { g with posted := none }
  | .idcode => g.dazed
  | .abort => g.dazed
  | .ctrlstat => g.dazed
  | .select => g.dazed
  | .rdbuff => g.dazed
  | .other => g.dazed

/-! ## The bus -/

/-- Nothing is known any more of the registers, of the memory, and of which component answers: after a write to which the
spec gives no effect. RESET or a target selection says again which one answers. Log 38. -/
def MemPeer.forget (p : MemPeer) : MemPeer := { p with target := .unknown, regs := fun _ => .unknown }

/-- The same but for the memory: after a transaction that writes none. Log 38. -/
def MemPeer.daze (p : MemPeer) : MemPeer := { p with target := .unknown, regs := fun k => (p.regs k).dazed }

/-- The pending memory write of the component that answers takes effect. -/
def MemPeer.settle (p : MemPeer) : MemPeer :=
  { p with regs := fun k => if p.active = some k then (p.regs k).settle else p.regs k }

/-- The link comes up: no AP read has been made since (20 R58), the mandatory first read is due (42 R177), and every
component keeps its registers and memory: over RESET the memory, the access port's registers and the sticky flags by 70 R252,
SELECT and CTRL/STAT by the model's choice; over a target selection all by the model's choice. Log 36. -/
def MemPeer.relink (p : MemPeer) (t : Target) : MemPeer :=
  { p with link := .woken, target := t, regs := fun k => { p.regs k with posted := none } }

/-- RESET has been heard: no target is selected. -/
def MemPeer.wake (p : MemPeer) : MemPeer := p.relink .unselected

/-- The peer hears one more primitive, which may be the last of RESET's ten words in a row, and then the link comes up, by the
model's choice (91 N14; log 36). DISCONNECT and INIT make no primitive, so the peer hears neither: that a ready link stays
ready over them is the model's choice (log 40). -/
def MemPeer.hear (p : MemPeer) (c : Call) : MemPeer :=
  match c with
  | .pad => p
  | c =>
    if wakeWords[p.heard]? = some c then
      if p.heard + 1 = wakeWords.length then { p.wake with heard := 0, request := none }
      else { p with heard := p.heard + 1 }
    else { p with heard := if wakeWords[0]? = some c then 1 else 0 }

/-- A register of component k has been written or read: what it then holds, if that is known. -/
def MemPeer.put (p : MemPeer) (k : Nat) (g : Option Regs) : MemPeer :=
  match g with
  | some g => { p with regs := fun j => if j = k then g else p.regs j }
  | none => p.forget

/-- Component k has written memory, if the register is its data register. -/
def MemPeer.stir (p : MemPeer) (k : Nat) (reg : PeerReg) : MemPeer :=
  if reg = .drw then { p with regs := fun j => if j = k then p.regs j else (p.regs j).unseen } else p

/-- What a failed transaction did to the components. Where it is not known which register of which component it addressed,
no register is, and after a write not answered FAULT no memory either. A DP read has no effect (20 R58) but on the flags.
Log 38. A FAULT may report that the memory read behind an earlier read of the data register failed (43 R196); that the word so
posted, and TAR past it, stay known all the same is the model's choice (log 44). -/
def MemPeer.spoiled (p : MemPeer) (r : RegAddr) (rnw fault : Bool) : MemPeer :=
  if p.link = .ready then
    match rnw, r.sel, p.active, p.shown r rnw with
    | true, .dp, some k, _ => p.put k (some ((p.regs k).flagged fault))
    | true, .ap, some k, some reg => p.put k (some (((p.regs k).failedRead reg).flagged fault))
    | true, _, _, _ => p.daze
    | false, _, some k, some reg =>
      (if fault then p else p.stir k reg).put k (((p.regs k).failedWrite reg fault).map (·.flagged fault))
    | false, _, _, _ => if fault then p.daze else p.forget
  else if rnw || fault then p.daze else p.forget

/-- A transaction has failed: with FAULT, or with an invalid ACK or a wrong parity bit in a read, after which the peer may be
out of step, and nothing is known of its answers until a RESET or a target selection (70 R256). Log 38. A FAULT may report
the error of an earlier memory write (43 R203, 42 R173, 91 N13); that such a write, acknowledged OK, is in memory all the
same is the model's choice (log 42). -/
def MemPeer.failed (p : MemPeer) (r : RegAddr) (rnw fault : Bool) : MemPeer :=
  if fault then p.spoiled r rnw true else { p.spoiled r rnw false with target := .unknown }

/-- The ACK of the transaction under way (20 R62, 93 U12). OK goes on; WAIT has no effect; after FAULT or an invalid ACK it
has failed. A write of the target-select register may go on whatever the ACK (41 R146); until then it is not known which
component answers (log 38). -/
def MemPeer.acked (p : MemPeer) (a : Word) : MemPeer :=
  match p.request with
  | none => p
  | some (r, rnw) =>
    if a = 1#32 then p
    else if selectsTarget r rnw then if a = 2#32 then p else { p with target := .unknown }
    else { (if a = 2#32 then p else p.failed r rnw (a == 4#32)) with request := none }

/-- A write transaction with the right parity has ended. Writing the target-select register chooses which component
answers from now on (10 R40; log 36), on a ready link too, with no RESET since: 41 R147 does not say what happens then, and
that it reselects is the model's choice (log 41). An earlier memory write has taken effect by now (20 R67, log 37). -/
def MemPeer.written (p : MemPeer) (r : RegAddr) : MemPeer :=
  if p.link = .dormant then p.forget
  else if selectsTarget r false then p.relink (.selected p.data)
  else if p.link = .ready then
    match p.active, p.shown r false with
    | some k, some reg => (p.stir k reg).put k ((p.regs k).settle.write (p.parts k) reg p.data)
    | _, _ => p.forget
  else p.forget

/-- What a read of the address carries, where that is known (20 R58): the posted value for an AP read and for RDBUFF, the
component's code for the identification register; what another DP register holds is not said. -/
def MemPeer.carries (p : MemPeer) (r : RegAddr) : Option Word :=
  if p.link = .ready ∧ (r.sel = .ap ∨ p.shown r true = some .rdbuff) then p.now.posted
  else if p.link ≠ .dormant ∧ r.sel = .dp ∧ p.shown r true = some .idcode then p.component.bind (·.idcode)
  else none

/-- Could the peer have sent v? -/
def MemPeer.sends (p : MemPeer) (r : RegAddr) (v : Word) : Bool := (p.carries r).all (v == ·)

/-- A read transaction with the right parity has ended. A DP read posts nothing (20 R58); that one of a register without a role
leaves the registers as they were is the model's choice (log 43). Reading the identification code
makes a woken link ready (42 R177). An earlier memory write has taken effect by now (20 R67, log 37). A read writes no
memory. -/
def MemPeer.delivered (p : MemPeer) (r : RegAddr) : MemPeer :=
  if p.link = .ready then
    match r.sel, p.active, p.shown r true with
    | .dp, _, _ => p.settle
    | .ap, some k, some reg => p.put k (some ((p.regs k).settle.read (p.parts k) reg))
    | .ap, _, _ => p.daze
  else if p.link = .woken ∧ r.sel = .dp ∧ p.shown r true = some .idcode then { p with link := .ready }
  else p.daze

/-- What a primitive call of the engine does to the transaction under way: none when the peer could not have answered so.
A read whose parity bit is wrong has failed, and the word it brought may be anything (93 U12, log 38); ticks without
framing let a memory write finish (20 R66, R67). Only the engine's own writes change the peer's memory: that the peer's
processor, or another agent at its side, writes none of it in between is the model's choice (log 39), which 20 R68 does
not give. -/
def MemPeer.act (p : MemPeer) (c : Call) : Option MemPeer :=
  match c, p.request with
  | .write f 8, _ => some { p with request := requestOf f }
  | .write v 32, _ => some { p with data := v }
  | .read 32 v, some (_, true) => some { p with data := v }
  | .write b 1, some (r, false) =>
    some { (if b = levelWord (parity p.data) then p.written r else p.forget) with request := none }
  | .read 3 a, _ => some (p.acked a)
  | .read 1 b, some (r, true) =>
    if b = levelWord (parity p.data) then
      if p.sends r p.data then some { p.delivered r with request := none } else none
    else some { p.failed r true false with request := none }
  | .clock _, _ => some p.settle
  | _, _ => some p

/-- The peer at one primitive call of the engine. -/
def MemPeer.see (p : MemPeer) (c : Call) : Option MemPeer := (p.hear c).act c

/-- The peer over a list of calls, oldest first. -/
def MemPeer.follow (p : MemPeer) : List Call → Option MemPeer
  | [] => some p
  | c :: cs =>
    match p.see c with
    | some p => p.follow cs
    | none => none

end Sys2Proof.Machine
end

