-- ==== Sys2Proof/Safety.lean ====
section
/-! DEFINITION. What counts as a good state and a good run, in the terms the claims use: the idle state of 10 R27, the
invariant of the machine, the answers of a peer, and the ends a command can come to. -/

namespace Sys2Proof.Safety

open Sys2Proof.Machine

/-! ## The idle state -/

/-- The part of the pin state that 10 R27 speaks of. -/
structure Line where
  bound : Bool
  dir : Dir
  dio : Bool
  clk : Bool
  clkDir : Dir
  pullUp : Bool
  deriving DecidableEq, Repr

def lineOf (p : Pins) : Line := ⟨p.bound, p.dir, p.dio, p.clk, p.clkDir, p.pullUp⟩

/-- The idle state in a session (10 R27). -/
def idleLine : Line := ⟨true, .output, false, true, .output, true⟩

/-- In a session the pins are idle (10 R27). -/
def IdleInSession (p : Pins) : Prop := p.bound = true → lineOf p = idleLine

/-! ## The ends of a command -/

/-- What x[STATUS] can hold when no command runs (30 R98): NONE or a terminal status, never WAIT. -/
def terminalCodes : List (BitVec 6) :=
  [statusNone, Status.code .ok, Status.code .fault, Status.code .protocolError, Status.code .stalled,
   Status.code .refused]

/-- A command has ended with status st (10 R33, R34). -/
def EndedWith (st : Status) (t : State) : Prop :=
  t.port.busy = false ∧ t.port.done = true ∧ t.port.status = st.code ∧ t.port.success = st.isOk ∧ t.seq.pos = .idle

/-- The host can start a command, and a session exists. -/
def InSession (s : State) : Prop :=
  s.port.busy = false ∧ s.seq.pos = .idle ∧ lineOf s.pins = idleLine


/-! ## Answers of a peer -/

/-- The three samples of an ACK (30 R84: the first sampled bit is ack[0]). -/
def ackAnswer (a : BitVec 3) : List Bool := wireOf (a.setWidth 32) 3

/-- A peer that answers WAIT k times (42 R171). -/
def waitAnswers (k : Nat) : List Bool := (List.replicate k (ackAnswer 2#3)).flatten

/-- A peer that answers a write with OK. -/
def okWrite : List Bool := ackAnswer 1#3

/-- A peer that answers a read with OK, data d and a parity bit p (30 R85). -/
def readAnswer (d : Word) (p : Bool) : List Bool := ackAnswer 1#3 ++ wireOf d 32 ++ [p]

/-- A peer that answers a read with OK, data d and the right parity. -/
def okRead (d : Word) : List Bool := readAnswer d (parity d)

/-! ## What a command that ended reports, and where it leaves the pins -/

/-- The port of a command that ended with status st, but for a value result and BUF (10 R33, R34). -/
def reported (st : Status) (p : Port) : Port :=
  { p with status := st.code, success := st.isOk, busy := false, done := true }

/-- The pins after transactions: the line taken back and low, the clock high (42 R166, R167). -/
def restored (p : Pins) : Pins := { p with dir := .output, dio := false, clk := true }

/-- The calls of a transaction that ends after its ACK (42 R165 to R167). -/
def endedCalls (r : RegAddr) (rnw : Bool) (a : BitVec 3) : List Call :=
  [.pad, .write (frameOf r rnw) 8, .pad, .turn .input, .read 3 (a.setWidth 32), .turn .output, .pad]

/-- The calls of a write transaction with an OK ACK (42 R166). -/
def writeOkCalls (r : RegAddr) (v : Word) : List Call :=
  endedCalls r false 1#3 ++ [.write v 32, .pad, .write (levelWord (parity v)) 1, .pad]

/-- The calls of a read transaction with an OK ACK, data d and parity bit p (42 R167). -/
def readCallsOf (r : RegAddr) (d : Word) (p : Bool) : List Call :=
  [.pad, .write (frameOf r true) 8, .pad, .turn .input, .read 3 1#32, .read 32 d, .read 1 (levelWord p), .turn .output,
   .pad]

/-- The calls of a read transaction with an OK ACK and the right parity. -/
def readOkCalls (r : RegAddr) (d : Word) : List Call := readCallsOf r d (parity d)

/-- The calls of k attempts that were answered WAIT. -/
def waitCalls (r : RegAddr) (rnw : Bool) (k : Nat) : List Call :=
  (List.replicate k (endedCalls r rnw 2#3)).flatten

/-! ## Accesses and how they are answered -/

/-- An access as it is made and answered when it ends OK (42 R170, R171): its register, the value of a write (none for a
read), how often it is answered WAIT first, and the data of a read. -/
structure Exchange where
  reg : RegAddr
  value : Option Word
  waits : Nat
  data : Word
  deriving DecidableEq, Repr

/-- Which access it is. -/
def Exchange.access (e : Exchange) : RegAddr × Option Word := (e.reg, e.value)

/-- The peer's answers. -/
def Exchange.answers (e : Exchange) : List Bool :=
  waitAnswers e.waits ++ match e.value with
    | some _ => okWrite
    | none => okRead e.data

/-- The calls the engine makes. -/
def Exchange.calls (e : Exchange) : List Call :=
  waitCalls e.reg e.value.isNone e.waits ++ match e.value with
    | some v => writeOkCalls e.reg v
    | none => readOkCalls e.reg e.data

/-- Its ticks (70 R268). -/
def Exchange.ticks (e : Exchange) : Nat := 13 * e.waits + 46

/-- The peer answers a list of accesses OK, each after fewer WAITs than the bound, and then `rest` follows. -/
def AnswersOk (es : List Exchange) (bs rest : List Bool) : Prop :=
  bs = es.flatMap Exchange.answers ++ rest ∧ ∀ e ∈ es, e.waits < Config.waitRetryBound

/-- How an access fails (60 R221): WAIT on every attempt; after k WAITs an ACK that is neither OK nor WAIT; on a read,
after k WAITs, data d with the wrong parity bit. -/
inductive Failure where
  | stalled
  | badAck (k : Nat) (a : BitVec 3)
  | badParity (k : Nat) (d : Word)
  deriving DecidableEq, Repr

/-- Can the access of a value (none for a read) fail so? -/
def Failure.possible (value : Option Word) : Failure → Prop
  | .stalled => True
  | .badAck k a => k < Config.waitRetryBound ∧ a ≠ 1#3 ∧ a ≠ 2#3
  | .badParity k _ => k < Config.waitRetryBound ∧ value = none

def Failure.answers : Failure → List Bool
  | .stalled => waitAnswers Config.waitRetryBound
  | .badAck k a => waitAnswers k ++ ackAnswer a
  | .badParity k d => waitAnswers k ++ readAnswer d (!parity d)

def Failure.calls (r : RegAddr) (value : Option Word) : Failure → List Call
  | .stalled => waitCalls r value.isNone Config.waitRetryBound
  | .badAck k a => waitCalls r value.isNone k ++ endedCalls r value.isNone a
  | .badParity k d => waitCalls r true k ++ readCallsOf r d (!parity d)

def Failure.status : Failure → Status
  | .stalled => .stalled
  | .badAck _ a => if a = 4#3 then .fault else .protocolError
  | .badParity _ _ => .protocolError

def Failure.ticks : Failure → Nat
  | .stalled => 13 * Config.waitRetryBound
  | .badAck k _ => 13 * k + 13
  | .badParity k _ => 13 * k + 46

/-- The accesses of the memory commands, as their rules list them (43 R191, R195, R198, R202, R204), over the operands at
the port; no other instruction has a list here. The register roles are those of log 6. -/
def accessList (p : Port) : Instr → List (RegAddr × Option Word)
  | .setupMem =>
    [(Params.dp0, some Config.abortClearWord), (Params.dp8, some Config.selectIdle),
     (Params.dp4, some Config.ctrlstatPowerupWord), (Params.dp4, none), (Params.dp8, some Config.selectIdr),
     (Params.apC, none), (Params.dpC, none), (Params.dp8, some Config.selectCsw),
     (Params.ap0, some Config.cswWord), (Params.dp8, some Config.selectIdle)]
  | .peek => [(Params.ap4, some p.argAddr), (Params.apC, none), (Params.dpC, none)]
  | .peekMany =>
    (Params.ap4, some p.argAddr) ::
      if p.argCount = 0 then [] else List.replicate p.argCount (Params.apC, none) ++ [(Params.dpC, none)]
  | .poke => [(Params.ap4, some p.argAddr), (Params.apC, some p.argData)]
  | .pokeMany => (Params.ap4, some p.argAddr) :: (p.buf.toList.take p.argCount).map fun w => (Params.apC, some w)
  | _ => []

/-- What the host, the session and the peer see of a command that made the calls cs and took its answers from the
script, leaving `rest`: the operands, the pins' identity and pulls, and the host's moves are as before. -/
structure Made (s t : State) (cs : List Call) (rest : List Bool) : Prop where
  calls : t.callsMade = s.callsMade ++ cs
  samples : t.env.samples = rest
  pins : t.pins = restored s.pins
  host : t.env.inputs = s.env.inputs
  ended : t.seq.pos = .idle

/-! ## The invariant -/

/-- What a statement of a microprogram does to the line (`unbind`, the last statement of DISCONNECT, also frees the
pull, which is not said here: no statement follows it). -/
def lineAfter (m : Micro) (l : Line) : Line :=
  match m with
  | .pad => l
  | .frame _ => { l with dio := false, clk := true }
  | .write _ n => { l with dio := false, clk := l.clk || decide (0 < n) }
  | .readAck => { l with clk := true }
  | .turn d => { l with dir := d, clk := true }
  | .clock n => { l with clk := l.clk || decide (0 < n) }
  | .gpio (.clk b) => { l with clk := b }
  | .gpio (.clkDir d) => { l with clkDir := d }
  | .gpio (.dio b) => { l with dio := b }
  | .gpio (.dir d) => { l with dir := d }
  | .gpio (.pull up _) => { l with pullUp := up }
  | .gpio (.sample _) => l
  | .gpio (.delay _) => l
  | .gpio (.pinInit _) => l
  | .setPins _ _ => l
  | .bind => { l with bound := true }
  | .unbind => { l with bound := false }
  | .access _ => l

/-- The direction of the data line at the beginning of a phase (42 R179, 40 R128). -/
def phaseDir : Phase → Dir
  | .req => .output
  | .trn1 => .output
  | .ack => .input
  | .decode _ => .input
  | .trn2 _ => .input
  | .wdata => .output
  | .wpar => .output
  | .rdata => .input
  | .rpar _ => .input
  | .trn2Check _ _ => .input

/-- A phase that fits an access (42 R179): the write phases are a write's, the read phases a read's; a read whose ACK
is OK does not go to TRN2 without its data. -/
def phaseFits (a : Access) (s : State) : Phase → Prop
  | .req => s.seq.shift = (req a.reg a.rnw).setWidth 32
  | .trn1 => True
  | .ack => True
  | .decode rnw => rnw = a.rnw
  | .trn2 st => st = .ok → a.rnw = false
  | .wdata => a.rnw = false
  | .wpar => a.rnw = false
  | .rdata => a.rnw = true
  | .rpar _ => a.rnw = true
  | .trn2Check _ _ => a.rnw = true

/-- Statement k of the running program is reached with the line that the statements before it leave. -/
def LineAt (s : State) (k : Nat) : Prop :=
  ∃ l : Line, (if s.running.isInit then l.bound = false else l = idleLine) ∧
    lineOf s.pins = ((s.running.program s).take k).foldl (fun l m => lineAfter m l) l

/-- The sequencer of a running command stands at a position of that command. -/
def PositionOk (s : State) : Prop :=
  match s.seq.pos with
  | .idle => False
  | .stmt k =>
    ∃ m, (s.running.program s)[k]? = some m ∧ (∀ a, m ≠ .access a) ∧ (∀ f, m ≠ .frame f) ∧ LineAt s k
  | .frame k =>
    ∃ f, (s.running.program s)[k]? = some (.frame f) ∧ s.seq.shift = f.setWidth 32 ∧ f &&& 0xC1#8 = 0x81#8 ∧
      LineAt s k
  | .xfer k ph =>
    ∃ a, (s.running.program s)[k]? = some (.access a) ∧ phaseFits a s ph ∧
      lineOf s.pins = { idleLine with dir := phaseDir ph } ∧
      1 ≤ s.seq.attempt ∧ s.seq.attempt ≤ Config.waitRetryBound

/-- The invariant of the machine. -/
structure Inv (s : State) : Prop where
  /-- x[STATUS] holds NONE or a terminal status (30 R98) -/
  status : s.port.status ∈ terminalCodes
  /-- x[SUCCESS] is 1 exactly when x[STATUS] is OK (10 R34) -/
  success : s.port.success = (s.port.status == Status.code .ok)
  /-- BUSY and DONE are never both set (10 R33) -/
  doneNotBusy : s.port.done = true → s.port.busy = false
  /-- between commands the sequencer is at rest and the pins of a session are idle (10 R27) -/
  rest : s.port.busy = false → s.seq.pos = .idle ∧ IdleInSession s.pins
  /-- a running command is at one of its positions, with the line as that position has it -/
  position : s.port.busy = true → PositionOk s

end Sys2Proof.Safety
end

