-- ==== Sys2Proof/Certificates/Slice0/Obligations.lean ====
section
/-! DEFINITION. The statements: what the rules of the spec say, about the machine. -/

open Sys2Proof Sys2Proof.Machine Sys2Proof.Safety

/-! ## Encodings -/

/-- Decoding the encoding of a well-formed instruction gives it back (30 R83, R84, R95, R96). -/
def Obligations.DecodeOfEncodeIsTheInstruction : Prop :=
  ∀ i : Instr, wellFormed i = true → decode (encode i) = .ok i

/-- A decoded word is the encoding of its instruction: a request frame or an ACK bit for bit; a command word but for
the REG field of a command that ignores it (30 R28, R95), which the encoder leaves 0 (the model's choice, log 30). -/
def Obligations.EncodeOfDecodeIsTheWord : Prop :=
  (∀ w i, decode (.req8 w) = .ok i → encode i = .req8 w) ∧
  (∀ w i, decode (.ack3 w) = .ok i → encode i = .ack3 w) ∧
  (∀ w i, decode (.cmdw w) = .ok i →
    encode i = .cmdw (if opField w = 6#4 ∨ opField w = 7#4 then w else w &&& 0xF#32))

/-- The decoder gives well-formed instructions only: a register operand is one of the eight of 30 R88, a word of the
generic frame row is none of the sixteen frames (the model's choice for that row, log 16). -/
def Obligations.DecodedInstructionsAreWellFormed : Prop :=
  ∀ c i, decode c = .ok i → wellFormed i = true

/-- Words written out from the spec's tables (30 R83, R84, R95, R96, 95 part 3) decode to their instructions, and
95 V87 to V89's words to what those vectors say. The bit positions of the frames are PRESUMED (log 7, the spec's decision
D7); the layout of the command word, its opcodes and the REG values are the spec's decisions D3, D4 and D6. -/
def Obligations.TableWordsDecode : Prop :=
  decode (.cmdw 0x00000000#32) = .ok .init ∧ decode (.cmdw 0x00000001#32) = .ok .reset ∧
  decode (.cmdw 0x00000046#32) = .ok (.getReg 0x04#6) ∧ decode (.cmdw 0x00000087#32) = .ok (.setReg 0x08#6) ∧
  decode (.cmdw 0x00000004#32) = .ok .setupMem ∧ decode (.cmdw 0x00000009#32) = .ok .peekMany ∧
  decode (.cmdw 0x0000000D#32) = .ok .reservedD ∧
  decode (.cmdw 0x00000405#32) = .error (.reservedBits 0x00000405#32) ∧
  decode (.cmdw 0x00000106#32) = .error (.illegalReg 0x00000106#32) ∧
  decode (.req8 0xA5#8) = .ok .reqDp0R ∧ decode (.req8 0x99#8) = .ok .reqDpCW ∧
  decode (.req8 0x9F#8) = .ok .reqApCR ∧ decode (.req8 0x8B#8) = .ok .reqAp4W ∧
  decode (.ack3 1#3) = .ok .ackOk ∧ decode (.ack3 2#3) = .ok .ackWait ∧ decode (.ack3 4#3) = .ok .ackFault ∧
  decode (.ack3 7#3) = .ok .ackInvalid7

/-- The request frame of every register address and direction (30 R81, R82): start 1, APnDP, RnW, the two address
bits, the parity of those four, stop 0, park 1; it decodes to a frame row of the table, never to the generic one, and
that row's word is the frame. The bit positions are the spec's own decision D7 (log 7). -/
def Obligations.RequestFramesHaveTheirFields : Prop :=
  ∀ (r : RegAddr) (rnw : Bool),
    (req r rnw).getLsbD 0 = true ∧
    (req r rnw).getLsbD 1 = (r.sel == .ap) ∧
    (req r rnw).getLsbD 2 = rnw ∧
    (req r rnw).getLsbD 3 = r.a.getLsbD 0 ∧
    (req r rnw).getLsbD 4 = r.a.getLsbD 1 ∧
    (req r rnw).getLsbD 5 = (((r.sel == .ap) ^^ rnw) ^^ (r.a.getLsbD 0 ^^ r.a.getLsbD 1)) ∧
    (req r rnw).getLsbD 6 = false ∧
    (req r rnw).getLsbD 7 = true ∧
    ∃ i, decode (.req8 (req r rnw)) = .ok i ∧ encode i = .req8 (req r rnw) ∧ ∀ p a x y, i ≠ .req p a x y

/-! ## Pure functions -/

/-- Parity (42 R160): it is the population count modulo 2, with the rule's examples; one flipped bit of the 33 bits of a
data phase makes the read check of 42 R164 fail, two flipped bits do not. -/
def Obligations.ParityDetectsOneFlippedBit : Prop :=
  (∀ (n : Nat) (v : BitVec n), n ≤ 32 → (parity v = true ↔ ((List.range n).filter v.getLsbD).length % 2 = 1)) ∧
  parity 0#32 = false ∧ parity 1#32 = true ∧ parity 0xFFFFFFFF#32 = false ∧ parity 0x80000000#32 = true ∧
  parity 0x12345678#32 = true ∧ parity 0xDEADBEEF#32 = false ∧
  (∀ (d : Word) (p : Bool) (i : Nat), i < 32 → checkRead d p = .ok →
    checkRead (d ^^^ (1#32 <<< i)) p = .protocolError ∧ checkRead d (!p) = .protocolError) ∧
  (∀ (d : Word) (p : Bool) (i j : Nat), i < 32 → j < 32 → i ≠ j → checkRead d p = .ok →
    checkRead (d ^^^ (1#32 <<< i) ^^^ (1#32 <<< j)) p = .ok ∧ checkRead (d ^^^ (1#32 <<< i)) (!p) = .ok)

/-- The ACK decoder (42 R162). -/
def Obligations.AckDecoderIsTotal : Prop :=
  ackStatus 1#3 = .ok ∧ ackStatus 2#3 = .wait ∧ ackStatus 4#3 = .fault ∧
  ∀ a : BitVec 3, a ≠ 1#3 → a ≠ 2#3 → a ≠ 4#3 → ackStatus a = .protocolError

/-! ## Micro-operations -/

/-- `clock(n)` (40 R121): n ticks, each the clock low then high; it ends high when n >= 1, makes no event when n = 0,
and touches nothing else. -/
def Obligations.ClockMakesTicks : Prop :=
  ∀ (n : Nat) (s : State),
    (clock n s).pinTrace =
      s.pinTrace ++ (List.replicate n
        [PinEvent.clk false, .delay .halfPeriod, .clk true, .delay .halfPeriod]).flatten ∧
    (clock n s).pins = (if n = 0 then s.pins else { s.pins with clk := true }) ∧
    tickCount (clock n s).env.trace = tickCount s.env.trace + n ∧
    (clock n s).port = s.port ∧ (clock n s).latch = s.latch ∧ (clock n s).seq = s.seq ∧
    (clock n s).env.samples = s.env.samples ∧ (clock n s).env.inputs = s.env.inputs

/-- `write(word, len)` (40 R122): each of the low `len` bits is put on the line before its tick, bit 0 first, and the
line is low afterwards; the bits the engine drives are those bits. The bit order and the placing of the bit before
the tick are the spec's decision D8. -/
def Obligations.WriteSendsLowBitsFirst : Prop :=
  ∀ (w : Word) (n : Nat) (s : State), n ≤ 32 →
    (write w n s).pinTrace =
      s.pinTrace ++ ((List.range n).flatMap fun i =>
        [PinEvent.dio (w.getLsbD i), .clk false, .delay .halfPeriod, .clk true, .delay .halfPeriod])
        ++ [.dio false] ∧
    (write w n s).pins = { s.pins with dio := false, clk := if n = 0 then s.pins.clk else true } ∧
    tickCount (write w n s).env.trace = tickCount s.env.trace + n ∧
    (s.pins.dir = .output →
      drivenBits s.pins ((write w n s).pinTrace.drop s.pinTrace.length) = (List.range n).map w.getLsbD) ∧
    (write w n s).port = s.port ∧ (write w n s).latch = s.latch ∧
    (write w n s).env.samples = s.env.samples ∧ (write w n s).env.inputs = s.env.inputs

/-- `read(len)` (40 R123): the line is sampled before each tick, the first sample is bit 0 of the value, the bits above
the last sample are 0, and nothing but the clock pin is written. -/
def Obligations.ReadAssemblesLowBitsFirst : Prop :=
  ∀ (bs rest : List Bool) (s : State), bs.length ≤ 32 → s.env.samples = bs ++ rest →
    (∀ j, (read bs.length s).seq.shift.getLsbD j = bs.getD j false) ∧
    (read bs.length s).pinTrace =
      s.pinTrace ++ (bs.flatMap fun b =>
        [PinEvent.sample b, .clk false, .delay .halfPeriod, .clk true, .delay .halfPeriod]) ∧
    (read bs.length s).env.samples = rest ∧
    (read bs.length s).pins = (if bs = [] then s.pins else { s.pins with clk := true }) ∧
    (read bs.length s).port = s.port ∧ (read bs.length s).latch = s.latch ∧
    (read bs.length s).env.inputs = s.env.inputs

/-- `turn(d)` (40 R124, R125): taking the line comes after the tick, releasing it before; it does not look at the
direction first (the spec's decision D10), and the latch keeps its value. -/
def Obligations.TurnaroundOrder : Prop :=
  ∀ s : State,
    (turn .output s).pinTrace =
      s.pinTrace ++ [.clk false, .delay .halfPeriod, .clk true, .delay .halfPeriod, .dir .output] ∧
    (turn .input s).pinTrace =
      s.pinTrace ++ [.dir .input, .clk false, .delay .halfPeriod, .clk true, .delay .halfPeriod] ∧
    (∀ d, (turn d s).pins = { s.pins with dir := d, clk := true } ∧ (turn d s).port = s.port ∧
      (turn d s).latch = s.latch ∧ (turn d s).seq = s.seq ∧ (turn d s).env.samples = s.env.samples)

/-! ## Transactions -/

/-- `xfer_write` (42 R166): request, turnaround, ACK, turnaround; the value and its parity follow exactly when the ACK is
OK. 46 ticks when OK, 13 otherwise, and the line is taken back and low at every return. -/
def Obligations.WriteTransaction : Prop :=
  ∀ (r : RegAddr) (v : Word) (a : BitVec 3) (rest : List Bool) (s : State),
    s.env.samples = ackAnswer a ++ rest →
    (xferWrite r v s).status = ackStatus a ∧
    (xferWrite r v s).state.callsMade =
      s.callsMade ++ (if a = 1#3 then writeOkCalls r v else endedCalls r false a) ∧
    tickCount (xferWrite r v s).state.env.trace =
      tickCount s.env.trace + (if a = 1#3 then 46 else 13) ∧
    (xferWrite r v s).state.pins = restored s.pins ∧
    (xferWrite r v s).state.seq.ack = a ∧
    (xferWrite r v s).state.env.samples = rest ∧
    (xferWrite r v s).state.port = s.port ∧ (xferWrite r v s).state.latch = s.latch ∧
    (xferWrite r v s).state.env.inputs = s.env.inputs ∧
    (xferWrite r v s).state.seq.pos = s.seq.pos ∧ (xferWrite r v s).state.seq.attempt = s.seq.attempt ∧
    (xferWrite r v s).state.seq.idx = s.seq.idx ∧ (xferWrite r v s).state.seq.held = s.seq.held

/-- `xfer_read` (42 R167, R168): the ACK is classified first; the data phase is made exactly when it is OK, with the
line still released (the spec's decision D9); the parity check comes last, and the value is SENTINEL whenever the
status is not OK. 46 ticks when the ACK is OK, 13 otherwise. -/
def Obligations.ReadTransaction : Prop :=
  (∀ (r : RegAddr) (d : Word) (p : Bool) (rest : List Bool) (s : State),
    s.env.samples = readAnswer d p ++ rest →
    (xferRead r s).status = checkRead d p ∧
    (xferRead r s).value = (if p = parity d then d else 0xFFFFFFFF#32) ∧
    (xferRead r s).state.callsMade = s.callsMade ++ readCallsOf r d p ∧
    tickCount (xferRead r s).state.env.trace = tickCount s.env.trace + 46 ∧
    (xferRead r s).state.pins = restored s.pins ∧
    (xferRead r s).state.env.samples = rest ∧
    (xferRead r s).state.port = s.port ∧ (xferRead r s).state.latch = s.latch) ∧
  (∀ (r : RegAddr) (a : BitVec 3) (rest : List Bool) (s : State), a ≠ 1#3 →
    s.env.samples = ackAnswer a ++ rest →
    (xferRead r s).status = ackStatus a ∧
    (xferRead r s).value = 0xFFFFFFFF#32 ∧
    (xferRead r s).state.callsMade = s.callsMade ++ endedCalls r true a ∧
    tickCount (xferRead r s).state.env.trace = tickCount s.env.trace + 13 ∧
    (xferRead r s).state.pins = restored s.pins ∧
    (xferRead r s).state.env.samples = rest ∧
    (xferRead r s).state.port = s.port ∧ (xferRead r s).state.latch = s.latch)

/-- The retried access (42 R170, R171): a peer that answers WAIT k times, fewer than the bound, and then not WAIT, gives
k + 1 whole transactions with nothing between them, and the last one's status; a peer that always answers WAIT gives
exactly WAIT_RETRY_BOUND attempts of 13 ticks, STALLED and SENTINEL, and the diagnostic, which nothing else sets. The
count starts again for every access, whatever S.attempt held; WAIT never leaves an access. -/
def Obligations.RetriedAccess : Prop :=
  (∀ (r : RegAddr) (v : Word) (s : State) (k : Nat) (a : BitVec 3) (rest : List Bool),
    k < Config.waitRetryBound → a ≠ 2#3 → s.env.samples = waitAnswers k ++ ackAnswer a ++ rest →
    (accessWrite r v s).status = ackStatus a ∧
    (accessWrite r v s).state.callsMade =
      s.callsMade ++ waitCalls r false k ++ (if a = 1#3 then writeOkCalls r v else endedCalls r false a) ∧
    (accessWrite r v s).state.seq.attempt = k + 1 ∧
    (accessWrite r v s).state.port = s.port ∧ (accessWrite r v s).state.env.samples = rest) ∧
  (∀ (r : RegAddr) (s : State) (k : Nat) (a : BitVec 3) (rest : List Bool),
    k < Config.waitRetryBound → a ≠ 2#3 → a ≠ 1#3 → s.env.samples = waitAnswers k ++ ackAnswer a ++ rest →
    (accessRead r s).status = ackStatus a ∧ (accessRead r s).value = 0xFFFFFFFF#32 ∧
    (accessRead r s).state.callsMade = s.callsMade ++ waitCalls r true k ++ endedCalls r true a ∧
    (accessRead r s).state.seq.attempt = k + 1 ∧
    (accessRead r s).state.port = s.port ∧ (accessRead r s).state.env.samples = rest) ∧
  (∀ (r : RegAddr) (s : State) (k : Nat) (d : Word) (p : Bool) (rest : List Bool),
    k < Config.waitRetryBound → s.env.samples = waitAnswers k ++ readAnswer d p ++ rest →
    (accessRead r s).status = checkRead d p ∧
    (accessRead r s).value = (if p = parity d then d else 0xFFFFFFFF#32) ∧
    (accessRead r s).state.callsMade = s.callsMade ++ waitCalls r true k ++ readCallsOf r d p ∧
    (accessRead r s).state.seq.attempt = k + 1 ∧
    (accessRead r s).state.port = s.port ∧ (accessRead r s).state.env.samples = rest) ∧
  (∀ (r : RegAddr) (v : Word) (s : State) (rest : List Bool),
    s.env.samples = waitAnswers Config.waitRetryBound ++ rest →
    ((accessWrite r v s).status = .stalled ∧
      (accessWrite r v s).state.callsMade = s.callsMade ++ waitCalls r false Config.waitRetryBound ∧
      tickCount (accessWrite r v s).state.env.trace = tickCount s.env.trace + 13 * Config.waitRetryBound ∧
      (accessWrite r v s).state.port = { s.port with diagStalled := true } ∧
      (accessWrite r v s).state.env.samples = rest) ∧
    ((accessRead r s).status = .stalled ∧ (accessRead r s).value = 0xFFFFFFFF#32 ∧
      (accessRead r s).state.callsMade = s.callsMade ++ waitCalls r true Config.waitRetryBound ∧
      tickCount (accessRead r s).state.env.trace = tickCount s.env.trace + 13 * Config.waitRetryBound ∧
      (accessRead r s).state.port = { s.port with diagStalled := true } ∧
      (accessRead r s).state.env.samples = rest)) ∧
  (∀ (r : RegAddr) (v : Word) (s : State), (accessWrite r v s).status ≠ .wait ∧ (accessRead r s).status ≠ .wait)

/-- Sequencing (43 R190): a command ends with the first status that is not OK, and makes nothing after it. -/
def Obligations.FirstFailureEndsTheSequence : Prop :=
  ∀ (ms rest : List Micro) (m : Micro) (s s1 s2 : State) (st : Status),
    runProgram ms s = (.ok, s1) → m.run s1 = (st, s2) → st ≠ .ok →
    runProgram (ms ++ m :: rest) s = (st, s2)

/-! ## Session and link control -/

/-- INIT (41 R141): without a session and with two different pins, it binds the session, with the seven pin events in
the spec's order (its decision D23), and leaves the idle state of 10 R27; the pull-down is off (its decision D22). The
pins are those that the operands carry in their low bits, for any width of PIN_ID (log 4). -/
def Obligations.InitBindsTheSession : Prop :=
  ∀ s : State, s.port.busy = false → s.pins.bound = false → pinOf s.port.argAddr ≠ pinOf s.port.argData →
    ∃ t, exec .init s = .next t ∧
      t.port = reported .ok s.port ∧
      t.pins = ⟨true, pinOf s.port.argAddr, pinOf s.port.argData, .output, false, true, .output, true, false⟩ ∧
      t.pinTrace = s.pinTrace ++
        [.pinInit (pinOf s.port.argData), .clk true, .clkDir .output,
         .pinInit (pinOf s.port.argAddr), .dio false, .pull true false, .dir .output] ∧
      t.env.samples = s.env.samples ∧ t.env.inputs = s.env.inputs ∧ t.seq.pos = .idle

/-- RESET (41 R143): the ten words, in this order and with these widths, and nothing else. -/
def Obligations.ResetEmitsTheExactList : Prop :=
  ∀ s : State, s.port.busy = false → s.pins.bound = true →
    ∃ t, exec .reset s = .next t ∧
      t.callsMade = s.callsMade ++
        [.write 0xFFFFFFFF#32 32, .write 0x00FFFFFF#32 32, .pad, .write 0xFF#32 8,
         .write 0x6209F392#32 32, .write 0x86852D95#32 32, .write 0xE3DDAFE9#32 32, .write 0x19BC0EA2#32 32,
         .write 0xF1A0#32 16, .pad, .write 0xFFFFFFFF#32 32, .write 0x00FFFFFF#32 32] ∧
      t.pins = { s.pins with dio := false, clk := true } ∧
      t.port = reported .ok s.port ∧
      t.env.samples = s.env.samples ∧ t.env.inputs = s.env.inputs ∧ t.seq.pos = .idle

/-- RESET as the peer sees it (41 R145, 30 R89, R90): 56 ones and 8 zeros, 8 ones, the alert and the activation code bit 0
first, 56 ones and 8 zeros; 280 ticks. At a peer every component keeps its memory, its access port's CSW and TAR and its sticky
flags (70 R252), but not the posted value, which no AP read has given since (20 R58). That the link comes up (91 N14), that
no target is then selected, and that SELECT and CTRL/STAT are kept as well is the model's choice (log 36, unsafe), which
R252 does not give. The peer is that of logs 26 and 36. -/
def Obligations.ResetOnTheWire : Prop :=
  ∀ s t : State, s.port.busy = false → s.pins.bound = true → s.pins.dir = .output → exec .reset s = .next t →
    drivenBits s.pins (t.pinTrace.drop s.pinTrace.length) =
      List.replicate 56 true ++ List.replicate 8 false ++ List.replicate 8 true
        ++ ((List.range 128).map (0x49CF9046A9B4A16197F5BBC745703D98#128).getMsbD)
        ++ ([false, false, false, false, false, true, false, true, true, false, false, false, true, true, true, true])
        ++ List.replicate 56 true ++ List.replicate 8 false ∧
    tickCount t.env.trace = tickCount s.env.trace + 280 ∧
    ∀ p : MemPeer, p.heard = 0 → ∃ q, p.follow (t.callsMade.drop s.callsMade.length) = some q ∧
      q.link = .woken ∧ q.target = .unselected ∧ ∀ k, q.regs k = { p.regs k with posted := none }

/-- SELECT_TARGET (41 R146): whatever the three ACK samples are, the request, the released ACK slot, the identifier and
its parity are made, and the status is OK. That the slot is clocked with the line released is the spec's decision
D20; the frame 0x99 rests on the register role and the bit positions of logs 6 and 7. At a peer whose link is up it
selects the target, whatever the ACK, and the mandatory first read is due (10 R40, 42 R177); that it does so on a link already
ready too, with no RESET since, is the model's choice (log 41, unsafe). That every component then keeps its registers and memory
but for the posted value is the model's choice (log 36, unsafe): the spec says it of RESET, not of a target selection. The
peer is that of logs 26, 36, 38 and 41. -/
def Obligations.SelectTargetIgnoresTheAck : Prop :=
  ∀ (s : State) (a : BitVec 3) (rest : List Bool), s.port.busy = false → s.pins.bound = true →
    s.env.samples = ackAnswer a ++ rest →
    ∃ t, exec .selectTarget s = .next t ∧
      Made s t [.pad, .write 0x99#32 8, .pad, .turn .input, .read 3 (a.setWidth 32), .turn .output, .pad,
        .write s.port.argData 32, .pad, .write (levelWord (parity s.port.argData)) 1, .pad] rest ∧
      t.port = reported .ok s.port ∧
      tickCount t.env.trace = tickCount s.env.trace + 46 ∧
      ∀ p : MemPeer, p.link ≠ .dormant → ∃ q, p.follow (t.callsMade.drop s.callsMade.length) = some q ∧
        q.link = .woken ∧ q.target = .selected s.port.argData ∧ ∀ k, q.regs k = { p.regs k with posted := none }

/-- NOOP (41 R148): eight ticks and nothing else. -/
def Obligations.NoopMakesEightTicks : Prop :=
  ∀ s : State, s.port.busy = false → s.pins.bound = true →
    ∃ t, exec .noop s = .next t ∧
      withoutDelays (t.pinTrace.drop s.pinTrace.length) =
        (List.replicate 8 [PinEvent.clk false, .clk true]).flatten ∧
      t.pins = { s.pins with clk := true } ∧
      t.port = reported .ok s.port ∧
      t.env.samples = s.env.samples ∧ t.env.inputs = s.env.inputs ∧ t.seq.pos = .idle

/-- DISCONNECT (41 R150): both pins released, data then clock (the spec's decision D23), no tick, the session ended; the
latch and the clock level keep their values. Nothing is said of the pulls. -/
def Obligations.DisconnectReleasesBothPins : Prop :=
  ∀ s : State, s.port.busy = false → s.pins.bound = true →
    ∃ t, exec .disconnect s = .next t ∧
      t.pinTrace = s.pinTrace ++ [.dir .input, .clkDir .input] ∧
      t.pins.bound = false ∧ t.pins.dir = .input ∧ t.pins.clkDir = .input ∧
      t.pins.dio = s.pins.dio ∧ t.pins.clk = s.pins.clk ∧
      t.pins.dataPin = s.pins.dataPin ∧ t.pins.clockPin = s.pins.clockPin ∧
      t.port = reported .ok s.port ∧
      t.env.samples = s.env.samples ∧ t.env.inputs = s.env.inputs ∧ t.seq.pos = .idle

/-! ## Register access -/

/-- GET_REG (42 R170, R171, R174): a peer that answers WAIT k times, fewer than the bound, and then OK with data and the
right parity gives k + 1 transactions, the data in x[RESULT], and status OK. -/
def Obligations.GetRegDeliversTheData : Prop :=
  ∀ (s : State) (reg : BitVec 6) (r : RegAddr) (k : Nat) (d : Word) (rest : List Bool),
    s.port.busy = false → s.pins.bound = true → regOf reg = some r → k < Config.waitRetryBound →
    s.env.samples = waitAnswers k ++ okRead d ++ rest →
    ∃ t, exec (.getReg reg) s = .next t ∧
      Made s t (waitCalls r true k ++ readOkCalls r d) rest ∧
      t.port = { reported .ok s.port with result := d } ∧
      tickCount t.env.trace = tickCount s.env.trace + (13 * k + 46)

/-- SET_REG (42 R170, R171, R172): likewise; the value sent is x[ARG_DATA], unchanged, and x[RESULT] keeps its value. -/
def Obligations.SetRegSendsTheValue : Prop :=
  ∀ (s : State) (reg : BitVec 6) (r : RegAddr) (k : Nat) (rest : List Bool),
    s.port.busy = false → s.pins.bound = true → regOf reg = some r → k < Config.waitRetryBound →
    s.env.samples = waitAnswers k ++ okWrite ++ rest →
    ∃ t, exec (.setReg reg) s = .next t ∧
      Made s t (waitCalls r false k ++ writeOkCalls r s.port.argData) rest ∧
      t.port = reported .ok s.port ∧
      tickCount t.env.trace = tickCount s.env.trace + (13 * k + 46)

/-- READ_IDCODE (42 R176): it is GET_REG of one fixed register, DP_0 by the role of log 6; so with a peer that answers
WAIT k times and then OK, it delivers the data. -/
def Obligations.ReadIdcodeIsGetRegOfItsRegister : Prop :=
  (∀ s : State, exec .readIdcode s = exec (.getReg 0x00#6) s) ∧
  ∀ (s : State) (k : Nat) (d : Word) (rest : List Bool),
    s.port.busy = false → s.pins.bound = true → k < Config.waitRetryBound →
    s.env.samples = waitAnswers k ++ okRead d ++ rest →
    ∃ t, exec .readIdcode s = .next t ∧
      Made s t (waitCalls Params.dp0 true k ++ readOkCalls Params.dp0 d) rest ∧
      t.port = { reported .ok s.port with result := d }

/-- The retry bound (42 R171): a peer that always answers WAIT causes exactly WAIT_RETRY_BOUND attempts of 13 ticks, then
STALLED, with the value SENTINEL and the diagnostic set. -/
def Obligations.StalledAfterTheBound : Prop :=
  ∀ (s : State) (reg : BitVec 6) (r : RegAddr) (rest : List Bool),
    s.port.busy = false → s.pins.bound = true → regOf reg = some r →
    s.env.samples = waitAnswers 32 ++ rest →
    (∃ t, exec (.getReg reg) s = .next t ∧
      Made s t (waitCalls r true 32) rest ∧
      t.port = { reported .stalled s.port with result := 0xFFFFFFFF#32, diagStalled := true } ∧
      tickCount t.env.trace = tickCount s.env.trace + 416) ∧
    (∃ t, exec (.setReg reg) s = .next t ∧
      Made s t (waitCalls r false 32) rest ∧
      t.port = { reported .stalled s.port with diagStalled := true } ∧
      tickCount t.env.trace = tickCount s.env.trace + 416)

/-- FAULT and PROTOCOL_ERROR are never retried (42 R170, 60 R223, R224): after fewer WAITs than the bound, an ACK that is
neither OK nor WAIT ends the command with its status, without a data phase. -/
def Obligations.BadAckEndsTheCommand : Prop :=
  ∀ (s : State) (reg : BitVec 6) (r : RegAddr) (k : Nat) (a : BitVec 3) (rest : List Bool),
    s.port.busy = false → s.pins.bound = true → regOf reg = some r → k < Config.waitRetryBound →
    a ≠ 1#3 → a ≠ 2#3 → s.env.samples = waitAnswers k ++ ackAnswer a ++ rest →
    (∃ t, exec (.getReg reg) s = .next t ∧
      Made s t (waitCalls r true k ++ endedCalls r true a) rest ∧
      t.port = { reported (if a = 4#3 then .fault else .protocolError) s.port with result := 0xFFFFFFFF#32 } ∧
      tickCount t.env.trace = tickCount s.env.trace + (13 * k + 13)) ∧
    (∃ t, exec (.setReg reg) s = .next t ∧
      Made s t (waitCalls r false k ++ endedCalls r false a) rest ∧
      t.port = reported (if a = 4#3 then .fault else .protocolError) s.port ∧
      tickCount t.env.trace = tickCount s.env.trace + (13 * k + 13))

/-- A parity mismatch (42 R164, R175): after fewer WAITs than the bound, a read with an OK ACK and a wrong parity bit is
PROTOCOL_ERROR at once; the 32 bits read are dropped. -/
def Obligations.ParityMismatchIsProtocolError : Prop :=
  ∀ (s : State) (reg : BitVec 6) (r : RegAddr) (k : Nat) (d : Word) (rest : List Bool),
    s.port.busy = false → s.pins.bound = true → regOf reg = some r → k < Config.waitRetryBound →
    s.env.samples = waitAnswers k ++ readAnswer d (!parity d) ++ rest →
    ∃ t, exec (.getReg reg) s = .next t ∧
      Made s t (waitCalls r true k ++ readCallsOf r d (!parity d)) rest ∧
      t.port = { reported .protocolError s.port with result := 0xFFFFFFFF#32 } ∧
      tickCount t.env.trace = tickCount s.env.trace + (13 * k + 46)

/-- The failure-value discipline (42 R169), at every layer: a transaction, an access and a read command whose status is
not OK give SENTINEL, whatever the samples; and a read that ends OK may give the same value. -/
def Obligations.FailedReadsGiveTheSentinel : Prop :=
  (∀ (r : RegAddr) (s : State), (xferRead r s).status ≠ .ok → (xferRead r s).value = 0xFFFFFFFF#32) ∧
  (∀ (r : RegAddr) (s : State), (accessRead r s).status ≠ .ok → (accessRead r s).value = 0xFFFFFFFF#32) ∧
  (∀ (i : Instr) (s t : State), (i = .readIdcode ∨ i = .setupMem ∨ i = .peek ∨ ∃ reg, i = .getReg reg) →
    s.port.busy = false → exec i s = .next t → t.port.status ≠ Status.code .ok →
    t.port.result = 0xFFFFFFFF#32) ∧
  (∀ (r : RegAddr) (s : State) (rest : List Bool),
    s.env.samples = ackAnswer 1#3 ++ List.replicate 32 true ++ [false] ++ rest →
    (xferRead r s).status = .ok ∧ (xferRead r s).value = 0xFFFFFFFF#32)

/-- Round trip (42 R178): SET_REG of a value, then GET_REG of the same register against a peer that replays the 32 data
bits of the write in arrival order, with their parity, gives the value back and OK, for every value and register. -/
def Obligations.RegisterRoundTrip : Prop :=
  ∀ (s t : State) (reg : BitVec 6) (r : RegAddr) (rest rest' : List Bool) (stored : List Bool),
    InSession s → regOf reg = some r → s.env.samples = okWrite ++ rest → exec (.setReg reg) s = .next t →
    stored = ((drivenBits s.pins (t.pinTrace.drop s.pinTrace.length)).drop 8).take 32 →
    ∃ u, exec (.getReg reg)
        { t with env.samples := ackAnswer 1#3 ++ stored ++ [parity (assemble stored)] ++ rest' } = .next u ∧
      u.port.result = s.port.argData ∧ u.port.success = true ∧ u.port.status = Status.code .ok

/-! ## AP memory -/

/-- SETUP_MEM (43 R191): its ten accesses in order, each answered OK after any number of WAITs below the bound; x[RESULT]
is the value of the RDBUFF read, the seventh access. The register roles are those of log 6; the six words are parameters
(log 8). -/
def Obligations.SetupMemMakesTenAccesses : Prop :=
  ∀ (s : State) (es : List Exchange) (idr : Word) (rest : List Bool), s.port.busy = false → s.pins.bound = true →
    es.map Exchange.access = accessList s.port .setupMem → AnswersOk es s.env.samples rest →
    es[6]?.map Exchange.data = some idr →
    ∃ t, exec .setupMem s = .next t ∧
      Made s t (es.flatMap Exchange.calls) rest ∧
      t.port = { reported .ok s.port with result := idr } ∧
      tickCount t.env.trace = tickCount s.env.trace + (es.map Exchange.ticks).sum

/-- PEEK (43 R195): the address, the triggering read whose value is discarded, the read of the result buffer, each
answered OK after any number of WAITs below the bound. The register roles are those of log 6. -/
def Obligations.PeekReadsThroughTheResultBuffer : Prop :=
  ∀ (s : State) (es : List Exchange) (d : Word) (rest : List Bool), s.port.busy = false → s.pins.bound = true →
    es.map Exchange.access = accessList s.port .peek → AnswersOk es s.env.samples rest →
    es[2]?.map Exchange.data = some d →
    ∃ t, exec .peek s = .next t ∧
      Made s t (es.flatMap Exchange.calls) rest ∧
      t.port = { reported .ok s.port with result := d } ∧
      tickCount t.env.trace = tickCount s.env.trace + (es.map Exchange.ticks).sum

/-- PEEK_MANY (43 R198, R199): for n = 0 the address alone; for n >= 1 the prime, whose value is discarded, n - 1 reads of
the data register and the drain from the result buffer, delivering word i to BUF[i], each access answered OK after any
number of WAITs below the bound. For n = 0 BUF is untouched; for n >= 1 every entry from n on is a free value, whatever
the peer sent: it keeps its old content, which is to be treated as unspecified (10 R35, 93 U9; log 25). The register
roles are those of log 6. -/
def Obligations.PeekManyFillsTheBuffer : Prop :=
  ∀ (s : State) (es : List Exchange) (rest : List Bool), s.port.busy = false → s.pins.bound = true →
    s.port.argCount ≤ Config.bufDepth →
    es.map Exchange.access = accessList s.port .peekMany → AnswersOk es s.env.samples rest →
    ∃ t, exec .peekMany s = .next t ∧
      Made s t (es.flatMap Exchange.calls) rest ∧
      (∀ i, i < s.port.argCount → t.port.buf[i]? = es[i + 2]?.map Exchange.data) ∧
      (s.port.argCount = 0 → t.port.buf = s.port.buf) ∧
      (∀ i, 0 < s.port.argCount → s.port.argCount ≤ i → i < Config.bufDepth →
        ∃ k, t.port.buf[i]? = some (Config.freeEntry k)) ∧
      t.port = { reported .ok s.port with buf := t.port.buf } ∧
      tickCount t.env.trace = tickCount s.env.trace + (es.map Exchange.ticks).sum

/-- POKE (43 R202): the address, then the value, each answered OK after any number of WAITs below the bound. The register
roles are those of log 6. -/
def Obligations.PokeWritesAddressThenValue : Prop :=
  ∀ (s : State) (es : List Exchange) (rest : List Bool), s.port.busy = false → s.pins.bound = true →
    es.map Exchange.access = accessList s.port .poke → AnswersOk es s.env.samples rest →
    ∃ t, exec .poke s = .next t ∧
      Made s t (es.flatMap Exchange.calls) rest ∧
      t.port = reported .ok s.port ∧
      tickCount t.env.trace = tickCount s.env.trace + (es.map Exchange.ticks).sum

/-- POKE_MANY (43 R204, R205): the address, then the n words of BUF in order, each answered OK after any number of WAITs
below the bound; BUF is only read. And if the write of BUF[k] fails, in any of the ways of 60 R221, the words 0..k-1 have
been written at the peer and stay written (60 R229, 43 R206), the last of them perhaps seen late (log 37); after a FAULT no
other word is written (95 V109). So at any memory port with a ready link, the transfer-control word of SETUP_MEM, TAR and
DRW visible under the selected bank, an address that is a multiple of 4, and none of those k words the last of a range of
the auto-increment (93 U15). The peer is that of logs 26, 34 to 39 and 42: that nothing but the engine writes its memory is the
model's choice (log 39). Within this command it is R205 that has word k-1 written when the next write fails; that an earlier
command's last write still pending is made too is the model's choice (log 42). The register roles are those of log 6. -/
def Obligations.PokeManyWritesTheBuffer : Prop :=
  (∀ (s : State) (es : List Exchange) (rest : List Bool), s.port.busy = false → s.pins.bound = true →
    s.port.argCount ≤ Config.bufDepth →
    es.map Exchange.access = accessList s.port .pokeMany → AnswersOk es s.env.samples rest →
    ∃ t, exec .pokeMany s = .next t ∧
      Made s t (es.flatMap Exchange.calls) rest ∧
      t.port = reported .ok s.port ∧
      tickCount t.env.trace = tickCount s.env.trace + (es.map Exchange.ticks).sum) ∧
  ∀ (s : State) (es : List Exchange) (w : Word) (post : List (RegAddr × Option Word)) (f : Failure) (rest : List Bool)
    (p : MemPeer) (n : Nat),
    s.port.busy = false → s.pins.bound = true → s.port.argCount ≤ Config.bufDepth → 4 * s.port.argCount ≤ 2 ^ 32 →
    s.port.argAddr.extractLsb' 0 2 = 0#2 →
    accessList s.port .pokeMany = es.map Exchange.access ++ (Params.apC, some w) :: post → f.possible (some w) →
    AnswersOk es s.env.samples (f.answers ++ rest) →
    p.link = .ready → p.active = some n → p.now.csw = some Config.cswWord →
    p.shown Params.ap4 false = some .tar → p.shown Params.apC false = some .drw →
    (∀ i, i + 1 < es.length → (p.parts n).ends (s.port.argAddr + BitVec.ofNat 32 (4 * i)) = false) →
    ∃ t q, exec .pokeMany s = .next t ∧ t.port.status = Status.code f.status ∧
      p.follow (t.callsMade.drop s.callsMade.length) = some q ∧
      (∀ i, i + 1 < es.length → (q.regs n).settle.mem (s.port.argAddr + BitVec.ofNat 32 (4 * i)) = s.port.buf[i]?) ∧
      (f.status = .fault → ∀ b, (∀ i, i + 1 < es.length → b ≠ s.port.argAddr + BitVec.ofNat 32 (4 * i)) →
        (q.regs n).settle.mem b = (p.regs n).settle.mem b)

/-- A memory command ends with its first failed access (43 R190, R192 (a), (e), R199, R205, 60 R227, R228): the accesses
before it are made and answered OK, it fails in any of the ways of 60 R221, and nothing is made after it; the status is
the failure's; x[RESULT] of SETUP_MEM and PEEK is SENTINEL, also when the value had been read; the diagnostic is set
exactly by a stalled access. PEEK_MANY keeps the words delivered, puts SENTINEL in the entry being fetched (BUF[0] for
the address write and the prime, none for n = 0), and every later entry is a free value, whatever the peer sent (10 R35,
log 25); the other commands leave BUF alone. The register roles are those of log 6; stopping also in SETUP_MEM is the spec's decision D17. -/
def Obligations.MemoryCommandStopsAtTheFirstFailure : Prop :=
  ∀ (i : Instr) (s : State) (es : List Exchange) (r : RegAddr) (value : Option Word)
    (post : List (RegAddr × Option Word)) (f : Failure) (rest : List Bool),
    s.port.busy = false → s.pins.bound = true → (i = .peekMany ∨ i = .pokeMany → s.port.argCount ≤ Config.bufDepth) →
    accessList s.port i = es.map Exchange.access ++ (r, value) :: post → f.possible value →
    AnswersOk es s.env.samples (f.answers ++ rest) →
    ∃ t, exec i s = .next t ∧
      Made s t (es.flatMap Exchange.calls ++ f.calls r value) rest ∧
      t.port = { reported f.status s.port with
        result := if i = .setupMem ∨ i = .peek then 0xFFFFFFFF#32 else s.port.result
        diagStalled := s.port.diagStalled || f == .stalled
        buf := t.port.buf } ∧
      (i ≠ .peekMany → t.port.buf = s.port.buf) ∧
      (i = .peekMany →
        (0 < s.port.argCount → t.port.buf[es.length - 2]? = some 0xFFFFFFFF#32) ∧
        (∀ j, j < es.length - 2 → t.port.buf[j]? = es[j + 2]?.map Exchange.data) ∧
        (∀ j, es.length - 2 < j ∨ s.port.argCount = 0 → j < Config.bufDepth →
          ∃ k, t.port.buf[j]? = some (Config.freeEntry k))) ∧
      tickCount t.env.trace = tickCount s.env.trace + (es.map Exchange.ticks).sum + f.ticks

/-- PEEK_MANY and BUF (43 R198, R199, R200), whatever the samples. If it succeeded, BUF[i] is the word that the read after
the prime and i further reads brought; for n = 0 BUF is untouched. If it failed with n >= 1, the entry being fetched,
BUF[S.idx], holds SENTINEL, S.idx being one less than the number of good reads (0 for the address write and the prime),
and the entries below it hold the words delivered. Every entry that was not reached is a free value, so no word of the
peer's and no SENTINEL is put there, BUF[n] least of all: it keeps its old content, which is to be treated as unspecified
(10 R35, 93 U9, the spec's decision D19; log 25). -/
def Obligations.PeekManyKeepsInsideItsRange : Prop :=
  ∀ (s t : State) (ds : List Word), s.port.busy = false → s.pins.bound = true → s.port.argCount ≤ Config.bufDepth →
    exec .peekMany s = .next t → ds = wordsRead (t.callsMade.drop s.callsMade.length) →
    (t.port.status = Status.code .ok →
      (∀ i, i < s.port.argCount → ∃ d, ds[i + 1]? = some d ∧ t.port.buf[i]? = some d) ∧
      (s.port.argCount = 0 → t.port.buf = s.port.buf) ∧
      (∀ i, 0 < s.port.argCount → s.port.argCount ≤ i → i < Config.bufDepth →
        ∃ k, t.port.buf[i]? = some (Config.freeEntry k))) ∧
    (t.port.status ≠ Status.code .ok →
      t.seq.idx = ds.length - 1 ∧
      (0 < s.port.argCount → t.seq.idx < s.port.argCount ∧ t.port.buf[t.seq.idx]? = some 0xFFFFFFFF#32) ∧
      (∀ i, i < t.seq.idx → ∃ d, ds[i + 1]? = some d ∧ t.port.buf[i]? = some d) ∧
      ∀ i, t.seq.idx < i ∨ s.port.argCount = 0 → i < Config.bufDepth →
        ∃ k, t.port.buf[i]? = some (Config.freeEntry k))

/-- Memory round trip (43 R207, 20 R56, R58, 10 R43, R44): POKE_MANY of n words, then PEEK_MANY of n words at the same
address, against any peer that is a memory port (its answers, WAITs included, are only required to be such a peer's): a
ready link, the transfer-control word of SETUP_MEM, TAR, DRW and RDBUFF visible under the selected bank, an address that
is a multiple of 4, and none of the n words the last of a range of the auto-increment (93 U15). When both end OK, BUF[i]
holds word i again, whatever BUF held in between, and the peer's address register ends 4n further. The register roles
are those of log 6; the peer is that of logs 26 and 34 to 39. That nothing but the engine's writes changes the peer's memory in
between is the model's choice (log 39, unsafe). -/
def Obligations.MemoryRoundTrip : Prop :=
  ∀ (s t u : State) (b : Vector Word Config.bufDepth) (p q q' : MemPeer) (c : Component),
    s.port.busy = false → s.pins.bound = true → 4 * s.port.argCount ≤ 2 ^ 32 →
    s.port.argAddr.extractLsb' 0 2 = 0#2 →
    p.link = .ready → p.component = some c → p.now.csw = some Config.cswWord →
    p.shown Params.ap4 false = some .tar → (∀ rnw, p.shown Params.apC rnw = some .drw) →
    p.shown Params.dpC true = some .rdbuff →
    (∀ i, i < s.port.argCount → c.ends (s.port.argAddr + BitVec.ofNat 32 (4 * i)) = false) →
    exec .pokeMany s = .next t → t.port.status = Status.code .ok →
    p.follow (t.callsMade.drop s.callsMade.length) = some q →
    exec .peekMany { t with port.buf := b } = .next u → u.port.status = Status.code .ok →
    q.follow (u.callsMade.drop t.callsMade.length) = some q' →
    (∀ i, i < s.port.argCount → u.port.buf[i]? = s.port.buf[i]?) ∧
    q'.now.tar = some (s.port.argAddr + BitVec.ofNat 32 (4 * s.port.argCount))

/-- SETUP_MEM at a peer (43 R191, 10 R40 to R42, R45, R46, 20 R58, 70 R253): against any peer whose link is ready and in which
a known component answers, one that shows SELECT and the DP registers where the roles say under every bank, known or not,
IDR under the bank of SELECT_IDR and CSW under that of SELECT_CSW, a SETUP_MEM that ends OK returns that component's IDR,
and leaves the transfer-control word set, the idle bank selected and the sticky flags clear, whatever they were before. The register roles are those of log 6, the words those of log 8, the peer that
of logs 26 and 34 to 38. -/
def Obligations.SetupMemIdentifiesThePeer : Prop :=
  ∀ (s t : State) (p q : MemPeer) (c : Component) (w : Word),
    s.port.busy = false → s.pins.bound = true → p.link = .ready → p.component = some c → c.idr = some w →
    (∀ b, c.shown b Params.dp0 false = some .abort) → (∀ b, c.shown b Params.dp8 false = some .select) →
    (∀ b rnw, c.shown b Params.dp4 rnw = some .ctrlstat) → (∀ b, c.shown b Params.dpC true = some .rdbuff) →
    c.shown (some Config.selectIdr) Params.apC true = some .idr →
    c.shown (some Config.selectCsw) Params.ap0 false = some .csw →
    exec .setupMem s = .next t → t.port.status = Status.code .ok →
    p.follow (t.callsMade.drop s.callsMade.length) = some q →
    t.port.result = w ∧ q.now.csw = some Config.cswWord ∧ q.now.select = some Config.selectIdle ∧
      q.now.sticky = some false ∧
      q.link = .ready ∧ q.component = some c

/-- POKE is the host's two SET_REGs in one command (30 R100): the same pin-level trace and the same end, whatever the
samples; the second is made when the first succeeded. The register roles are those of log 6. -/
def Obligations.PokeIsTwoSetRegs : Prop :=
  ∀ s t u : State, s.port.busy = false → s.pins.bound = true → exec .poke s = .next t →
    exec (.setReg 0x24#6) { s with port.argData := s.port.argAddr } = .next u →
    (u.port.success = false → t.env.trace = u.env.trace ∧ t.port.status = u.port.status) ∧
    (u.port.success = true →
      ∃ v, exec (.setReg 0x2C#6) { u with port.argData := s.port.argData } = .next v ∧
        t.env.trace = v.env.trace ∧ t.port.status = v.port.status ∧ t.pins = v.pins)

/-! ## Every command, whatever the samples -/

/-- Every command ends (42 R181, 00 R7): from any port at rest, whatever the samples, in a next state with BUSY clear,
DONE set, and a terminal status that is never WAIT (60 R222), within a bounded number of ticks. -/
def Obligations.EveryCommandEnds : Prop :=
  ∀ (i : Instr) (w : Word) (s : State), encode i = .cmdw w → s.port.busy = false → s.seq.pos = .idle →
    ∃ t st, exec i s = .next t ∧ EndedWith st t ∧ st ≠ .wait ∧
      tickCount t.env.trace ≤ tickCount s.env.trace + Config.waitRetryBound * 46 * (10 + s.port.argCount)

/-- What no command changes (10 R20, R28 to R31, R35, 60 R236): the operand registers and the command word; the session's
pins except by INIT; x[RESULT] except by the four read commands; BUF except by PEEK_MANY; the host's moves. And the
diagnostic is set exactly by an access that stalled, and never cleared (10 R34). -/
def Obligations.CommandFrame : Prop :=
  ∀ (i : Instr) (w : Word) (s t : State), encode i = .cmdw w → s.port.busy = false → exec i s = .next t →
    t.port.cmdw = s.port.cmdw ∧ t.port.argAddr = s.port.argAddr ∧ t.port.argData = s.port.argData ∧
    t.port.argCount = s.port.argCount ∧ t.env.inputs = s.env.inputs ∧
    (i ≠ .init → t.pins.dataPin = s.pins.dataPin ∧ t.pins.clockPin = s.pins.clockPin) ∧
    (i ≠ .init → i ≠ .disconnect →
      t.pins.bound = s.pins.bound ∧ t.pins.clkDir = s.pins.clkDir ∧ t.pins.pullUp = s.pins.pullUp ∧
      t.pins.pullDown = s.pins.pullDown) ∧
    (i ≠ .readIdcode → i ≠ .setupMem → i ≠ .peek → (∀ reg, i ≠ .getReg reg) → t.port.result = s.port.result) ∧
    (i ≠ .peekMany → t.port.buf = s.port.buf) ∧
    (t.port.diagStalled = true ↔ s.port.diagStalled = true ∨ t.port.status = Status.code .stalled)

/-- Every command keeps the idle state of a session, whatever its status and the samples (10 R27). -/
def Obligations.CommandsKeepTheIdleState : Prop :=
  ∀ (i : Instr) (w : Word) (s t : State), encode i = .cmdw w → s.port.busy = false → IdleInSession s.pins →
    exec i s = .next t → IdleInSession t.pins

/-- Ownership of the line (40 R120, R128): from the idle state, every command but INIT samples only while it has
released the line, and writes the data latch only while it owns it. -/
def Obligations.CommandsRespectTheLine : Prop :=
  ∀ (i : Instr) (w : Word) (s t : State), encode i = .cmdw w → i ≠ .init → s.port.busy = false →
    lineOf s.pins = idleLine → exec i s = .next t →
    ∃ es, t.pinTrace = s.pinTrace ++ es ∧ ownsLine .output es = true

/-- The refusals (60 R226, 30 R97): no session, a session for INIT, equal pins, an illegal REG, a count above BUF_DEPTH,
a reserved opcode. The command changes nothing but STATUS, SUCCESS, BUSY, DONE, and RESULT of a read command; there is
no pin event. (The spec's decision D13; that nothing is latched is log 29; the pins of INIT are those that the operands
carry in their low bits, for any width of PIN_ID, log 4, and BUF_DEPTH is any depth, log 5.) -/
def Obligations.RefusedCommandsChangeNothing : Prop :=
  ∀ (i : Instr) (w : Word) (s : State), encode i = .cmdw w → s.port.busy = false →
    (i = .reservedD ∨ i = .reservedE ∨ i = .reservedF ∨
      (i ≠ .init ∧ s.pins.bound = false) ∨ (i = .init ∧ s.pins.bound = true) ∨
      (i = .init ∧ pinOf s.port.argAddr = pinOf s.port.argData) ∨
      (∃ reg, (i = .getReg reg ∨ i = .setReg reg) ∧ legalReg reg = false) ∨
      ((i = .peekMany ∨ i = .pokeMany) ∧ Config.bufDepth < s.port.argCount)) →
    exec i s = .next { s with
      port := { reported .refused s.port with
        result :=
          if i = .readIdcode ∨ i = .setupMem ∨ i = .peek ∨ ∃ reg, i = .getReg reg then 0xFFFFFFFF#32
          else s.port.result } }

/-- Nothing else is refused (60 R226, 93 U19: "every other order is run as issued"). The pins of INIT are those that the
operands carry in their low bits, for any width of PIN_ID (log 4), and BUF_DEPTH is any depth (log 5). -/
def Obligations.OtherCommandsAreNotRefused : Prop :=
  ∀ (i : Instr) (w : Word) (s t : State), encode i = .cmdw w → s.port.busy = false → exec i s = .next t →
    i ≠ .reservedD → i ≠ .reservedE → i ≠ .reservedF →
    (i = .init ↔ s.pins.bound = false) → (i = .init → pinOf s.port.argAddr ≠ pinOf s.port.argData) →
    (∀ reg, i = .getReg reg ∨ i = .setReg reg → legalReg reg = true) →
    (i = .peekMany ∨ i = .pokeMany → s.port.argCount ≤ Config.bufDepth) →
    t.port.status ≠ Status.code .refused

/-! ## The sequencer and the step -/

/-- A request frame, executed (42 R165, R179; log 17): its eight bits go out between two pads, start bit first, and the
sequencer moves from REQ to TRN1 (or to SELECT_TARGET's next statement). The row of the generic pattern is included: that
it stands for the frames with a wrong parity bit, which no command makes (30 R94), and is sent as given, is the model's
choice (log 16). -/
def Obligations.RequestFramesAreSent : Prop :=
  ∀ (i : Instr) (f : Byte) (s : State), encode i = .req8 f →
    ∃ t, exec i s = .next t ∧
      t.callsMade = s.callsMade ++ [.pad, .write (f.setWidth 32) 8, .pad] ∧
      (s.pins.dir = .output →
        drivenBits s.pins (t.pinTrace.drop s.pinTrace.length) = (List.range 8).map f.getLsbD) ∧
      tickCount t.env.trace = tickCount s.env.trace + 8 ∧
      t.pins = { s.pins with dio := false, clk := true } ∧
      (∀ k, s.seq.pos = .xfer k .req → t.seq.pos = .xfer k .trn1) ∧
      (∀ k, s.seq.pos = .frame k → t.seq.pos = .stmt (k + 1)) ∧
      t.port = s.port ∧ t.latch = s.latch ∧ t.env.samples = s.env.samples ∧ t.env.inputs = s.env.inputs ∧
      t.seq.ack = s.seq.ack ∧ t.seq.attempt = s.seq.attempt ∧ t.seq.idx = s.seq.idx ∧ t.seq.held = s.seq.held

/-- An ACK, executed (42 R162, R166, R167, R179, R183 (a); log 17): S.ack holds it; a read with OK goes on to its data;
everything else takes the line back, with the status the ACK means. Nothing else changes. -/
def Obligations.AcksDecideTheBranch : Prop :=
  ∀ (i : Instr) (a : BitVec 3) (s : State), encode i = .ack3 a →
    ∃ t, exec i s = .next t ∧
      t.seq.ack = a ∧
      (∀ k, s.seq.pos = .xfer k (.decode true) →
        t.seq.pos = .xfer k (if a = 1#3 then .rdata else
          .trn2 (if a = 2#3 then .wait else if a = 4#3 then .fault else .protocolError))) ∧
      (∀ k, s.seq.pos = .xfer k (.decode false) →
        t.seq.pos = .xfer k (.trn2 (if a = 1#3 then .ok else if a = 2#3 then .wait else if a = 4#3 then .fault
          else .protocolError))) ∧
      t = { s with seq.ack := t.seq.ack, seq.pos := t.seq.pos }

/-- A step runs the decoded instruction. The host's blocking call runs the command that x[CMDW] decodes to; a running
command at a request position or at the classification runs the frame in the shift register or the ACK in S.ack. The
step adds nothing but taking the host's move off the list. That the host's moves are a list, that the blocking call is one
step, and that frames and ACKs run at those positions are the model's choices (logs 11, 12, 17). -/
def Obligations.StepRunsTheDecodedInstruction : Prop :=
  (∀ (s : State) (i : Instr) (rest : List Input), s.env.inputs = .host .run :: rest →
    decode (.cmdw s.port.cmdw) = .ok i → step s = exec i { s with env.inputs := rest }) ∧
  (∀ (s : State) (c : Code) (i : Instr), s.port.busy = true → s.env.inputs = [] →
    wireCode s = some c → decode c = .ok i → step s = exec i s) ∧
  (∀ (s : State) (c : Code) (i : Instr) (rest : List Input), s.port.busy = true → s.env.inputs = .host .wait :: rest →
    wireCode s = some c → decode c = .ok i → step s = exec i { s with env.inputs := rest })

/-- A word that decodes to no command is refused (30 R97), by the blocking call and by the bare event `start`: no pin
event, nothing latched (log 29), SUCCESS 0, STATUS REFUSED, and SENTINEL in RESULT when its opcode field is that of a
read command; that the opcode field decides this also when reserved bits are set is the model's reading (log 15). -/
def Obligations.BadCommandWordsAreRefused : Prop :=
  ∀ (s : State) (m : HostMove) (rest : List Input) (e : DecodeError), m = .run ∨ m = .start →
    s.env.inputs = .host m :: rest → s.port.busy = false → decode (.cmdw s.port.cmdw) = .error e →
    step s = .next { s with
      env.inputs := rest
      port := { reported .refused s.port with
        result :=
          if (opField s.port.cmdw).toNat ∈ [3, 4, 6, 8] then 0xFFFFFFFF#32 else s.port.result } }

/-- An accepted `start` (10 R33): unless the command is refused, the engine latches the command word and the three
operands, sets BUSY and clears DONE, and the sequencer stands at the command's first statement: the request of the first
attempt of its first access, SELECT_TARGET's request frame, or a statement that is neither. No pin event is made and
nothing else of the port changes. The form of the position is the model's choice (logs 19, 20, 31). The first accesses
are those of 42 R172, R174, R176 and 43 R191, R195, R198, R202, R204, and the frame is that of 41 R146; their registers,
DP_0 of READ_IDCODE and DP_C of the frame 0x99 among them, are PRESUMED (log 6, the spec's decision D15), and so are the
bit positions of the frames (log 7, decision D7). The pins of INIT are those that the operands carry in their low bits
(log 4), and BUF_DEPTH is any depth (log 5). -/
def Obligations.AcceptedStartLatchesTheOperands : Prop :=
  ∀ (s : State) (i : Instr) (rest : List Input), s.env.inputs = .host .start :: rest → s.port.busy = false →
    decode (.cmdw s.port.cmdw) = .ok i →
    i ≠ .reservedD → i ≠ .reservedE → i ≠ .reservedF →
    (i = .init ↔ s.pins.bound = false) → (i = .init → pinOf s.port.argAddr ≠ pinOf s.port.argData) →
    (i = .peekMany ∨ i = .pokeMany → s.port.argCount ≤ Config.bufDepth) →
    ∃ t, step s = .next t ∧
      t.port = { s.port with busy := true, done := false } ∧
      t.latch = ⟨s.port.cmdw, s.port.argAddr, s.port.argData, s.port.argCount⟩ ∧
      t.pins = s.pins ∧ t.env = { s.env with inputs := rest } ∧
      (i = .init ∨ i = .reset ∨ i = .noop ∨ i = .disconnect → t.seq.pos = .stmt 0) ∧
      (i = .selectTarget → t.seq.pos = .frame 0 ∧ t.seq.shift = 0x99#32) ∧
      (∀ r v l, (accessList s.port i = (r, v) :: l ∨
          (i = .readIdcode ∧ r = Params.dp0 ∧ v = none) ∨
          (∃ reg, i = .getReg reg ∧ regOf reg = some r ∧ v = none) ∨
          (∃ reg, i = .setReg reg ∧ regOf reg = some r ∧ v = some s.port.argData)) →
        t.seq.pos = .xfer 0 .req ∧ t.seq.attempt = 1 ∧ t.seq.shift = frameOf r v.isNone)

/-- A `start` while BUSY is ignored (10 R33, the spec's decision D14), as the bare event and as the blocking call. -/
def Obligations.StartWhileBusyIsIgnored : Prop :=
  ∀ (s : State) (m : HostMove) (rest : List Input), m = .start ∨ m = .run →
    s.env.inputs = .host m :: rest → s.port.busy = true → step s = .next { s with env.inputs := rest }

/-- The host's other moves (60 R236, 10 R28, R35, 70 R251): an idle engine waits, with no move to come or with the host
waiting; operands, CMDW and BUF are written while BUSY is 0; the diagnostic is cleared; CMDW and BUF may not be written
while BUSY (the model stops by name, log 13), nor an entry that BUF does not have (log 14). No move changes the session,
the pins, the latched operands or the sequencer but `start`, the call that begins with it, and waiting, where a running
command goes on. -/
def Obligations.HostMoves : Prop :=
  (∀ s : State, s.env.inputs = [] → s.port.busy = false → step s = .next s) ∧
  (∀ (s : State) (rest : List Input),
    (s.env.inputs = .host .wait :: rest → s.port.busy = false → step s = .next { s with env.inputs := rest }) ∧
    (∀ w, s.env.inputs = .host (.writeArgAddr w) :: rest →
      step s = .next { s with env.inputs := rest, port := { s.port with argAddr := w } }) ∧
    (∀ w, s.env.inputs = .host (.writeArgData w) :: rest →
      step s = .next { s with env.inputs := rest, port := { s.port with argData := w } }) ∧
    (∀ n, s.env.inputs = .host (.writeArgCount n) :: rest →
      step s = .next { s with env.inputs := rest, port := { s.port with argCount := n } }) ∧
    (s.env.inputs = .host .clearDiag :: rest →
      step s = .next { s with env.inputs := rest, port := { s.port with diagStalled := false } }) ∧
    (∀ w, s.env.inputs = .host (.writeCmdw w) :: rest → s.port.busy = false →
      step s = .next { s with env.inputs := rest, port := { s.port with cmdw := w } }) ∧
    (∀ i w, s.env.inputs = .host (.writeBuf i w) :: rest → s.port.busy = false → i < Config.bufDepth →
      ∃ t, step s = .next t ∧ t = { s with env.inputs := rest, port := { s.port with buf := t.port.buf } } ∧
        t.port.buf[i]? = some w ∧ ∀ j, j ≠ i → t.port.buf[j]? = s.port.buf[j]?) ∧
    (∀ w, s.env.inputs = .host (.writeCmdw w) :: rest → s.port.busy = true → step s = .fault .cmdwWrittenWhileBusy) ∧
    (∀ i w, s.env.inputs = .host (.writeBuf i w) :: rest → s.port.busy = true → step s = .fault .bufWrittenWhileBusy) ∧
    (∀ i w, s.env.inputs = .host (.writeBuf i w) :: rest → s.port.busy = false → Config.bufDepth ≤ i →
      step s = .fault .bufIndexBeyondDepth) ∧
    (∀ m t, s.env.inputs = .host m :: rest → m ≠ .start → m ≠ .run → (m = .wait → s.port.busy = false) →
      step s = .next t → t.pins = s.pins ∧ t.latch = s.latch ∧ t.seq = s.seq))

/-- Operands are latched (20 R69, 10 R33, the spec's decision D14): what stands in the operand registers while a command
runs does not affect it. -/
def Obligations.OperandWritesDoNotReachTheRunningCommand : Prop :=
  ∀ (s t : State) (a d : Word) (n : Nat), s.port.busy = true → engineStep s = .next t →
    engineStep { s with port := { s.port with argAddr := a, argData := d, argCount := n } } =
      .next { t with port := { t.port with argAddr := a, argData := d, argCount := n } }

/-- The sequencer refines the command (10 R36, 42 R179, R270): after the bare event `start`, stepping an undisturbed engine
comes, in a bounded number of steps, to exactly the state that the instruction's meaning gives. That the blocking call is
one step, that frames and ACKs run as instructions, and how fine a step is are the model's choices (logs 12, 17, 31). -/
def Obligations.SteppingReachesTheMeaning : Prop :=
  ∀ (s t : State) (i : Instr), s.port.busy = false → s.seq.pos = .idle → s.env.inputs = [] →
    decode (.cmdw s.port.cmdw) = .ok i → exec i s = .next t →
    ∃ n, n ≤ 10 * Config.waitRetryBound * (s.port.argCount + 12) ∧
      Host.Core.run Sys2Proof.core (n + 1) { s with env.inputs := [.host .start] } = .next t

/-- What power-on leaves (70 R250), the values the spec gives; and the power-on input, no move of the host, brings every
field of the engine there, with no pin event, the inputs to come untouched (log 23). -/
def Obligations.PowerOnState : Prop :=
  State.reset.pins.bound = false ∧ State.reset.pins.dir = .input ∧ State.reset.pins.clkDir = .input ∧
  State.reset.port.busy = false ∧ State.reset.port.done = false ∧ State.reset.port.success = false ∧
  State.reset.port.status = 0#6 ∧ State.reset.port.diagStalled = false ∧ State.reset.port.cmdw = 0#32 ∧
  ∀ (s : State) (rest : List Input), s.env.inputs = .powerOn :: rest →
    ∃ t, step s = .next t ∧ t.pins = State.reset.pins ∧ t.port = State.reset.port ∧ t.latch = State.reset.latch ∧
      t.seq = State.reset.seq ∧ t.env.inputs = rest ∧ t.env.samples = s.env.samples ∧ t.pinTrace = []

/-! ## Invariants -/

/-- The invariant holds after power-on. -/
def Obligations.InvariantHoldsAtReset : Prop := Inv State.reset

/-- Every step keeps the invariant: the idle state of 10 R27 between commands, the line of every position of a running
command (42 R179, 40 R128), a status that is never WAIT (30 R98), SUCCESS as 10 R34 says. -/
def Obligations.EveryStepKeepsTheInvariant : Prop :=
  ∀ s t : State, Inv s → step s = .next t → Inv t

/-- The two levels of observation agree at every step (00 R6): the pin-level trace is the expansion of the
primitive-level trace. -/
def Obligations.TracesAgree : Prop :=
  ∀ s t : State, s.pinTrace = s.env.calls.reverse.flatMap Call.expand → step s = .next t →
    t.pinTrace = t.env.calls.reverse.flatMap Call.expand

/-- The pins are what the pin events wrote, at every step (40 R120): from the power-on pins, replaying the trace gives the
direction, the latch, the clock level and the clock direction. That the latch and the clock level are 0 after power-on, from
which the replay starts and to which a power-on goes back, is the model's choice (logs 1, 23): 70 R250 leaves both
unspecified. -/
def Obligations.PinsFollowTheTrace : Prop :=
  ∀ s t : State,
    (∀ x : Pins, x = replay Pins.atReset s.pinTrace →
      s.pins.dir = x.dir ∧ s.pins.dio = x.dio ∧ s.pins.clk = x.clk ∧ s.pins.clkDir = x.clkDir) →
    step s = .next t →
    (∀ x : Pins, x = replay Pins.atReset t.pinTrace →
      t.pins.dir = x.dir ∧ t.pins.dio = x.dio ∧ t.pins.clk = x.clk ∧ t.pins.clkDir = x.clkDir)

/-- The engine never stops (42 R181, 93 U16): no step is refused, and from a state with the invariant the only stops are
the host's moves that the spec does not give it. -/
def Obligations.OnlyTheHostCanStopTheMachine : Prop :=
  (∀ (s : State) (r : Refusal), step s ≠ .refused r) ∧
  ∀ (s : State) (f : Fault), Inv s → step s = .fault f →
    ∃ rest,
      (∃ w, s.env.inputs = .host (.writeCmdw w) :: rest ∧ s.port.busy = true) ∨
      (∃ i w, s.env.inputs = .host (.writeBuf i w) :: rest ∧ (s.port.busy = true ∨ Config.bufDepth ≤ i))
end

