-- ==== Sys2Proof/Laws/State.lean ====
section
/-! SUPPORT. What each small state update leaves in each part of the state: one lemma per part per update. -/

namespace Sys2Proof.Machine

@[simp] theorem pin_pins (e : PinEvent) (s : State) : (pin e s).pins = e.apply s.pins := rfl
@[simp] theorem pin_port (e : PinEvent) (s : State) : (pin e s).port = s.port := rfl
@[simp] theorem pin_latch (e : PinEvent) (s : State) : (pin e s).latch = s.latch := rfl
@[simp] theorem pin_seq (e : PinEvent) (s : State) : (pin e s).seq = s.seq := rfl
@[simp] theorem pin_samples (e : PinEvent) (s : State) : (pin e s).env.samples = s.env.samples := rfl
@[simp] theorem pin_fresh (e : PinEvent) (s : State) : (pin e s).env.fresh = s.env.fresh := rfl
@[simp] theorem pin_inputs (e : PinEvent) (s : State) : (pin e s).env.inputs = s.env.inputs := rfl
@[simp] theorem pin_trace (e : PinEvent) (s : State) : (pin e s).env.trace = e :: s.env.trace := rfl
@[simp] theorem pin_calls (e : PinEvent) (s : State) : (pin e s).env.calls = s.env.calls := rfl

@[simp] theorem note_pins (c : Call) (s : State) : (note c s).pins = s.pins := rfl
@[simp] theorem note_port (c : Call) (s : State) : (note c s).port = s.port := rfl
@[simp] theorem note_latch (c : Call) (s : State) : (note c s).latch = s.latch := rfl
@[simp] theorem note_seq (c : Call) (s : State) : (note c s).seq = s.seq := rfl
@[simp] theorem note_samples (c : Call) (s : State) : (note c s).env.samples = s.env.samples := rfl
@[simp] theorem note_fresh (c : Call) (s : State) : (note c s).env.fresh = s.env.fresh := rfl
@[simp] theorem note_inputs (c : Call) (s : State) : (note c s).env.inputs = s.env.inputs := rfl
@[simp] theorem note_trace (c : Call) (s : State) : (note c s).env.trace = s.env.trace := rfl
@[simp] theorem note_calls (c : Call) (s : State) : (note c s).env.calls = c :: s.env.calls := rfl

@[simp] theorem setBuf_pins (s : State) (i : Nat) (v : Word) : (s.setBuf i v).pins = s.pins := rfl
@[simp] theorem setBuf_latch (s : State) (i : Nat) (v : Word) : (s.setBuf i v).latch = s.latch := rfl
@[simp] theorem setBuf_seq (s : State) (i : Nat) (v : Word) : (s.setBuf i v).seq = s.seq := rfl
@[simp] theorem setBuf_env (s : State) (i : Nat) (v : Word) : (s.setBuf i v).env = s.env := rfl
@[simp] theorem setBuf_buf (s : State) (i : Nat) (v : Word) :
    (s.setBuf i v).port.buf = s.port.buf.setIfInBounds i v := rfl
@[simp] theorem setBuf_result (s : State) (i : Nat) (v : Word) : (s.setBuf i v).port.result = s.port.result := rfl
@[simp] theorem setBuf_busy (s : State) (i : Nat) (v : Word) : (s.setBuf i v).port.busy = s.port.busy := rfl
@[simp] theorem setBuf_status (s : State) (i : Nat) (v : Word) : (s.setBuf i v).port.status = s.port.status := rfl
@[simp] theorem setBuf_diag (s : State) (i : Nat) (v : Word) :
    (s.setBuf i v).port.diagStalled = s.port.diagStalled := rfl

@[simp] theorem freeBuf_pins (lo : Nat) (s : State) : (s.freeBuf lo).pins = s.pins := rfl
@[simp] theorem freeBuf_latch (lo : Nat) (s : State) : (s.freeBuf lo).latch = s.latch := rfl
@[simp] theorem freeBuf_seq (lo : Nat) (s : State) : (s.freeBuf lo).seq = s.seq := rfl
@[simp] theorem freeBuf_samples (lo : Nat) (s : State) : (s.freeBuf lo).env.samples = s.env.samples := rfl
@[simp] theorem freeBuf_inputs (lo : Nat) (s : State) : (s.freeBuf lo).env.inputs = s.env.inputs := rfl
@[simp] theorem freeBuf_trace (lo : Nat) (s : State) : (s.freeBuf lo).env.trace = s.env.trace := rfl
@[simp] theorem freeBuf_calls (lo : Nat) (s : State) : (s.freeBuf lo).env.calls = s.env.calls := rfl
@[simp] theorem freeBuf_fresh (lo : Nat) (s : State) : (s.freeBuf lo).env.fresh = s.env.fresh + Config.bufDepth := rfl
@[simp] theorem freeBuf_port (lo : Nat) (s : State) :
    (s.freeBuf lo).port = { s.port with buf := (s.freeBuf lo).port.buf } := rfl

/-- The entries before those that become unspecified keep their content. -/
theorem freeBuf_below (lo : Nat) (s : State) (i : Nat) (h : i < lo) : (s.freeBuf lo).port.buf[i]? = s.port.buf[i]? := by
  have : ¬ lo ≤ i := by omega
  simp [State.freeBuf, this]

/-- An entry that becomes unspecified holds a free value. -/
theorem freeBuf_from (lo : Nat) (s : State) (i : Nat) (h : lo ≤ i) (hi : i < Config.bufDepth) :
    (s.freeBuf lo).port.buf[i]? = some (Config.freeEntry (s.env.fresh + i)) := by
  simp [State.freeBuf, h, hi]

/-- The low bit of the pin that an operand names is the low bit of the operand, whatever the width of PIN_ID. -/
theorem pinOf_bit (w : Word) : (pinOf w).getLsbD 0 = w.getLsbD 0 := by
  simp [pinOf, Config.pinIdWidth, BitVec.getLsbD]

@[simp] theorem latchOperands_pins (s : State) : s.latchOperands.pins = s.pins := rfl
@[simp] theorem latchOperands_seq (s : State) : s.latchOperands.seq = s.seq := rfl
@[simp] theorem latchOperands_env (s : State) : s.latchOperands.env = s.env := rfl
@[simp] theorem latchOperands_buf (s : State) : s.latchOperands.port.buf = s.port.buf := rfl
@[simp] theorem latchOperands_result (s : State) : s.latchOperands.port.result = s.port.result := rfl
@[simp] theorem latchOperands_diag (s : State) : s.latchOperands.port.diagStalled = s.port.diagStalled := rfl
@[simp] theorem latchOperands_busy (s : State) : s.latchOperands.port.busy = true := rfl
@[simp] theorem latchOperands_cmdw (s : State) : s.latchOperands.latch.cmdw = s.port.cmdw := rfl
@[simp] theorem latchOperands_addr (s : State) : s.latchOperands.latch.addr = s.port.argAddr := rfl
@[simp] theorem latchOperands_data (s : State) : s.latchOperands.latch.data = s.port.argData := rfl
@[simp] theorem latchOperands_count (s : State) : s.latchOperands.latch.count = s.port.argCount := rfl

@[simp] theorem endCommand_pins (v : Bool) (st : Status) (s : State) : (endCommand v st s).pins = s.pins := rfl
@[simp] theorem endCommand_latch (v : Bool) (st : Status) (s : State) : (endCommand v st s).latch = s.latch := rfl
@[simp] theorem endCommand_env (v : Bool) (st : Status) (s : State) : (endCommand v st s).env = s.env := rfl
@[simp] theorem endCommand_pos (v : Bool) (st : Status) (s : State) : (endCommand v st s).seq.pos = .idle := rfl
@[simp] theorem endCommand_buf (v : Bool) (st : Status) (s : State) :
    (endCommand v st s).port.buf = s.port.buf := rfl
@[simp] theorem endCommand_diag (v : Bool) (st : Status) (s : State) :
    (endCommand v st s).port.diagStalled = s.port.diagStalled := rfl
@[simp] theorem endCommand_status (v : Bool) (st : Status) (s : State) :
    (endCommand v st s).port.status = st.code := rfl
@[simp] theorem endCommand_success (v : Bool) (st : Status) (s : State) :
    (endCommand v st s).port.success = st.isOk := rfl
@[simp] theorem endCommand_busy (v : Bool) (st : Status) (s : State) : (endCommand v st s).port.busy = false := rfl
@[simp] theorem endCommand_done (v : Bool) (st : Status) (s : State) : (endCommand v st s).port.done = true := rfl
@[simp] theorem endCommand_result (v : Bool) (st : Status) (s : State) :
    (endCommand v st s).port.result =
      if v then (if st = .ok then s.seq.held else Config.sentinel) else s.port.result := rfl

@[simp] theorem refuseCommand_pins (v : Bool) (s : State) : (refuseCommand v s).pins = s.pins := rfl
@[simp] theorem refuseCommand_latch (v : Bool) (s : State) : (refuseCommand v s).latch = s.latch := rfl
@[simp] theorem refuseCommand_seq (v : Bool) (s : State) : (refuseCommand v s).seq = s.seq := rfl
@[simp] theorem refuseCommand_env (v : Bool) (s : State) : (refuseCommand v s).env = s.env := rfl

end Sys2Proof.Machine
end

