-- ==== Sys2Proof/Laws/Primitives.lean ====
section
/-! SUPPORT. The micro-operations, each said once as the list of pin events it makes (40 R121 to R126). -/

namespace Sys2Proof.Machine

/-- Making a list of pin events, oldest first. -/
def emit (es : List PinEvent) (s : State) : State :=
  { s with pins := replay s.pins es, env.trace := es.reverse ++ s.env.trace }

@[simp] theorem emit_port (es : List PinEvent) (s : State) : (emit es s).port = s.port := rfl
@[simp] theorem emit_latch (es : List PinEvent) (s : State) : (emit es s).latch = s.latch := rfl
@[simp] theorem emit_seq (es : List PinEvent) (s : State) : (emit es s).seq = s.seq := rfl
@[simp] theorem emit_pins (es : List PinEvent) (s : State) : (emit es s).pins = replay s.pins es := rfl
@[simp] theorem emit_samples (es : List PinEvent) (s : State) : (emit es s).env.samples = s.env.samples := rfl
@[simp] theorem emit_fresh (es : List PinEvent) (s : State) : (emit es s).env.fresh = s.env.fresh := rfl
@[simp] theorem emit_inputs (es : List PinEvent) (s : State) : (emit es s).env.inputs = s.env.inputs := rfl
@[simp] theorem emit_calls (es : List PinEvent) (s : State) : (emit es s).env.calls = s.env.calls := rfl
@[simp] theorem emit_trace (es : List PinEvent) (s : State) :
    (emit es s).env.trace = es.reverse ++ s.env.trace := rfl

theorem emit_nil (s : State) : emit [] s = s := rfl

theorem pin_eq_emit (e : PinEvent) (s : State) : pin e s = emit [e] s := rfl

theorem replay_append (p : Pins) (es fs : List PinEvent) : replay p (es ++ fs) = replay (replay p es) fs := by
  simp [replay, List.foldl_append]

theorem emit_emit (es fs : List PinEvent) (s : State) : emit fs (emit es s) = emit (es ++ fs) s := by
  simp only [emit, replay_append, List.reverse_append, List.append_assoc]

theorem tick_eq (s : State) : tick s = emit tickEvents s := rfl

theorem ticks_eq (n : Nat) (s : State) : ticks n s = emit (List.replicate n tickEvents).flatten s := by
  induction n generalizing s with
  | zero => rfl
  | succ n ih => rw [ticks, ih, tick_eq, emit_emit, List.replicate_succ, List.flatten_cons]

/-- `clock(n)` (40 R121). -/
theorem clock_eq (n : Nat) (s : State) : clock n s = emit (Call.expand (.clock n)) (note (.clock n) s) := ticks_eq n _

theorem writeFrom_eq (w : Word) (k i : Nat) (s : State) :
    writeFrom w i k s =
      emit (((List.range k).map fun j => w.getLsbD (i + j)).flatMap fun b => .dio b :: tickEvents)
        { s with seq := { s.seq with bit := if k = 0 then s.seq.bit else i + k } } := by
  induction k generalizing i s with
  | zero => rfl
  | succ k ih =>
    have hs : tick (pin (.dio (w.getLsbD i)) { s with seq.bit := i + 1 }) =
        emit (.dio (w.getLsbD i) :: tickEvents) { s with seq := { s.seq with bit := i + 1 } } := rfl
    have hf : (fun j => w.getLsbD (i + 1 + j)) = (fun j => w.getLsbD (i + j)) ∘ Nat.succ := by
      funext j; simp [Nat.add_assoc, Nat.add_comm 1]
    rw [writeFrom, hs, ih, List.range_succ_eq_map, List.map_cons, List.map_map, List.flatMap_cons, ← emit_emit, hf]
    rcases k with _ | k <;> simp [emit, Nat.add_assoc, Nat.add_comm 1]

/-- `write(word, len)` (40 R122). -/
theorem write_eq (w : Word) (n : Nat) (s : State) :
    write w n s =
      emit (Call.expand (.write w n)) { note (.write w n) s with seq.shift := w, seq.bit := n } := by
  rw [write, writeFrom_eq, pin_eq_emit, emit_emit]
  rcases n with _ | n <;> simp [Call.expand, wireOf]

/-- `turn(d)` (40 R124, R125). -/
theorem turn_eq (d : Dir) (s : State) : turn d s = emit (Call.expand (.turn d)) (note (.turn d) s) := by
  cases d <;> rfl

/-- `pad()` (40 R126). -/
theorem pad_eq (s : State) : pad s = emit (Call.expand .pad) (note .pad s) := rfl

/-- A call of the collaborator (60 R238). -/
theorem gpio_eq (e : PinEvent) (s : State) : gpio e s = emit (Call.expand (.gpio e)) (note (.gpio e) s) := rfl

/-- What is left of the environment after n answers. -/
def Env.drop (e : Env) (n : Nat) : Env :=
  { e with samples := e.samples.drop n, fresh := e.fresh + (n - e.samples.length) }

theorem answers_length (e : Env) (n : Nat) : (e.answers n).length = n := by
  simp [Env.answers]; omega

theorem answers_succ (e : Env) (n : Nat) :
    e.answers (n + 1) = (e.answers 1).headD false :: (e.drop 1).answers n := by
  obtain ⟨samples, fresh, host, trace, calls⟩ := e
  rcases samples with _ | ⟨b, r⟩
  · simp [Env.answers, Env.drop, List.range_succ_eq_map, Function.comp_def, Nat.add_comm, Nat.add_left_comm]
  · simp [Env.answers, Env.drop]

theorem answers_of_script (e : Env) (bs rest : List Bool) (h : e.samples = bs ++ rest) :
    e.answers bs.length = bs := by
  simp [Env.answers, h]

theorem drop_of_script (e : Env) (bs rest : List Bool) (h : e.samples = bs ++ rest) :
    e.drop bs.length = { e with samples := rest } := by
  simp [Env.drop, h]

theorem sample_eq (s : State) :
    sample s = ((s.env.answers 1).headD false,
      emit [.sample ((s.env.answers 1).headD false)] { s with env := s.env.drop 1 }) := by
  obtain ⟨pins, port, latch, seq, ⟨samples, fresh, host, trace, calls⟩⟩ := s
  cases samples <;> simp [sample, drawSample, Env.answers, Env.drop, pin_eq_emit, emit]

@[simp] theorem drop_inputs (e : Env) (n : Nat) : (e.drop n).inputs = e.inputs := rfl
@[simp] theorem drop_trace (e : Env) (n : Nat) : (e.drop n).trace = e.trace := rfl
@[simp] theorem drop_calls (e : Env) (n : Nat) : (e.drop n).calls = e.calls := rfl

theorem drop_drop (e : Env) (m n : Nat) : (e.drop m).drop n = e.drop (m + n) := by
  simp [Env.drop, List.drop_drop]; omega

theorem readFrom_eq (k i : Nat) (s : State) :
    readFrom i k s =
      emit ((s.env.answers k).flatMap fun b => .sample b :: tickEvents)
        { s with
          seq := { s.seq with
            shift := assembleFrom s.seq.shift i (s.env.answers k)
            bit := if k = 0 then s.seq.bit else i + k }
          env := s.env.drop k } := by
  induction k generalizing i s with
  | zero => simp [readFrom, emit, replay, Env.answers, Env.drop, assembleFrom]
  | succ k ih =>
    have hs : readFrom i (k + 1) s =
        readFrom (i + 1) k (emit (.sample ((s.env.answers 1).headD false) :: tickEvents)
          { s with
            seq := { s.seq with
              shift := placeBit s.seq.shift i ((s.env.answers 1).headD false)
              bit := i + 1 }
            env := s.env.drop 1 }) := by
      rw [readFrom, sample_eq]; rfl
    rw [hs, ih, answers_succ s.env k, List.flatMap_cons, ← emit_emit]
    generalize (s.env.answers 1).headD false = b
    have ha : ∀ (es : List PinEvent) (x : State), (emit es x).env.answers k = x.env.answers k := fun _ _ => rfl
    have hd : ∀ (es : List PinEvent) (x : State),
        (emit es x).env.drop k = { x.env.drop k with trace := es.reverse ++ x.env.trace } := fun _ _ => rfl
    simp only [ha, hd, drop_drop, assembleFrom, emit_seq, Nat.add_comm 1 k]
    rcases k with _ | k <;> simp [emit, Nat.add_assoc, Nat.add_comm 1]

/-! ## Values on the wire -/

theorem wireOf_length (w : Word) (n : Nat) : (wireOf w n).length = n := by simp [wireOf]

theorem placeBit_getLsbD (v : Word) (i : Nat) (b : Bool) (j : Nat) (hi : i < 32) :
    (placeBit v i b).getLsbD j = (v.getLsbD j || (decide (j = i) && b)) := by
  cases b
  · simp [placeBit]
  · have h1 : (1#32 <<< i).getLsbD j = decide (j = i) := by
      rw [BitVec.getLsbD_shiftLeft, BitVec.getLsbD_one]
      by_cases h : j = i
      · subst h; simp [hi]
      · have : ¬ (j - i = 0 ∧ ¬ j < i) := by omega
        simp [h]; omega
    simp [placeBit, h1]

theorem assembleFrom_getLsbD (bs : List Bool) (v : Word) (i j : Nat) (h : i + bs.length ≤ 32) :
    (assembleFrom v i bs).getLsbD j = (v.getLsbD j || (decide (i ≤ j) && bs.getD (j - i) false)) := by
  induction bs generalizing v i with
  | nil => simp [assembleFrom]
  | cons b bs ih =>
    simp only [List.length_cons] at h
    rw [assembleFrom, ih _ _ (by omega), placeBit_getLsbD _ _ _ _ (by omega)]
    rcases Nat.lt_trichotomy j i with hj | rfl | hj
    · simp [show ¬ i ≤ j by omega, show ¬ i + 1 ≤ j by omega, show j ≠ i by omega]
    · simp
    · obtain ⟨d, rfl⟩ : ∃ d, j = i + 1 + d := ⟨j - (i + 1), by omega⟩
      simp [show i + 1 + d - i = d + 1 by omega, show i + 1 + d ≠ i by omega, show i ≤ i + 1 + d by omega]

/-- The value `read` assembles: the first sample in bit 0, the bits above the last sample 0 (40 R123). -/
theorem assemble_getLsbD (bs : List Bool) (j : Nat) (h : bs.length ≤ 32) :
    (assemble bs).getLsbD j = bs.getD j false := by
  simp [assemble, assembleFrom_getLsbD bs 0#32 0 j (by omega)]

/-- The bits of an assembled value are the samples. -/
theorem wireOf_assemble (bs : List Bool) (h : bs.length ≤ 32) : wireOf (assemble bs) bs.length = bs := by
  refine List.ext_getElem (by simp [wireOf]) fun i h1 h2 => ?_
  simp [wireOf, assemble_getLsbD bs _ h, List.getElem?_eq_getElem h2]

/-- A word sent bit 0 first and assembled again is the word (20 R57). -/
theorem assemble_wireOf (w : Word) : assemble (wireOf w 32) = w := by
  refine BitVec.eq_of_getLsbD_eq fun i hi => ?_
  rw [assemble_getLsbD _ _ (by simp [wireOf])]
  simp [wireOf, hi]

/-- `read(len)` (40 R123). -/
theorem read_eq (n : Nat) (s : State) (h : n ≤ 32) :
    read n s =
      emit (Call.expand (.read n (assemble (s.env.answers n))))
        (note (.read n (assemble (s.env.answers n)))
          { s with
            seq := { s.seq with shift := assemble (s.env.answers n), bit := n }
            env := s.env.drop n }) := by
  have hw : wireOf (assemble (s.env.answers n)) n = s.env.answers n := by
    have := wireOf_assemble (s.env.answers n) (by rw [answers_length]; omega)
    rwa [answers_length] at this
  rw [read, readFrom_eq, Call.expand, hw]
  rcases n with _ | n <;> simp [emit, note, assemble]

end Sys2Proof.Machine
end

