-- ==== Sys2Proof/Laws/Transactions.lean ====
section
/-! SUPPORT. Transactions (42 R165 to R167), each said once: the calls it makes, the answers it takes, and what it
comes to. -/

namespace Sys2Proof.Machine

/-- Making a list of primitive calls, oldest first. -/
def perform (cs : List Call) (s : State) : State :=
  emit (cs.flatMap Call.expand) { s with env := { s.env with calls := cs.reverse ++ s.env.calls } }

@[simp] theorem perform_port (cs : List Call) (s : State) : (perform cs s).port = s.port := rfl
@[simp] theorem perform_latch (cs : List Call) (s : State) : (perform cs s).latch = s.latch := rfl
@[simp] theorem perform_seq (cs : List Call) (s : State) : (perform cs s).seq = s.seq := rfl
@[simp] theorem perform_pins (cs : List Call) (s : State) :
    (perform cs s).pins = replay s.pins (cs.flatMap Call.expand) := rfl
@[simp] theorem perform_samples (cs : List Call) (s : State) : (perform cs s).env.samples = s.env.samples := rfl
@[simp] theorem perform_fresh (cs : List Call) (s : State) : (perform cs s).env.fresh = s.env.fresh := rfl
@[simp] theorem perform_inputs (cs : List Call) (s : State) : (perform cs s).env.inputs = s.env.inputs := rfl
@[simp] theorem perform_calls (cs : List Call) (s : State) :
    (perform cs s).env.calls = cs.reverse ++ s.env.calls := rfl
@[simp] theorem perform_trace (cs : List Call) (s : State) :
    (perform cs s).env.trace = (cs.flatMap Call.expand).reverse ++ s.env.trace := rfl
@[simp] theorem perform_answers (cs : List Call) (s : State) (n : Nat) :
    (perform cs s).env.answers n = s.env.answers n := rfl

theorem perform_nil (s : State) : perform [] s = s := rfl

theorem perform_perform (cs ds : List Call) (s : State) : perform ds (perform cs s) = perform (cs ++ ds) s := by
  simp [perform, emit, replay_append, List.flatMap_append]

theorem emit_note_eq (c : Call) (s : State) : emit c.expand (note c s) = perform [c] s := by
  simp [perform, note]

/-- The calls that take answers from the environment leave the rest of the state to their own updates. -/
def take (n : Nat) (s : State) : State := { s with env := s.env.drop n }

@[simp] theorem take_port (n : Nat) (s : State) : (take n s).port = s.port := rfl
@[simp] theorem take_pins (n : Nat) (s : State) : (take n s).pins = s.pins := rfl
@[simp] theorem take_latch (n : Nat) (s : State) : (take n s).latch = s.latch := rfl
@[simp] theorem take_seq (n : Nat) (s : State) : (take n s).seq = s.seq := rfl
@[simp] theorem take_samples (n : Nat) (s : State) : (take n s).env.samples = s.env.samples.drop n := rfl
@[simp] theorem take_inputs (n : Nat) (s : State) : (take n s).env.inputs = s.env.inputs := rfl
@[simp] theorem take_trace (n : Nat) (s : State) : (take n s).env.trace = s.env.trace := rfl
@[simp] theorem take_calls (n : Nat) (s : State) : (take n s).env.calls = s.env.calls := rfl

theorem take_perform (n : Nat) (cs : List Call) (s : State) : take n (perform cs s) = perform cs (take n s) := rfl

theorem take_take (m n : Nat) (s : State) : take n (take m s) = take (m + n) s := by
  simp [take, drop_drop]

/-- The shift register and the bit counter after a field. -/
def shifted (w : Word) (n : Nat) (s : State) : State := { s with seq := { s.seq with shift := w, bit := n } }

@[simp] theorem shifted_port (w : Word) (n : Nat) (s : State) : (shifted w n s).port = s.port := rfl
@[simp] theorem shifted_pins (w : Word) (n : Nat) (s : State) : (shifted w n s).pins = s.pins := rfl
@[simp] theorem shifted_latch (w : Word) (n : Nat) (s : State) : (shifted w n s).latch = s.latch := rfl
@[simp] theorem shifted_env (w : Word) (n : Nat) (s : State) : (shifted w n s).env = s.env := rfl
@[simp] theorem shifted_pos (w : Word) (n : Nat) (s : State) : (shifted w n s).seq.pos = s.seq.pos := rfl
@[simp] theorem shifted_attempt (w : Word) (n : Nat) (s : State) : (shifted w n s).seq.attempt = s.seq.attempt := rfl
@[simp] theorem shifted_ack (w : Word) (n : Nat) (s : State) : (shifted w n s).seq.ack = s.seq.ack := rfl
@[simp] theorem shifted_idx (w : Word) (n : Nat) (s : State) : (shifted w n s).seq.idx = s.seq.idx := rfl
@[simp] theorem shifted_shift (w : Word) (n : Nat) (s : State) : (shifted w n s).seq.shift = w := rfl
@[simp] theorem shifted_held (w : Word) (n : Nat) (s : State) : (shifted w n s).seq.held = s.seq.held := rfl

theorem shifted_perform (w : Word) (n : Nat) (cs : List Call) (s : State) :
    shifted w n (perform cs s) = perform cs (shifted w n s) := rfl

theorem shifted_take (w : Word) (n m : Nat) (s : State) : shifted w n (take m s) = take m (shifted w n s) := rfl

theorem shifted_shifted (w v : Word) (n m : Nat) (s : State) : shifted w n (shifted v m s) = shifted w n s := rfl

theorem write_perform (w : Word) (n : Nat) (s : State) : write w n s = perform [.write w n] (shifted w n s) := by
  rw [write_eq, ← emit_note_eq]; rfl

theorem read_perform (n : Nat) (s : State) (h : n ≤ 32) :
    read n s =
      perform [.read n (assemble (s.env.answers n))] (shifted (assemble (s.env.answers n)) n (take n s)) := by
  rw [read_eq n s h, ← emit_note_eq]; rfl

theorem turn_perform (d : Dir) (s : State) : turn d s = perform [.turn d] s := by rw [turn_eq, ← emit_note_eq]
theorem pad_perform (s : State) : pad s = perform [.pad] s := by rw [pad_eq, ← emit_note_eq]
theorem gpio_perform (e : PinEvent) (s : State) : gpio e s = perform [.gpio e] s := by rw [gpio_eq, ← emit_note_eq]
theorem clock_perform (n : Nat) (s : State) : clock n s = perform [.clock n] s := by rw [clock_eq, ← emit_note_eq]

/-- Sending a request frame (42 R165). -/
theorem sendFrame_perform (f : Byte) (s : State) :
    sendFrame f s = perform [.pad, .write (f.setWidth 32) 8, .pad] (shifted (f.setWidth 32) 8 s) := by
  simp only [sendFrame, pad_perform, write_perform, perform_perform, shifted_perform, List.cons_append,
    List.nil_append]

theorem takeLine_perform (s : State) : takeLine s = perform [.turn .output, .pad] s := by
  simp only [takeLine, pad_perform, turn_perform, perform_perform, List.cons_append, List.nil_append]

theorem sendWord_perform (v : Word) (s : State) :
    sendWord v s = perform [.write v 32, .pad] (shifted v 32 s) := by
  simp only [sendWord, pad_perform, write_perform, perform_perform, List.cons_append, List.nil_append]

theorem sendParity_perform (v : Word) (s : State) :
    sendParity v s =
      perform [.write (levelWord (parity v)) 1, .pad] (shifted (levelWord (parity v)) 1 s) := by
  simp only [sendParity, pad_perform, write_perform, perform_perform, List.cons_append, List.nil_append]

/-- The ACK the environment gives next. -/
def nextAck (s : State) : BitVec 3 := (assemble (s.env.answers 3)).setWidth 3

/-- S.ack is written. -/
def acked (a : BitVec 3) (s : State) : State := { s with seq := { s.seq with ack := a } }

theorem acked_perform (a : BitVec 3) (cs : List Call) (s : State) :
    acked a (perform cs s) = perform cs (acked a s) := rfl

theorem readAck_eq (s : State) : readAck s = acked ((read 3 s).seq.shift.setWidth 3) (read 3 s) := rfl

theorem readAck_perform (s : State) :
    readAck s =
      perform [.read 3 (assemble (s.env.answers 3))]
        (acked (nextAck s) (shifted (assemble (s.env.answers 3)) 3 (take 3 s))) := by
  rw [readAck_eq, read_perform 3 s (by omega), acked_perform, perform_seq, shifted_shift, nextAck]

/-- The calls of the request and the ACK (42 R165). -/
def prefixCalls (f : Byte) (a : Word) : List Call :=
  [.pad, .write (f.setWidth 32) 8, .pad, .turn .input, .read 3 a]

/-- The request and the ACK (42 R165). -/
theorem requestAck_perform (r : RegAddr) (rnw : Bool) (s : State) :
    requestAck r rnw s =
      perform (prefixCalls (req r rnw) (assemble (s.env.answers 3)))
        (acked (nextAck s) (shifted (assemble (s.env.answers 3)) 3 (take 3 s))) := by
  rw [requestAck, sendFrame_perform, turn_perform, readAck_perform]
  simp only [perform_perform, prefixCalls, perform_answers, shifted_env, nextAck, take_perform, shifted_perform,
    acked_perform, List.cons_append, List.nil_append]
  rfl

/-- The calls of a write transaction, by what its ACK says (42 R166). -/
def writeCalls (f : Byte) (a v : Word) (ok : Bool) : List Call :=
  prefixCalls f a ++ [.turn .output, .pad] ++
    if ok then [.write v 32, .pad, .write (levelWord (parity v)) 1, .pad] else []

/-- The calls of a read transaction, by what its ACK says (42 R167). -/
def readCalls (f : Byte) (a d p : Word) (ok : Bool) : List Call :=
  prefixCalls f a ++ (if ok then [.read 32 d, .read 1 p] else []) ++ [.turn .output, .pad]

/-- What `xfer_write` comes to (42 R166): the status is the ACK's, and the data phase is made exactly when it is OK. -/
theorem xferWrite_cases (r : RegAddr) (v : Word) (s : State) :
    xferWrite r v s =
      if ackStatus (nextAck s) = .ok then
        ⟨.ok, Config.sentinel,
          perform (writeCalls (req r false) (assemble (s.env.answers 3)) v true)
            (acked (nextAck s) (shifted (levelWord (parity v)) 1 (take 3 s)))⟩
      else
        ⟨ackStatus (nextAck s), Config.sentinel,
          perform (writeCalls (req r false) (assemble (s.env.answers 3)) v false)
            (acked (nextAck s) (shifted (assemble (s.env.answers 3)) 3 (take 3 s)))⟩ := by
  rw [xferWrite, requestAck_perform]
  have ha : (perform (prefixCalls (req r false) (assemble (s.env.answers 3)))
      (acked (nextAck s) (shifted (assemble (s.env.answers 3)) 3 (take 3 s)))).seq.ack = nextAck s := rfl
  simp only [ha]
  split
  · simp only [takeLine_perform, sendWord_perform, sendParity_perform, perform_perform, shifted_perform, writeCalls,
      if_true, List.append_assoc, List.cons_append, List.nil_append]
    rfl
  · simp only [takeLine_perform, perform_perform, writeCalls, Bool.false_eq_true, if_false, List.append_nil]

/-- The data word and the parity bit the environment gives after an ACK. -/
def nextData (s : State) : Word := assemble ((s.env.drop 3).answers 32)
def nextPar (s : State) : Word := assemble ((s.env.drop 35).answers 1)

theorem nextData_eq (s : State) : nextData s = assemble ((s.env.drop 3).answers 32) := rfl
theorem nextPar_eq (s : State) : nextPar s = assemble ((s.env.drop 35).answers 1) := rfl

/-- What `xfer_read` comes to (42 R167, R168): the ACK is classified first; the data phase is made exactly when it is
OK; the parity check comes last. -/
theorem xferRead_cases (r : RegAddr) (s : State) :
    xferRead r s =
      if ackStatus (nextAck s) = .ok then
        let t := perform (readCalls (req r true) (assemble (s.env.answers 3)) (nextData s) (nextPar s) true)
          (acked (nextAck s) (shifted (nextPar s) 1 (take 36 s)))
        if checkRead (nextData s) ((nextPar s).getLsbD 0) = .ok then ⟨.ok, nextData s, t⟩
        else ⟨.protocolError, Config.sentinel, t⟩
      else
        ⟨ackStatus (nextAck s), Config.sentinel,
          perform (readCalls (req r true) (assemble (s.env.answers 3)) (nextData s) (nextPar s) false)
            (acked (nextAck s) (shifted (assemble (s.env.answers 3)) 3 (take 3 s)))⟩ := by
  rw [xferRead, requestAck_perform]
  have ha : (perform (prefixCalls (req r true) (assemble (s.env.answers 3)))
      (acked (nextAck s) (shifted (assemble (s.env.answers 3)) 3 (take 3 s)))).seq.ack = nextAck s := rfl
  simp only [ha]
  split
  · rw [read_perform 32 _ (by omega), read_perform 1 _ (by omega)]
    simp only [perform_answers, shifted_env, takeLine_perform, perform_perform, readCalls, if_true,
      List.append_assoc, List.cons_append, List.nil_append, shifted_perform, take_perform, perform_seq, shifted_shift]
    have h32 : (acked (nextAck s) (shifted (assemble (s.env.answers 3)) 3 (take 3 s))).env.answers 32 =
        (s.env.drop 3).answers 32 := rfl
    have h1 : (take 32 (acked (nextAck s) (shifted (assemble (s.env.answers 3)) 3 (take 3 s)))).env.answers 1 =
        (s.env.drop 35).answers 1 := by
      show ((s.env.drop 3).drop 32).answers 1 = _
      rw [drop_drop]
    have ht : ∀ w : Word, shifted w 1 (take 1 (shifted (nextData s) 32 (take 32 (acked (nextAck s)
        (shifted (assemble (s.env.answers 3)) 3 (take 3 s)))))) =
        acked (nextAck s) (shifted w 1 (take 36 s)) := by
      intro w
      show shifted w 1 (acked (nextAck s) (take 1 (take 32 (take 3 s)))) = _
      rw [take_take, take_take]; rfl
    simp only [h32, h1, ← nextData_eq, ← nextPar_eq, ht]
  · simp only [takeLine_perform, perform_perform, readCalls, Bool.false_eq_true, if_false, List.append_nil]

end Sys2Proof.Machine
end

