-- ==== Sys2Proof/Laws/Wire.lean ====
section
/-! SUPPORT. What the expansion of a primitive call does to the pins, how many ticks it has, what it drives and
whether it owns the line (40 R121 to R128). -/

namespace Sys2Proof.Machine

/-! ## The pins -/

theorem replay_cons (p : Pins) (e : PinEvent) (es : List PinEvent) : replay p (e :: es) = replay (e.apply p) es := rfl

theorem replay_tickEvents (p : Pins) : replay p tickEvents = { p with clk := true } := rfl

theorem replay_ticks (p : Pins) (n : Nat) :
    replay p (List.replicate n tickEvents).flatten = { p with clk := if n = 0 then p.clk else true } := by
  induction n generalizing p with
  | zero => rfl
  | succ n ih =>
    rw [List.replicate_succ, List.flatten_cons, replay_append, replay_tickEvents, ih]
    simp

theorem replay_sent (p : Pins) (bs : List Bool) :
    replay p ((bs.flatMap fun b => .dio b :: tickEvents) ++ [.dio false]) =
      { p with dio := false, clk := if bs = [] then p.clk else true } := by
  induction bs generalizing p with
  | nil => rfl
  | cons b bs ih =>
    rw [List.flatMap_cons, List.append_assoc, replay_append, ih, replay_cons, replay_tickEvents]
    simp [PinEvent.apply]

theorem replay_taken (p : Pins) (bs : List Bool) :
    replay p (bs.flatMap fun b => .sample b :: tickEvents) =
      { p with clk := if bs = [] then p.clk else true } := by
  induction bs generalizing p with
  | nil => rfl
  | cons b bs ih =>
    rw [List.flatMap_cons, replay_append, ih, replay_cons, replay_tickEvents]
    simp [PinEvent.apply]

/-- The pin state after a primitive call. -/
def Call.pins : Call → Pins → Pins
  | .write _ n, p => { p with dio := false, clk := if n = 0 then p.clk else true }
  | .read n _, p => { p with clk := if n = 0 then p.clk else true }
  | .turn d, p => { p with dir := d, clk := true }
  | .clock n, p => { p with clk := if n = 0 then p.clk else true }
  | .pad, p => p
  | .gpio e, p => e.apply p

theorem wireOf_eq_nil (w : Word) (n : Nat) : wireOf w n = [] ↔ n = 0 := by
  rw [← List.length_eq_zero_iff, wireOf_length]

theorem replay_expand (c : Call) (p : Pins) : replay p c.expand = c.pins p := by
  cases c with
  | write w n => simp [Call.expand, Call.pins, replay_sent, wireOf_eq_nil]
  | read n v => simp [Call.expand, Call.pins, replay_taken, wireOf_eq_nil]
  | turn d => cases d <;> rfl
  | clock n => exact replay_ticks p n
  | pad => rfl
  | gpio e => rfl

theorem replay_calls (cs : List Call) (p : Pins) :
    replay p (cs.flatMap Call.expand) = cs.foldl (fun p c => c.pins p) p := by
  induction cs generalizing p with
  | nil => rfl
  | cons c cs ih => rw [List.flatMap_cons, replay_append, replay_expand, ih]; rfl

/-! ## Ticks -/

theorem tickCount_append (es fs : List PinEvent) : tickCount (es ++ fs) = tickCount es + tickCount fs := by
  simp [tickCount]

theorem tickCount_reverse (es : List PinEvent) : tickCount es.reverse = tickCount es := by simp [tickCount]

/-- The ticks of a primitive call (40 R127). -/
def Call.tickLength : Call → Nat
  | .write _ n => n
  | .read n _ => n
  | .turn _ => 1
  | .clock n => n
  | .pad => 0
  | .gpio e => if e = .clk false then 1 else 0

theorem tickCount_flatMap (bs : List Bool) (f : Bool → List PinEvent) (h : ∀ b, tickCount (f b) = 1) :
    tickCount (bs.flatMap f) = bs.length := by
  induction bs with
  | nil => rfl
  | cons b bs ih => rw [List.flatMap_cons, tickCount_append, ih, h, List.length_cons, Nat.add_comm]

theorem tickCount_expand (c : Call) : tickCount c.expand = c.tickLength := by
  cases c with
  | write w n =>
    rw [Call.expand, tickCount_append, tickCount_flatMap _ _ (fun b => by cases b <;> rfl), wireOf_length]
    rfl
  | read n v =>
    rw [Call.expand, tickCount_flatMap _ _ (fun b => by cases b <;> rfl), wireOf_length]
    rfl
  | turn d => cases d <;> rfl
  | clock n =>
    show tickCount (List.replicate n tickEvents).flatten = n
    induction n with
    | zero => rfl
    | succ n ih => rw [List.replicate_succ, List.flatten_cons, tickCount_append, ih, Nat.add_comm]; rfl
  | pad => rfl
  | gpio e => by_cases h : e = .clk false <;> simp [Call.expand, Call.tickLength, tickCount, h]

theorem tickCount_calls (cs : List Call) :
    tickCount (cs.flatMap Call.expand) = (cs.map Call.tickLength).sum := by
  induction cs with
  | nil => rfl
  | cons c cs ih => rw [List.flatMap_cons, tickCount_append, tickCount_expand, ih]; rfl

/-! ## What is driven -/

theorem drivenBits_cons (p : Pins) (e : PinEvent) (es : List PinEvent) :
    drivenBits p (e :: es) = drivenBits p [e] ++ drivenBits (e.apply p) es := by
  by_cases h : e = .clk true
  · subst h
    by_cases hd : p.dir = .output <;> simp [drivenBits, hd, PinEvent.apply]
  · rw [drivenBits, drivenBits, drivenBits] <;> simp [h]

theorem drivenBits_append (p : Pins) (es fs : List PinEvent) :
    drivenBits p (es ++ fs) = drivenBits p es ++ drivenBits (replay p es) fs := by
  induction es generalizing p with
  | nil => rfl
  | cons e es ih =>
    rw [List.cons_append, drivenBits_cons, drivenBits_cons p e es, ih, List.append_assoc]; rfl

/-- The bits a call makes the engine drive, from pin state p (10 R24). -/
def Call.driven : Call → Pins → List Bool
  | .write w n, p => if p.dir = .output then wireOf w n else []
  | .read n _, p => if p.dir = .output then List.replicate n p.dio else []
  | .turn .output, p => if p.dir = .output then [p.dio] else []
  | .turn .input, _ => []
  | .clock n, p => if p.dir = .output then List.replicate n p.dio else []
  | .pad, _ => []
  | .gpio e, p => drivenBits p [e]

theorem drivenBits_sent (p : Pins) (bs : List Bool) :
    drivenBits p (bs.flatMap fun b => .dio b :: tickEvents) = if p.dir = .output then bs else [] := by
  induction bs generalizing p with
  | nil => simp [drivenBits]
  | cons b bs ih =>
    rw [List.flatMap_cons, drivenBits_append, ih, replay_cons, replay_tickEvents]
    by_cases h : p.dir = .output <;> simp [drivenBits, tickEvents, PinEvent.apply, h]

theorem drivenBits_taken (p : Pins) (bs : List Bool) :
    drivenBits p (bs.flatMap fun b => .sample b :: tickEvents) =
      if p.dir = .output then List.replicate bs.length p.dio else [] := by
  induction bs generalizing p with
  | nil => simp [drivenBits]
  | cons b bs ih =>
    rw [List.flatMap_cons, drivenBits_append, ih, replay_cons, replay_tickEvents]
    by_cases h : p.dir = .output <;> simp [drivenBits, tickEvents, PinEvent.apply, h, List.replicate_succ]

theorem drivenBits_expand (c : Call) (p : Pins) : drivenBits p c.expand = c.driven p := by
  cases c with
  | write w n =>
    rw [Call.expand, drivenBits_append, drivenBits_sent]
    simp [drivenBits, Call.driven]
  | read n v => rw [Call.expand, drivenBits_taken, wireOf_length]; rfl
  | turn d =>
    cases d
    · simp [Call.expand, Call.driven, drivenBits, tickEvents, PinEvent.apply]
    · by_cases h : p.dir = .output <;> simp [Call.expand, Call.driven, drivenBits, tickEvents, PinEvent.apply, h]
  | clock n =>
    show drivenBits p (List.replicate n tickEvents).flatten = if p.dir = .output then List.replicate n p.dio else []
    induction n generalizing p with
    | zero => simp [drivenBits]
    | succ n ih =>
      rw [List.replicate_succ, List.flatten_cons, drivenBits_append, ih, replay_tickEvents]
      by_cases h : p.dir = .output <;> simp [drivenBits, tickEvents, PinEvent.apply, h, List.replicate_succ]
  | pad => rfl
  | gpio e => rfl

/-! ## Who owns the line -/

/-- The direction of the data line after a call. -/
def Call.dirAfter : Call → Dir → Dir
  | .turn d, _ => d
  | .gpio (.dir d), _ => d
  | _, d => d

/-- A call that may be made with the line in direction d (40 R128). -/
def Call.fits : Call → Dir → Bool
  | .write _ _, d => d == .output
  | .read n _, d => n == 0 || d == .input
  | .gpio (.sample _), d => d == .input
  | .gpio (.dio _), d => d == .output
  | _, _ => true

theorem ownsLine_tick (d : Dir) (es : List PinEvent) : ownsLine d (tickEvents ++ es) = ownsLine d es := rfl

theorem ownsLine_expand (c : Call) (d : Dir) (es : List PinEvent) :
    ownsLine d (c.expand ++ es) = (c.fits d && ownsLine (c.dirAfter d) es) := by
  cases c with
  | write w n =>
    rw [Call.expand]
    generalize wireOf w n = bs
    induction bs with
    | nil => rfl
    | cons b bs ih =>
      have hc : ((b :: bs).flatMap fun b => PinEvent.dio b :: tickEvents) ++ [.dio false] ++ es =
          .dio b :: (tickEvents ++ ((bs.flatMap fun b => PinEvent.dio b :: tickEvents) ++ [.dio false] ++ es)) := by
        simp
      rw [hc, ownsLine, ownsLine_tick, ih]
      cases d <;> rfl
  | read n v =>
    have hr : ∀ bs : List Bool, ownsLine d ((bs.flatMap fun b => PinEvent.sample b :: tickEvents) ++ es) =
        ((bs.length == 0 || d == .input) && ownsLine d es) := by
      intro bs
      induction bs with
      | nil => simp
      | cons b bs ih =>
        rw [List.flatMap_cons, List.append_assoc, List.cons_append, ownsLine, ownsLine_tick, ih]
        cases d <;> simp [show (Dir.output == Dir.input) = false from rfl]
    rw [Call.expand, hr, wireOf_length]; rfl
  | turn d' => cases d' <;> rfl
  | clock n =>
    show ownsLine d ((List.replicate n tickEvents).flatten ++ es) = (true && ownsLine d es)
    induction n with
    | zero => rfl
    | succ n ih =>
      rw [List.replicate_succ, List.flatten_cons, List.append_assoc, ownsLine_tick, ih]
  | pad => rfl
  | gpio e => cases e <;> simp [Call.expand, ownsLine, Call.fits, Call.dirAfter]

end Sys2Proof.Machine
end

