-- ==== Sys2Proof/Laws/Accesses.lean ====
section
/-! SUPPORT. Accesses and microprograms (42 R170, 43 R190): the calls they make whatever the samples, and what they
leave alone. -/

namespace Sys2Proof.Machine

/-- From s to t the engine made the calls ps, and no other part of the state changed that a host, a command or the
invariant can tell. -/
structure Worked (ps : List Call) (s t : State) : Prop where
  port : t.port = s.port
  latch : t.latch = s.latch
  pos : t.seq.pos = s.seq.pos
  held : t.seq.held = s.seq.held
  host : t.env.inputs = s.env.inputs
  pins : t.pins = ps.foldl (fun p c => c.pins p) s.pins
  calls : t.env.calls = ps.reverse ++ s.env.calls
  trace : t.env.trace = (ps.flatMap Call.expand).reverse ++ s.env.trace

theorem Worked.refl (s : State) : Worked [] s s := ⟨rfl, rfl, rfl, rfl, rfl, rfl, rfl, rfl⟩

theorem Worked.trans {ps qs : List Call} {s t u : State} (h : Worked ps s t) (g : Worked qs t u) :
    Worked (ps ++ qs) s u where
  port := g.port.trans h.port
  latch := g.latch.trans h.latch
  pos := g.pos.trans h.pos
  held := g.held.trans h.held
  host := g.host.trans h.host
  pins := by rw [g.pins, h.pins, List.foldl_append]
  calls := by rw [g.calls, h.calls]; simp
  trace := by rw [g.trace, h.trace]; simp

theorem Worked.perform (ps : List Call) (s : State) : Worked ps s (perform ps s) :=
  ⟨rfl, rfl, rfl, rfl, rfl, by rw [perform_pins, replay_calls], rfl, rfl⟩

/-- The bookkeeping of a field leaves nothing of that. -/
theorem Worked.book (a : BitVec 3) (w : Word) (n m : Nat) (s : State) :
    Worked [] s (acked a (shifted w n (take m s))) := ⟨rfl, rfl, rfl, rfl, rfl, rfl, rfl, rfl⟩

/-! ## One transaction -/

theorem assemble_ack (s : State) : assemble (s.env.answers 3) = (nextAck s).setWidth 32 := by
  refine BitVec.eq_of_getLsbD_eq fun i hi => ?_
  rw [assemble_getLsbD _ _ (by rw [answers_length]; omega), nextAck, BitVec.getLsbD_setWidth,
    BitVec.getLsbD_setWidth, assemble_getLsbD _ _ (by rw [answers_length]; omega)]
  by_cases h : i < 3
  · simp [h, hi]
  · have : (s.env.answers 3).length ≤ i := by rw [answers_length]; omega
    simp [h, List.getElem?_eq_none this]

theorem ackStatus_ok (a : BitVec 3) : ackStatus a = .ok ↔ a = 1#3 := by revert a; decide
theorem ackStatus_wait (a : BitVec 3) : ackStatus a = .wait ↔ a = 2#3 := by revert a; decide
theorem ackStatus_ne (a : BitVec 3) : ackStatus a ≠ .stalled ∧ ackStatus a ≠ .refused := by revert a; decide

theorem checkRead_cases (d : Word) (p : Bool) : checkRead d p = .ok ∨ checkRead d p = .protocolError := by
  unfold checkRead; split <;> simp

/-- The calls of a transaction that ends after its ACK. -/
def endedPadded (f : Byte) (a : BitVec 3) : List Call :=
  prefixCalls f (a.setWidth 32) ++ [.turn .output, .pad]

theorem xferWrite_worked (r : RegAddr) (v : Word) (s : State) :
    (xferWrite r v s).status = ackStatus (nextAck s) ∧ (xferWrite r v s).value = Config.sentinel ∧
    Worked (if nextAck s = 1#3 then writeCalls (req r false) 1#32 v true else endedPadded (req r false) (nextAck s))
      s (xferWrite r v s).state := by
  rw [xferWrite_cases, assemble_ack]
  by_cases h : ackStatus (nextAck s) = .ok
  · have h1 := (ackStatus_ok _).1 h
    rw [if_pos h, if_pos h1, h]
    refine ⟨rfl, rfl, ?_⟩
    rw [h1]
    exact (Worked.book _ _ _ _ _).trans (Worked.perform _ _)
  · rw [if_neg h, if_neg (mt (ackStatus_ok _).2 h)]
    refine ⟨rfl, rfl, ?_⟩
    have := (Worked.book (nextAck s) (BitVec.setWidth 32 (nextAck s)) 3 3 s).trans
      (Worked.perform (endedPadded (req r false) (nextAck s)) _)
    simpa [writeCalls, endedPadded] using this

theorem xferRead_worked (r : RegAddr) (s : State) :
    (xferRead r s).status =
      (if nextAck s = 1#3 then checkRead (nextData s) ((nextPar s).getLsbD 0) else ackStatus (nextAck s)) ∧
    (xferRead r s).value = (if (xferRead r s).status = .ok then nextData s else Config.sentinel) ∧
    Worked (if nextAck s = 1#3 then readCalls (req r true) 1#32 (nextData s) (nextPar s) true
      else endedPadded (req r true) (nextAck s)) s (xferRead r s).state := by
  rw [xferRead_cases, assemble_ack]
  by_cases h : ackStatus (nextAck s) = .ok
  · have h1 := (ackStatus_ok _).1 h
    rw [if_pos h]
    simp only [h1, if_true]
    have hw := (Worked.book 1#3 (nextPar s) 1 36 s).trans
      (Worked.perform (readCalls (req r true) 1#32 (nextData s) (nextPar s) true) _)
    rcases checkRead_cases (nextData s) ((nextPar s).getLsbD 0) with hc | hc <;> simp only [hc] <;>
      exact ⟨rfl, rfl, hw⟩
  · rw [if_neg h, if_neg (mt (ackStatus_ok _).2 h), if_neg (mt (ackStatus_ok _).2 h), if_neg h]
    refine ⟨rfl, rfl, ?_⟩
    have := (Worked.book (nextAck s) (BitVec.setWidth 32 (nextAck s)) 3 3 s).trans
      (Worked.perform (endedPadded (req r true) (nextAck s)) _)
    simpa [readCalls, endedPadded] using this

theorem nextPar_level (s : State) : nextPar s = levelWord ((nextPar s).getLsbD 0) := by
  have hl := answers_length (s.env.drop 35) 1
  rw [nextPar]
  generalize (s.env.drop 35).answers 1 = bs at hl
  obtain ⟨b, rfl⟩ := List.length_eq_one_iff.1 hl
  cases b <;> rfl

/-! ## The retry loop -/

/-- The retry loop (42 R170, R171): some attempts that were answered WAIT, then one that was not; or all of them
answered WAIT. -/
theorem retry_cases (xfer : State → Res) (w : List Call)
    (hx : ∀ s, (xfer s).status = .wait → Worked w s (xfer s).state) (n : Nat) (s : State) :
    (∃ k s', k < n ∧ Worked (List.replicate k w).flatten s s' ∧ retry xfer n s = xfer s' ∧
      (xfer s').status ≠ .wait) ∨
    (∃ s', Worked (List.replicate n w).flatten s s' ∧
      retry xfer n s = ⟨.stalled, Config.sentinel, { s' with port.diagStalled := true }⟩) := by
  induction n generalizing s with
  | zero => exact .inr ⟨s, Worked.refl s, rfl⟩
  | succ n ih =>
    have h0 : Worked [] s { s with seq := { s.seq with attempt := s.seq.attempt + 1 } } :=
      ⟨rfl, rfl, rfl, rfl, rfl, rfl, rfl, rfl⟩
    rw [retry]
    by_cases hw : (xfer { s with seq := { s.seq with attempt := s.seq.attempt + 1 } }).status = .wait
    · simp only [hw, if_true]
      have h1 := h0.trans (hx _ hw)
      rcases ih (xfer { s with seq := { s.seq with attempt := s.seq.attempt + 1 } }).state with
        ⟨k, s', hk, hs, he, hn⟩ | ⟨s', hs, he⟩
      · refine .inl ⟨k + 1, s', by omega, ?_, he, hn⟩
        rw [List.replicate_succ, List.flatten_cons]
        exact h1.trans hs
      · refine .inr ⟨s', ?_, he⟩
        rw [List.replicate_succ, List.flatten_cons]
        exact h1.trans hs
    · simp only [hw, if_false]
      exact .inl ⟨0, _, by omega, h0, rfl, hw⟩

/-- The calls of k attempts answered WAIT, pads included. -/
def waitPadded (f : Byte) (k : Nat) : List Call := (List.replicate k (endedPadded f 2#3)).flatten

/-- What an access comes to, whatever the samples (42 R170): k attempts answered WAIT, then an attempt with an ACK that
is not WAIT, or STALLED after the bound. -/
theorem accessWrite_cases (r : RegAddr) (v : Word) (s : State) :
    (∃ k a t, k < Config.waitRetryBound ∧ a ≠ 2#3 ∧
      Worked (waitPadded (req r false) k ++
        if a = 1#3 then writeCalls (req r false) 1#32 v true else endedPadded (req r false) a) s t ∧
      accessWrite r v s = ⟨ackStatus a, Config.sentinel, t⟩) ∨
    (∃ t, Worked (waitPadded (req r false) Config.waitRetryBound) s t ∧
      accessWrite r v s = ⟨.stalled, Config.sentinel, { t with port.diagStalled := true }⟩) := by
  have hx : ∀ s, (xferWrite r v s).status = .wait →
      Worked (endedPadded (req r false) 2#3) s (xferWrite r v s).state := by
    intro s h
    obtain ⟨h1, _, h3⟩ := xferWrite_worked r v s
    rw [h1, ackStatus_wait] at h
    simpa [h] using h3
  have h0 : Worked [] s { s with seq := { s.seq with attempt := 0 } } := ⟨rfl, rfl, rfl, rfl, rfl, rfl, rfl, rfl⟩
  rcases retry_cases (xferWrite r v) _ hx Config.waitRetryBound { s with seq := { s.seq with attempt := 0 } } with
    ⟨k, s', hk, hs, he, hn⟩ | ⟨s', hs, he⟩
  · obtain ⟨h1, h2, h3⟩ := xferWrite_worked r v s'
    refine .inl ⟨k, nextAck s', (xferWrite r v s').state, hk, ?_, (h0.trans hs).trans h3, ?_⟩
    · rw [h1] at hn; exact mt (ackStatus_wait _).2 hn
    · rw [accessWrite, he, ← h1, ← h2]
  · exact .inr ⟨s', h0.trans hs, he⟩

theorem accessRead_cases (r : RegAddr) (s : State) :
    (∃ k a t, k < Config.waitRetryBound ∧ a ≠ 2#3 ∧ a ≠ 1#3 ∧
      Worked (waitPadded (req r true) k ++ endedPadded (req r true) a) s t ∧
      accessRead r s = ⟨ackStatus a, Config.sentinel, t⟩) ∨
    (∃ k d p t, k < Config.waitRetryBound ∧
      Worked (waitPadded (req r true) k ++ readCalls (req r true) 1#32 d (levelWord p) true) s t ∧
      accessRead r s = ⟨checkRead d p, if checkRead d p = .ok then d else Config.sentinel, t⟩) ∨
    (∃ t, Worked (waitPadded (req r true) Config.waitRetryBound) s t ∧
      accessRead r s = ⟨.stalled, Config.sentinel, { t with port.diagStalled := true }⟩) := by
  have hx : ∀ s, (xferRead r s).status = .wait → Worked (endedPadded (req r true) 2#3) s (xferRead r s).state := by
    intro s h
    obtain ⟨h1, _, h3⟩ := xferRead_worked r s
    by_cases ha : nextAck s = 1#3
    · rw [h1, if_pos ha] at h
      rcases checkRead_cases (nextData s) ((nextPar s).getLsbD 0) with hc | hc <;> rw [hc] at h <;> cases h
    · rw [h1, if_neg ha, ackStatus_wait] at h
      simpa [h] using h3
  have h0 : Worked [] s { s with seq := { s.seq with attempt := 0 } } := ⟨rfl, rfl, rfl, rfl, rfl, rfl, rfl, rfl⟩
  rcases retry_cases (xferRead r) _ hx Config.waitRetryBound { s with seq := { s.seq with attempt := 0 } } with
    ⟨k, s', hk, hs, he, hn⟩ | ⟨s', hs, he⟩
  · obtain ⟨h1, h2, h3⟩ := xferRead_worked r s'
    by_cases ha : nextAck s' = 1#3
    · rw [if_pos ha] at h1 h3
      rw [nextPar_level] at h3
      refine .inr (.inl ⟨k, nextData s', (nextPar s').getLsbD 0, (xferRead r s').state, hk,
        (h0.trans hs).trans h3, ?_⟩)
      rw [h1] at h2
      rw [accessRead, he]
      calc xferRead r s' = ⟨(xferRead r s').status, (xferRead r s').value, (xferRead r s').state⟩ := rfl
        _ = _ := by rw [h2, h1]
    · rw [if_neg ha] at h1 h3
      have hok : (xferRead r s').status ≠ .ok := by rw [h1]; exact mt (ackStatus_ok _).1 ha
      rw [if_neg hok] at h2
      refine .inl ⟨k, nextAck s', (xferRead r s').state, hk, ?_, ha, (h0.trans hs).trans h3, ?_⟩
      · rw [h1] at hn; exact mt (ackStatus_wait _).2 hn
      · rw [accessRead, he, ← h1, ← h2]
  · exact .inr (.inr ⟨s', h0.trans hs, he⟩)

end Sys2Proof.Machine
end

