-- ==== Sys2Proof/Laws/Scripts.lean ====
section
/-! SUPPORT. Accesses against a scripted peer (42 R170, R171): with the answers known, the calls are known. -/

namespace Sys2Proof.Machine

open Sys2Proof.Safety

theorem ackAnswer_length (a : BitVec 3) : (ackAnswer a).length = 3 := wireOf_length _ _

theorem assemble_ackAnswer (a : BitVec 3) : assemble (ackAnswer a) = a.setWidth 32 := by revert a; decide

theorem nextAck_script (s : State) (a : BitVec 3) (rest : List Bool) (h : s.env.samples = ackAnswer a ++ rest) :
    nextAck s = a := by
  have := answers_of_script s.env (ackAnswer a) rest h
  rw [ackAnswer_length] at this
  rw [nextAck, this, assemble_ackAnswer]
  exact BitVec.setWidth_setWidth_of_le a (by omega)

theorem nextData_script (s : State) (d : Word) (p : Bool) (rest : List Bool)
    (h : s.env.samples = readAnswer d p ++ rest) : nextData s = d := by
  have hd : (s.env.drop 3).samples = wireOf d 32 ++ ([p] ++ rest) := by
    simp [Env.drop, h, readAnswer, List.append_assoc, ackAnswer_length]
  have := answers_of_script (s.env.drop 3) _ _ hd
  rw [wireOf_length] at this
  rw [nextData, this, assemble_wireOf]

theorem nextPar_script (s : State) (d : Word) (p : Bool) (rest : List Bool)
    (h : s.env.samples = readAnswer d p ++ rest) : nextPar s = levelWord p := by
  have hd : (s.env.drop 35).samples = [p] ++ rest := by
    simp [Env.drop, h, readAnswer, List.append_assoc, List.drop_append, ackAnswer_length, wireOf_length]
  have : (s.env.drop 35).answers 1 = [p] := answers_of_script (s.env.drop 35) [p] rest hd
  rw [nextPar, this]
  cases p <;> rfl

theorem readAnswer_length (d : Word) (p : Bool) : (readAnswer d p).length = 36 := by
  simp [readAnswer, ackAnswer_length, wireOf_length]

/-- A write transaction takes three answers. -/
theorem xferWrite_samples (r : RegAddr) (v : Word) (s : State) :
    (xferWrite r v s).state.env.samples = s.env.samples.drop 3 := by
  rw [xferWrite_cases]; split <;> rfl

/-- A read transaction takes three answers, and thirty-three more when the ACK is OK. -/
theorem xferRead_samples (r : RegAddr) (s : State) :
    (xferRead r s).state.env.samples = s.env.samples.drop (if nextAck s = 1#3 then 36 else 3) := by
  rw [xferRead_cases]
  by_cases h : nextAck s = 1#3
  · rw [if_pos ((ackStatus_ok _).2 h), if_pos h]
    dsimp only
    split <;> rfl
  · rw [if_neg (mt (ackStatus_ok _).1 h), if_neg h]; rfl

theorem waitAnswers_succ (k : Nat) : waitAnswers (k + 1) = ackAnswer 2#3 ++ waitAnswers k := by
  rw [waitAnswers, List.replicate_succ, List.flatten_cons]; rfl

theorem waitPadded_succ (f : Byte) (k : Nat) : waitPadded f (k + 1) = endedPadded f 2#3 ++ waitPadded f k := by
  rw [waitPadded, List.replicate_succ, List.flatten_cons]; rfl

/-- The retry loop against a peer that answers WAIT k times. -/
theorem retry_script (xfer : State → Res) (w : List Call)
    (hx : ∀ (s : State) (rest : List Bool), s.env.samples = ackAnswer 2#3 ++ rest →
      (xfer s).status = .wait ∧ Worked w s (xfer s).state ∧ (xfer s).state.env.samples = rest)
    (n k : Nat) (s : State) (rest : List Bool) (hk : k ≤ n) (h : s.env.samples = waitAnswers k ++ rest) :
    ∃ s', Worked (List.replicate k w).flatten s s' ∧ s'.env.samples = rest ∧
      retry xfer n s = retry xfer (n - k) s' := by
  induction k generalizing n s with
  | zero => exact ⟨s, Worked.refl s, by simpa [waitAnswers] using h, rfl⟩
  | succ k ih =>
    obtain ⟨n, rfl⟩ : ∃ m, n = m + 1 := ⟨n - 1, by omega⟩
    have h0 : Worked [] s { s with seq := { s.seq with attempt := s.seq.attempt + 1 } } :=
      ⟨rfl, rfl, rfl, rfl, rfl, rfl, rfl, rfl⟩
    rw [waitAnswers_succ, List.append_assoc] at h
    obtain ⟨h1, h2, h3⟩ := hx { s with seq := { s.seq with attempt := s.seq.attempt + 1 } } _ h
    obtain ⟨s', g1, g2, g3⟩ := ih n _ (by omega) h3
    refine ⟨s', ?_, g2, ?_⟩
    · rw [List.replicate_succ, List.flatten_cons]
      exact (h0.trans h2).trans g1
    · rw [retry]
      simp only [h1, if_true]
      rw [g3, Nat.add_sub_add_right]

theorem xferWrite_wait (r : RegAddr) (v : Word) (s : State) (rest : List Bool)
    (h : s.env.samples = ackAnswer 2#3 ++ rest) :
    (xferWrite r v s).status = .wait ∧ Worked (endedPadded (req r false) 2#3) s (xferWrite r v s).state ∧
      (xferWrite r v s).state.env.samples = rest := by
  obtain ⟨h1, _, h3⟩ := xferWrite_worked r v s
  rw [nextAck_script s _ _ h] at h1 h3
  exact ⟨h1, h3, by rw [xferWrite_samples, h]; rfl⟩

theorem xferRead_wait (r : RegAddr) (s : State) (rest : List Bool) (h : s.env.samples = ackAnswer 2#3 ++ rest) :
    (xferRead r s).status = .wait ∧ Worked (endedPadded (req r true) 2#3) s (xferRead r s).state ∧
      (xferRead r s).state.env.samples = rest := by
  obtain ⟨h1, _, h3⟩ := xferRead_worked r s
  rw [nextAck_script s _ _ h] at h1 h3
  exact ⟨h1, h3, by rw [xferRead_samples, nextAck_script s _ _ h, h]; rfl⟩

theorem retry_begin (xfer : State → Res) (n : Nat) (s : State) :
    ∃ s', Worked [] s s' ∧ s'.env.samples = s.env.samples ∧
      retry xfer (n + 1) s = if (xfer s').status = .wait then retry xfer n (xfer s').state else xfer s' :=
  ⟨{ s with seq := { s.seq with attempt := s.seq.attempt + 1 } }, ⟨rfl, rfl, rfl, rfl, rfl, rfl, rfl, rfl⟩, rfl, rfl⟩

/-- A write access, k times answered WAIT and then with an ACK that is not WAIT. -/
theorem accessWrite_script (r : RegAddr) (v : Word) (s : State) (k : Nat) (a : BitVec 3) (rest : List Bool)
    (hk : k < Config.waitRetryBound) (ha : a ≠ 2#3) (h : s.env.samples = waitAnswers k ++ ackAnswer a ++ rest) :
    ∃ t, Worked (waitPadded (req r false) k ++
        if a = 1#3 then writeCalls (req r false) 1#32 v true else endedPadded (req r false) a) s t ∧
      t.env.samples = rest ∧ accessWrite r v s = ⟨ackStatus a, Config.sentinel, t⟩ := by
  have h0 : Worked [] s { s with seq := { s.seq with attempt := 0 } } := ⟨rfl, rfl, rfl, rfl, rfl, rfl, rfl, rfl⟩
  rw [List.append_assoc] at h
  obtain ⟨s1, g1, g2, g3⟩ := retry_script (xferWrite r v) _ (xferWrite_wait r v) Config.waitRetryBound k
    { s with seq := { s.seq with attempt := 0 } } _ (by omega) h
  obtain ⟨m, hm⟩ : ∃ m, Config.waitRetryBound - k = m + 1 := ⟨Config.waitRetryBound - k - 1, by omega⟩
  obtain ⟨s2, h1, hs, hr⟩ := retry_begin (xferWrite r v) m s1
  rw [← hs] at g2
  obtain ⟨x1, x2, x3⟩ := xferWrite_worked r v s2
  have hn := nextAck_script s2 a rest g2
  rw [hn] at x1 x3
  refine ⟨_, (h0.trans g1).trans (h1.trans x3), ?_, ?_⟩
  · rw [xferWrite_samples, g2]; exact List.drop_left' (ackAnswer_length a)
  · rw [accessWrite, g3, hm, hr]
    simp only [x1, mt (ackStatus_wait a).1 ha, if_false]
    rw [← x1, ← x2]

/-- A read access, k times answered WAIT and then with an ACK that is neither WAIT nor OK. -/
theorem accessRead_script_bad (r : RegAddr) (s : State) (k : Nat) (a : BitVec 3) (rest : List Bool)
    (hk : k < Config.waitRetryBound) (ha : a ≠ 2#3) (ho : a ≠ 1#3)
    (h : s.env.samples = waitAnswers k ++ ackAnswer a ++ rest) :
    ∃ t, Worked (waitPadded (req r true) k ++ endedPadded (req r true) a) s t ∧
      t.env.samples = rest ∧ accessRead r s = ⟨ackStatus a, Config.sentinel, t⟩ := by
  have h0 : Worked [] s { s with seq := { s.seq with attempt := 0 } } := ⟨rfl, rfl, rfl, rfl, rfl, rfl, rfl, rfl⟩
  rw [List.append_assoc] at h
  obtain ⟨s1, g1, g2, g3⟩ := retry_script (xferRead r) _ (xferRead_wait r) Config.waitRetryBound k
    { s with seq := { s.seq with attempt := 0 } } _ (by omega) h
  obtain ⟨m, hm⟩ : ∃ m, Config.waitRetryBound - k = m + 1 := ⟨Config.waitRetryBound - k - 1, by omega⟩
  obtain ⟨s2, h1, hs, hr⟩ := retry_begin (xferRead r) m s1
  rw [← hs] at g2
  obtain ⟨x1, x2, x3⟩ := xferRead_worked r s2
  have hn := nextAck_script s2 a rest g2
  rw [hn, if_neg ho] at x1 x3
  have hok : (xferRead r s2).status ≠ .ok := by
    rw [x1]; exact mt (ackStatus_ok a).1 ho
  rw [if_neg hok] at x2
  refine ⟨_, (h0.trans g1).trans (h1.trans x3), ?_, ?_⟩
  · rw [xferRead_samples, hn, if_neg ho, g2]; exact List.drop_left' (ackAnswer_length a)
  · rw [accessRead, g3, hm, hr]
    simp only [x1, mt (ackStatus_wait a).1 ha, if_false]
    rw [← x1, ← x2]

/-- A read access, k times answered WAIT and then with OK, data and a parity bit. -/
theorem accessRead_script (r : RegAddr) (s : State) (k : Nat) (d : Word) (p : Bool) (rest : List Bool)
    (hk : k < Config.waitRetryBound) (h : s.env.samples = waitAnswers k ++ readAnswer d p ++ rest) :
    ∃ t, Worked (waitPadded (req r true) k ++ readCalls (req r true) 1#32 d (levelWord p) true) s t ∧
      t.env.samples = rest ∧
      accessRead r s = ⟨checkRead d p, if checkRead d p = .ok then d else Config.sentinel, t⟩ := by
  have h0 : Worked [] s { s with seq := { s.seq with attempt := 0 } } := ⟨rfl, rfl, rfl, rfl, rfl, rfl, rfl, rfl⟩
  rw [List.append_assoc] at h
  obtain ⟨s1, g1, g2, g3⟩ := retry_script (xferRead r) _ (xferRead_wait r) Config.waitRetryBound k
    { s with seq := { s.seq with attempt := 0 } } _ (by omega) h
  obtain ⟨m, hm⟩ : ∃ m, Config.waitRetryBound - k = m + 1 := ⟨Config.waitRetryBound - k - 1, by omega⟩
  obtain ⟨s2, h1, hs, hr⟩ := retry_begin (xferRead r) m s1
  rw [← hs] at g2
  obtain ⟨x1, x2, x3⟩ := xferRead_worked r s2
  have ga : s2.env.samples = ackAnswer 1#3 ++ ((wireOf d 32 ++ [p]) ++ rest) := by
    rw [g2, readAnswer]; simp only [List.append_assoc]
  have hn := nextAck_script _ 1#3 _ ga
  rw [hn, if_pos rfl, nextData_script _ d p rest g2, nextPar_script _ d p rest g2,
    show (levelWord p).getLsbD 0 = p by cases p <;> rfl] at x1
  rw [hn, if_pos rfl, nextData_script _ d p rest g2, nextPar_script _ d p rest g2] at x3
  rw [nextData_script _ d p rest g2, x1] at x2
  have hw : checkRead d p ≠ .wait := by rcases checkRead_cases d p with e | e <;> rw [e] <;> simp
  refine ⟨_, (h0.trans g1).trans (h1.trans x3), ?_, ?_⟩
  · rw [xferRead_samples, hn, if_pos rfl, g2]; exact List.drop_left' (readAnswer_length d p)
  · rw [accessRead, g3, hm, hr]
    simp only [x1, hw, if_false]
    calc xferRead r s2 = ⟨(xferRead r s2).status, (xferRead r s2).value, (xferRead r s2).state⟩ := rfl
      _ = _ := by rw [x2, x1]

/-- A peer that answers WAIT to every attempt (42 R171). -/
theorem access_script_stalled (xfer : State → Res) (w : List Call)
    (hx : ∀ (s : State) (rest : List Bool), s.env.samples = ackAnswer 2#3 ++ rest →
      (xfer s).status = .wait ∧ Worked w s (xfer s).state ∧ (xfer s).state.env.samples = rest)
    (s : State) (rest : List Bool) (h : s.env.samples = waitAnswers Config.waitRetryBound ++ rest) :
    ∃ t, Worked (List.replicate Config.waitRetryBound w).flatten s t ∧ t.env.samples = rest ∧
      retry xfer Config.waitRetryBound s = ⟨.stalled, Config.sentinel, { t with port.diagStalled := true }⟩ := by
  obtain ⟨t, g1, g2, g3⟩ := retry_script xfer w hx Config.waitRetryBound Config.waitRetryBound s rest (Nat.le_refl _) h
  exact ⟨t, g1, g2, by rw [g3, Nat.sub_self, retry]⟩

end Sys2Proof.Machine
end

