-- ==== Sys2Proof/Laws/Programs.lean ====
section
/-! SUPPORT. Microprograms and commands (43 R190, 60 R226, R227): what each can come to, whatever the samples. -/

namespace Sys2Proof.Machine

open Sys2Proof.Safety

/-! ## The calls of transactions -/

/-- Calls that take the idle line and give it back idle, within B ticks (10 R27, 40 R128, 42 R166, R167). -/
structure Transacted (B : Nat) (ps : List Call) : Prop where
  pins : ∀ p, ps.foldl (fun p c => c.pins p) p = restored p
  owns : ∀ es, ownsLine .output (ps.flatMap Call.expand ++ es) = ownsLine .output es
  ticks : (ps.map Call.tickLength).sum ≤ B

theorem Transacted.append {B C : Nat} {ps qs : List Call} (h : Transacted B ps) (g : Transacted C qs) :
    Transacted (B + C) (ps ++ qs) where
  pins p := by rw [List.foldl_append, h.pins, g.pins]; rfl
  owns es := by rw [List.flatMap_append, List.append_assoc, h.owns, g.owns]
  ticks := by rw [List.map_append, List.sum_append]; exact Nat.add_le_add h.ticks g.ticks

theorem ownsLine_calls (d : Dir) (c : Call) (cs : List Call) (es : List PinEvent) :
    ownsLine d ((c :: cs).flatMap Call.expand ++ es) =
      (c.fits d && ownsLine (c.dirAfter d) (cs.flatMap Call.expand ++ es)) := by
  rw [List.flatMap_cons, List.append_assoc, ownsLine_expand]

theorem transacted_ended (f : Byte) (a : BitVec 3) : Transacted 13 (endedPadded f a) where
  pins p := rfl
  owns es := by
    simp only [endedPadded, prefixCalls, List.cons_append, List.nil_append, ownsLine_calls]
    rfl
  ticks := by simp [endedPadded, prefixCalls, Call.tickLength]

theorem transacted_write (f : Byte) (a v : Word) : Transacted 46 (writeCalls f a v true) where
  pins p := rfl
  owns es := by
    simp only [writeCalls, prefixCalls, if_true, List.cons_append, List.nil_append, ownsLine_calls]
    rfl
  ticks := by simp [writeCalls, prefixCalls, Call.tickLength]

theorem transacted_read (f : Byte) (a d p : Word) : Transacted 46 (readCalls f a d p true) where
  pins p := rfl
  owns es := by
    simp only [readCalls, prefixCalls, if_true, List.cons_append, List.nil_append, ownsLine_calls]
    rfl
  ticks := by simp [readCalls, prefixCalls, Call.tickLength]

theorem Transacted.mono {B C : Nat} {ps : List Call} (h : Transacted B ps) (hBC : B ≤ C) : Transacted C ps :=
  ⟨h.pins, h.owns, Nat.le_trans h.ticks hBC⟩

theorem transacted_waits (f : Byte) (k : Nat) {B : Nat} {ps : List Call} (h : Transacted B ps) :
    Transacted (13 * k + B) (waitPadded f k ++ ps) := by
  induction k with
  | zero => simpa [waitPadded] using h
  | succ k ih =>
    rw [waitPadded_succ, List.append_assoc]
    exact ((transacted_ended f 2#3).append ih).mono (by omega)

/-! ## Accesses -/

/-- The ticks an access can take (42 R181). -/
def accessTicks : Nat := Config.waitRetryBound * 46

/-- What an access can come to, whatever the samples (42 R169 to R171). -/
theorem accessRun_cases (a : Access) (s : State) :
    ∃ ps t, Transacted accessTicks ps ∧ Worked ps s t ∧ (a.run s).status ≠ .wait ∧ (a.run s).status ≠ .refused ∧
      ((a.run s).status ≠ .ok → (a.run s).value = Config.sentinel) ∧
      (((a.run s).status ≠ .stalled ∧ (a.run s).state = t) ∨
        ((a.run s).status = .stalled ∧ (a.run s).state = { t with port.diagStalled := true })) := by
  have hb : Worked [] s (a.begin s) := ⟨rfl, rfl, rfl, rfl, rfl, rfl, rfl, rfl⟩
  have hst : ∀ f, Transacted accessTicks (waitPadded f Config.waitRetryBound) := by
    intro f
    have := transacted_waits f 31 (transacted_ended f 2#3)
    have he : waitPadded f 31 ++ endedPadded f 2#3 = waitPadded f Config.waitRetryBound := by
      rw [waitPadded, waitPadded, show Config.waitRetryBound = 31 + 1 from rfl, List.replicate_succ', List.flatten_append]
      simp
    rw [he] at this
    exact this.mono (by decide)
  rw [Access.run]
  cases a.value with
  | some v =>
    dsimp only
    rcases accessWrite_cases a.reg v (a.begin s) with ⟨k, x, t, hk, hx, hw, he⟩ | ⟨t, hw, he⟩
    · have hx2 := mt (ackStatus_wait x).1 hx
      rw [he]
      refine ⟨_, t, ?_, hb.trans hw, hx2, (ackStatus_ne x).2, fun _ => rfl, .inl ⟨(ackStatus_ne x).1, rfl⟩⟩
      have hk32 : k < 32 := hk
      split
      · exact (transacted_waits _ k (transacted_write _ _ _)).mono (by rw [accessTicks, Config.waitRetryBound]; omega)
      · exact (transacted_waits _ k (transacted_ended _ _)).mono (by rw [accessTicks, Config.waitRetryBound]; omega)
    · rw [he]
      exact ⟨_, t, hst _, hb.trans hw, nofun, nofun, fun _ => rfl, .inr ⟨rfl, rfl⟩⟩
  | none =>
    dsimp only
    rcases accessRead_cases a.reg (a.begin s) with
      ⟨k, x, t, hk, hx, -, hw, he⟩ | ⟨k, d, p, t, hk, hw, he⟩ | ⟨t, hw, he⟩
    · have hx2 := mt (ackStatus_wait x).1 hx
      have hk32 : k < 32 := hk
      rw [he]
      exact ⟨_, t, (transacted_waits _ k (transacted_ended _ _)).mono
          (by rw [accessTicks, Config.waitRetryBound]; omega),
        hb.trans hw, hx2, (ackStatus_ne x).2, fun _ => rfl, .inl ⟨(ackStatus_ne x).1, rfl⟩⟩
    · have hk32 : k < 32 := hk
      rw [he]
      refine ⟨_, t, (transacted_waits _ k (transacted_read _ _ _ _)).mono
          (by rw [accessTicks, Config.waitRetryBound]; omega), hb.trans hw, ?_⟩
      rcases checkRead_cases d p with hc | hc <;> simp [hc]
    · rw [he]
      exact ⟨_, t, hst _, hb.trans hw, nofun, nofun, fun _ => rfl, .inr ⟨rfl, rfl⟩⟩

/-! ## Programs -/

theorem runProgram_cons (m : Micro) (ms : List Micro) (s : State) :
    runProgram (m :: ms) s = if (m.run s).1 = .ok then runProgram ms (m.run s).2 else m.run s := rfl

/-- A property that every statement of a program keeps holds after the program. -/
theorem runProgram_keeps (P : State → Prop) (ms : List Micro) (h : ∀ m ∈ ms, ∀ s, P s → P (m.run s).2) (s : State)
    (hs : P s) : P (runProgram ms s).2 := by
  induction ms generalizing s with
  | nil => exact hs
  | cons m ms ih =>
    rw [runProgram_cons]
    have h1 := h m (List.mem_cons_self ..) s hs
    split
    · exact ih (fun m hm => h m (List.mem_cons_of_mem _ hm)) _ h1
    · exact h1

/-- Statement after statement: what the first part of a program comes to decides (43 R190, 60 R228). -/
theorem runProgram_append (ms ns : List Micro) (s : State) :
    runProgram (ms ++ ns) s =
      if (runProgram ms s).1 = .ok then runProgram ns (runProgram ms s).2 else runProgram ms s := by
  induction ms generalizing s with
  | nil => rfl
  | cons m ms ih =>
    rw [List.cons_append, runProgram_cons, runProgram_cons]
    by_cases h : (m.run s).1 = .ok
    · simp only [h, if_true]; exact ih _
    · simp only [h, if_false]

/-- The status of a program that is not OK is the status of one of its accesses: never WAIT, never REFUSED. -/
theorem runProgram_status (ms : List Micro) (s : State) :
    (runProgram ms s).1 ≠ .wait ∧ (runProgram ms s).1 ≠ .refused := by
  induction ms generalizing s with
  | nil => simp [runProgram]
  | cons m ms ih =>
    rw [runProgram_cons]
    split
    · exact ih _
    · cases m with
      | access a =>
        obtain ⟨_, _, _, _, h1, h2, _⟩ := accessRun_cases a s
        simp only [Micro.run]
        split <;> simp_all
      | _ => simp_all [Micro.run]

/-! ## Commands -/

/-- What a command can come to, from a port at rest (60 R226, R227): refused, or its program run and ended. -/
theorem runCommand_cases (c : Command) (s : State) (hb : s.port.busy = false) :
    (∃ w, c.refusal s.latchOperands = some w ∧ runCommand c s = .next (refuseCommand c.valued s)) ∨
    (c.refusal s.latchOperands = none ∧
      runCommand c s = .next (endCommand c.valued (runProgram (c.program s.latchOperands) s.latchOperands).1
        (runProgram (c.program s.latchOperands) s.latchOperands).2)) := by
  rw [runCommand, hb]
  cases h : c.refusal s.latchOperands with
  | none => exact .inr ⟨rfl, rfl⟩
  | some w => exact .inl ⟨w, rfl, rfl⟩

/-- The meaning of a command word's instruction is its command, run. -/
theorem exec_command (i : Instr) (c : Command) (h : commandSpec i = some c) (s : State) :
    exec i s = runCommand c s := by
  cases i <;> simp only [commandSpec, Option.some.injEq, reduceCtorEq] at h <;> subst h <;> rfl

/-- The instructions of the command format are those that name a command. -/
theorem commandSpec_of_encode (i : Instr) (w : Word) (h : encode i = .cmdw w) : ∃ c, commandSpec i = some c := by
  cases i <;> first | exact ⟨_, rfl⟩ | (simp only [encode, reduceCtorEq] at h)

/-- A command is started exactly when its own test passes and there is a session, or none for INIT (60 R226). -/
theorem refusal_none_iff (c : Command) (s : State) :
    c.refusal s = none ↔ c.own s = none ∧ s.pins.bound = !c.isInit := by
  unfold Command.refusal
  rcases c.own s with _ | w
  · cases c.isInit <;> cases s.pins.bound <;> simp
  · cases w <;> cases c.isInit <;> cases s.pins.bound <;> simp

/-- A command's own test (30 R97, 41 R142, 60 R226 (1), (4), (5), (6)). -/
theorem own_none_iff (i : Instr) (c : Command) (h : commandSpec i = some c) (s : State) :
    c.own s.latchOperands = none ↔
      (i ≠ .reservedD ∧ i ≠ .reservedE ∧ i ≠ .reservedF) ∧ (i = .init → pinOf s.port.argAddr ≠ pinOf s.port.argData) ∧
      (∀ reg, i = .getReg reg ∨ i = .setReg reg → legalReg reg = true) ∧
      (i = .peekMany ∨ i = .pokeMany → s.port.argCount ≤ Config.bufDepth) := by
  cases i <;> simp only [commandSpec, Option.some.injEq, reduceCtorEq] at h <;> subst h <;>
    simp [reservedCommand, refusedWord, initCommand, resetCommand, selectTargetCommand, noopCommand,
      disconnectCommand, getRegCommand, setRegCommand, readIdcodeCommand, setupMemCommand, peekCommand,
      peekManyCommand, pokeCommand, pokeManyCommand, regTest, regOf, State.dataPinArg, State.clockPinArg, countTest]
  all_goals first | (by_cases hc : pinOf s.port.argAddr = pinOf s.port.argData <;> simp [hc]) |
    (by_cases hc : Config.bufDepth < s.port.argCount
     · simp only [hc, if_true]; simp; omega
     · simp only [hc, if_false]; simp; omega)

/-- The command that needs that there be no session is INIT's. -/
theorem isInit_iff (i : Instr) (c : Command) (h : commandSpec i = some c) : c.isInit = true ↔ i = .init := by
  cases i <;> simp only [commandSpec, Option.some.injEq, reduceCtorEq] at h <;> subst h <;>
    simp [initCommand, resetCommand, selectTargetCommand, noopCommand, disconnectCommand, getRegCommand,
      setRegCommand, readIdcodeCommand, setupMemCommand, peekCommand, peekManyCommand, pokeCommand, pokeManyCommand,
      reservedCommand, refusedWord]

/-- The commands with a value result in x[RESULT] (10 R32). -/
theorem valued_iff (i : Instr) (c : Command) (h : commandSpec i = some c) :
    c.valued = true ↔ i = .readIdcode ∨ i = .setupMem ∨ i = .peek ∨ ∃ reg, i = .getReg reg := by
  cases i <;> simp only [commandSpec, Option.some.injEq, reduceCtorEq] at h <;> subst h <;>
    simp [initCommand, resetCommand, selectTargetCommand, noopCommand, disconnectCommand, getRegCommand,
      setRegCommand, readIdcodeCommand, setupMemCommand, peekCommand, peekManyCommand, pokeCommand, pokeManyCommand,
      reservedCommand, refusedWord]

end Sys2Proof.Machine
end

