-- ==== Sys2Proof/Laws/Frames.lean ====
section
/-! SUPPORT. What one statement of a microprogram, and a whole program, leave alone (10 R20, R27, R34, 42 R181). -/

namespace Sys2Proof.Machine

open Sys2Proof.Safety

/-- The statements that write neither the session nor a pull nor the clock pin's direction. -/
def Micro.onLine : Micro → Bool
  | .setPins _ _ | .bind | .unbind | .gpio _ => false
  | _ => true

@[simp] theorem onLine_access (a : Access) : (Micro.access a).onLine = true := rfl

/-- The statements that write no entry of BUF. -/
def Micro.keepsBuf : Micro → Bool
  | .access a => (match a.sink with
    | .buf _ => false
    | .last _ => false
    | _ => true) && a.fetching.isNone
  | _ => true

/-- The port of a state reached inside a command: only BUF and the diagnostic can have changed. -/
structure Inside (s t : State) : Prop where
  port : t.port = { s.port with buf := t.port.buf, diagStalled := t.port.diagStalled }
  latch : t.latch = s.latch
  pos : t.seq.pos = s.seq.pos
  host : t.env.inputs = s.env.inputs

theorem Inside.refl (s : State) : Inside s s := ⟨rfl, rfl, rfl, rfl⟩

theorem Inside.trans {s t u : State} (h : Inside s t) (g : Inside t u) : Inside s u where
  port := by rw [g.port, h.port]
  latch := g.latch.trans h.latch
  pos := g.pos.trans h.pos
  host := g.host.trans h.host

theorem Worked.inside {ps : List Call} {s t : State} (h : Worked ps s t) : Inside s t :=
  ⟨by rw [h.port], h.latch, h.pos, h.host⟩

/-- The pin fields that a statement on the line keeps. -/
structure SameSession (p q : Pins) : Prop where
  bound : q.bound = p.bound
  dataPin : q.dataPin = p.dataPin
  clockPin : q.clockPin = p.clockPin
  clkDir : q.clkDir = p.clkDir
  pullUp : q.pullUp = p.pullUp
  pullDown : q.pullDown = p.pullDown

theorem SameSession.refl (p : Pins) : SameSession p p := ⟨rfl, rfl, rfl, rfl, rfl, rfl⟩

theorem SameSession.trans {p q r : Pins} (h : SameSession p q) (g : SameSession q r) : SameSession p r :=
  ⟨g.bound.trans h.bound, g.dataPin.trans h.dataPin, g.clockPin.trans h.clockPin, g.clkDir.trans h.clkDir,
    g.pullUp.trans h.pullUp, g.pullDown.trans h.pullDown⟩

/-- The ticks a statement can take. -/
def Micro.maxTicks : Micro → Nat
  | .access _ => accessTicks
  | .pad => 0
  | .frame _ => 8
  | .write _ n => n
  | .readAck => 3
  | .turn _ => 1
  | .clock n => n
  | .gpio e => if e = .clk false then 1 else 0
  | .setPins _ _ => 0
  | .bind => 0
  | .unbind => 0

/-- The statements that are a list of calls. -/
def Micro.isCalls : Micro → Bool
  | .setPins _ _ | .bind | .unbind => false
  | _ => true

theorem Worked.shifted (w : Word) (n : Nat) (s : State) : Worked [] s (shifted w n s) :=
  ⟨rfl, rfl, rfl, rfl, rfl, rfl, rfl, rfl⟩

/-- A statement that is a list of calls, and what these do to the line. -/
theorem plain_worked (m : Micro) (h : m.isCalls = true) (s : State) :
    ∃ ps : List Call, Worked ps s (m.plain s) ∧ (ps.map Call.tickLength).sum ≤ m.maxTicks ∧
      ∀ p, lineOf (ps.foldl (fun p c => c.pins p) p) = lineAfter m (lineOf p) := by
  cases m with
  | pad =>
    refine ⟨[.pad], ?_, by simp [Call.tickLength], fun p => rfl⟩
    rw [Micro.plain, pad_perform]; exact Worked.perform _ _
  | frame f =>
    refine ⟨[.pad, .write (f.setWidth 32) 8, .pad], ?_, by simp [Call.tickLength, Micro.maxTicks], fun p => rfl⟩
    rw [Micro.plain, sendFrame_perform]; exact (Worked.shifted _ _ s).trans (Worked.perform _ _)
  | write w n =>
    refine ⟨[.write w n], ?_, by simp [Call.tickLength, Micro.maxTicks], fun p => ?_⟩
    · rw [Micro.plain, write_perform]; exact (Worked.shifted _ _ s).trans (Worked.perform _ _)
    · by_cases h : n = 0
      · subst h; simp [Call.pins, lineAfter, lineOf]
      · simp [Call.pins, lineAfter, lineOf, h]; omega
  | readAck =>
    refine ⟨[.read 3 (assemble (s.env.answers 3))], ?_, by simp [Call.tickLength, Micro.maxTicks], fun p => rfl⟩
    rw [Micro.plain, readAck_perform]; exact (Worked.book _ _ _ _ s).trans (Worked.perform _ _)
  | turn d =>
    refine ⟨[.turn d], ?_, by simp [Call.tickLength, Micro.maxTicks], fun p => rfl⟩
    rw [Micro.plain, turn_perform]; exact Worked.perform _ _
  | clock n =>
    refine ⟨[.clock n], ?_, by simp [Call.tickLength, Micro.maxTicks], fun p => ?_⟩
    · rw [Micro.plain, clock_perform]; exact Worked.perform _ _
    · by_cases h : n = 0
      · subst h; simp [Call.pins, lineAfter, lineOf]
      · simp [Call.pins, lineAfter, lineOf, h]; omega
  | gpio e =>
    refine ⟨[.gpio e], ?_, by simp [Call.tickLength, Micro.maxTicks], fun p => ?_⟩
    · rw [Micro.plain, gpio_perform]; exact Worked.perform _ _
    · cases e <;> rfl
  | setPins d c => cases h
  | bind => cases h
  | unbind => cases h
  | access a => exact ⟨[], Worked.refl s, by simp, fun p => rfl⟩

/-- What a statement does to the line: an access gives the idle line back idle (10 R27). -/
theorem plain_line (m : Micro) (hm : m ≠ .unbind) (s : State) : lineOf (m.plain s).pins = lineAfter m (lineOf s.pins) := by
  by_cases h : m.isCalls = true
  · obtain ⟨ps, hw, _, hl⟩ := plain_worked m h s
    rw [hw.pins, hl]
  · cases m <;> first | exact absurd rfl h | exact absurd rfl hm | rfl

/-- A statement inside a command: the port but for BUF and the diagnostic, the latched operands, the host's moves and the
position are left alone. -/
theorem plain_inside (m : Micro) (s : State) : Inside s (m.plain s) ∧ (m.plain s).port = s.port := by
  by_cases h : m.isCalls = true
  · obtain ⟨ps, hw, _, _⟩ := plain_worked m h s
    exact ⟨hw.inside, hw.port⟩
  · cases m <;> first | exact absurd rfl h | exact ⟨⟨rfl, rfl, rfl, rfl⟩, rfl⟩

theorem call_session (c : Call) (h : ∀ e, c ≠ .gpio e) (p : Pins) : SameSession p (c.pins p) := by
  cases c <;> first | exact ⟨rfl, rfl, rfl, rfl, rfl, rfl⟩ | exact absurd rfl (h _)

theorem restored_session (p : Pins) : SameSession p (restored p) := ⟨rfl, rfl, rfl, rfl, rfl, rfl⟩

/-- A statement on the line keeps the session, the pulls and the clock pin's direction. -/
theorem plain_session (m : Micro) (h : m.onLine = true) (s : State) : SameSession s.pins (m.plain s).pins := by
  cases m with
  | pad => exact SameSession.refl _
  | frame f =>
    rw [Micro.plain, sendFrame_perform, perform_pins, replay_calls]; exact ⟨rfl, rfl, rfl, rfl, rfl, rfl⟩
  | write w n => rw [Micro.plain, write_perform, perform_pins, replay_calls]; exact ⟨rfl, rfl, rfl, rfl, rfl, rfl⟩
  | readAck => rw [Micro.plain, readAck_perform, perform_pins, replay_calls]; exact ⟨rfl, rfl, rfl, rfl, rfl, rfl⟩
  | turn d => rw [Micro.plain, turn_perform, perform_pins, replay_calls]; exact ⟨rfl, rfl, rfl, rfl, rfl, rfl⟩
  | clock n => rw [Micro.plain, clock_perform, perform_pins, replay_calls]; exact ⟨rfl, rfl, rfl, rfl, rfl, rfl⟩
  | gpio e => cases h
  | setPins d c => cases h
  | bind => cases h
  | unbind => cases h
  | access a => exact SameSession.refl _

/-! ## What an access leaves in BUF -/

/-- BUF after the word of entry i is written and the entries after it become unspecified. -/
theorem freed_entries (i : Nat) (v : Word) (s : State) (hi : i < Config.bufDepth) :
    ((s.freeBuf i).setBuf i v).port.buf[i]? = some v ∧
    (∀ j, j < i → ((s.freeBuf i).setBuf i v).port.buf[j]? = s.port.buf[j]?) ∧
    ∀ j, i < j → j < Config.bufDepth →
      ((s.freeBuf i).setBuf i v).port.buf[j]? = some (Config.freeEntry (s.env.fresh + j)) := by
  refine ⟨?_, fun j hj => ?_, fun j hj hd => ?_⟩ <;> rw [setBuf_buf, Vector.getElem?_setIfInBounds]
  · rw [if_pos rfl, if_pos hi]
  · rw [if_neg (by omega), freeBuf_below _ _ _ hj]
  · rw [if_neg (by omega), freeBuf_from _ _ _ (Nat.le_of_lt hj) hd]

/-- The entry being fetched gets SENTINEL (43 R198), the entries before it keep their content, and those after it are
unspecified (43 R199, 10 R35). -/
theorem spoil_entries (a : Access) (i : Nat) (s : State) (h : a.fetching = some i) (hn : i < s.latch.count)
    (hi : i < Config.bufDepth) :
    (a.spoil s).port.buf[i]? = some Config.sentinel ∧
    (∀ j, j < i → (a.spoil s).port.buf[j]? = s.port.buf[j]?) ∧
    ∀ j, i < j → j < Config.bufDepth → (a.spoil s).port.buf[j]? = some (Config.freeEntry (s.env.fresh + j)) := by
  rw [Access.spoil, h]
  simp only [hn, if_true]
  exact freed_entries i Config.sentinel s hi

/-- With no word to fetch, no entry gets SENTINEL (43 R198: "if S.idx < n"), and all are unspecified (10 R35). -/
theorem spoil_none (a : Access) (s : State) (h : a.fetching = some 0) (hn : s.latch.count = 0) (j : Nat)
    (hj : j < Config.bufDepth) : (a.spoil s).port.buf[j]? = some (Config.freeEntry (s.env.fresh + j)) := by
  rw [Access.spoil, h]
  simp only [hn, Nat.lt_irrefl, if_false]
  exact freeBuf_from 0 s j (Nat.zero_le _) hj

/-! ## One statement, an access or not -/

/-- From s to u only BUF, the value read and the count of free values can have changed. -/
structure Stored (s u : State) : Prop where
  inside : Inside s u
  pins : u.pins = s.pins
  trace : u.env.trace = s.env.trace
  calls : u.env.calls = s.env.calls
  samples : u.env.samples = s.env.samples
  diag : u.port.diagStalled = s.port.diagStalled

/-- That is all that storing an access's value can do, and all that a failed access leaves behind. -/
theorem store_or_spoil (a : Access) (v : Word) (s : State) : Stored s (a.store v s) ∧ Stored s (a.spoil s) := by
  have h0 : Stored s s := ⟨Inside.refl s, rfl, rfl, rfl, rfl, rfl⟩
  have hb (i : Nat) (w : Word) : Stored s ((s.freeBuf i).setBuf i w) := ⟨⟨rfl, rfl, rfl, rfl⟩, rfl, rfl, rfl, rfl, rfl⟩
  constructor
  · unfold Access.store
    split
    · exact h0
    · exact ⟨⟨rfl, rfl, rfl, rfl⟩, rfl, rfl, rfl, rfl, rfl⟩
    · exact ⟨⟨rfl, rfl, rfl, rfl⟩, rfl, rfl, rfl, rfl, rfl⟩
    · exact hb _ v
  · unfold Access.spoil
    split
    · exact h0
    · split
      · exact hb _ _
      · exact ⟨⟨rfl, rfl, rfl, rfl⟩, rfl, rfl, rfl, rfl, rfl⟩

/-- A statement of a microprogram, whatever the samples (42 R169 to R171, 43 R190). -/
theorem microRun_cases (m : Micro) (s : State) :
    Inside s (m.run s).2 ∧ (m.run s).1 ≠ .wait ∧ (m.run s).1 ≠ .refused ∧
    ((m.run s).2.port.diagStalled = true ↔ s.port.diagStalled = true ∨ (m.run s).1 = .stalled) ∧
    tickCount (m.run s).2.env.trace ≤ tickCount s.env.trace + m.maxTicks ∧
    (m.onLine = true → SameSession s.pins (m.run s).2.pins) ∧
    (m.keepsBuf = true → (m.run s).2.port.buf = s.port.buf) := by
  by_cases ha : ∃ a, m = .access a
  · obtain ⟨a, rfl⟩ := ha
    obtain ⟨ps, t, ht, hw, h1, h2, h3, h4⟩ := accessRun_cases a s
    obtain ⟨b, c⟩ := store_or_spoil a (a.run s).value (a.run s).state
    have hi : Inside s (a.run s).state := by
      rcases h4 with ⟨_, e⟩ | ⟨_, e⟩ <;> rw [e]
      · exact hw.inside
      · exact hw.inside.trans ⟨rfl, rfl, rfl, rfl⟩
    have hp : (a.run s).state.pins = restored s.pins := by
      rcases h4 with ⟨_, e⟩ | ⟨_, e⟩ <;> rw [e] <;> exact hw.pins.trans (ht.pins _)
    have hk : tickCount (a.run s).state.env.trace ≤ tickCount s.env.trace + accessTicks := by
      have : tickCount t.env.trace = tickCount s.env.trace + (ps.map Call.tickLength).sum := by
        rw [hw.trace, tickCount_append, tickCount_reverse, tickCount_calls, Nat.add_comm]
      have hts := ht.ticks
      rcases h4 with ⟨_, e⟩ | ⟨_, e⟩ <;> rw [e]
      · omega
      · show tickCount t.env.trace ≤ _
        omega
    have hd : (a.run s).state.port.diagStalled = true ↔ s.port.diagStalled = true ∨ (a.run s).status = .stalled := by
      rcases h4 with ⟨e1, e⟩ | ⟨e1, e⟩ <;> rw [e]
      · rw [hw.port]; simp [e1]
      · simp [e1]
    have hbuf : (a.run s).state.port.buf = s.port.buf := by
      rcases h4 with ⟨_, e⟩ | ⟨_, e⟩ <;> rw [e] <;> simp [hw.port]
    have hs : ∀ v t, (Micro.access a).keepsBuf = true →
        (a.store v t).port.buf = t.port.buf ∧ (a.spoil t).port.buf = t.port.buf := by
      intro v t hb
      obtain ⟨reg, value, sink, idx, fetching⟩ := a
      cases sink <;> cases fetching <;> first | exact ⟨rfl, rfl⟩ | simp [Micro.keepsBuf] at hb
    simp only [Micro.run]
    by_cases ho : (a.run s).status = .ok
    · simp only [ho, if_true]
      rw [ho] at hd
      refine ⟨hi.trans b.inside, by simp, by simp, ?_, ?_, fun _ => ?_, fun hb => ?_⟩
      · rw [b.diag]; exact hd
      · rw [b.trace]; exact hk
      · rw [b.pins, hp]; exact restored_session _
      · rw [(hs _ _ hb).1, hbuf]
    · simp only [ho, if_false]
      refine ⟨hi.trans c.inside, h1, h2, ?_, ?_, fun _ => ?_, fun hb => ?_⟩
      · rw [c.diag]; exact hd
      · rw [c.trace]; exact hk
      · rw [c.pins, hp]; exact restored_session _
      · rw [(hs 0#32 _ hb).2, hbuf]
  · have hr : m.run s = (.ok, m.plain s) := by
      cases m <;> first | rfl | exact absurd ⟨_, rfl⟩ ha
    rw [hr]
    obtain ⟨h1, h2⟩ := plain_inside m s
    refine ⟨h1, by simp, by simp, ?_, ?_, fun h => plain_session m h s, fun _ => ?_⟩
    · rw [h2]; simp
    · by_cases hc : m.isCalls = true
      · obtain ⟨ps, hw, hts, _⟩ := plain_worked m hc s
        show tickCount (m.plain s).env.trace ≤ _
        rw [hw.trace, tickCount_append, tickCount_reverse, tickCount_calls]; omega
      · cases m <;> first | exact Nat.le_refl _ | exact absurd rfl hc
    · rw [h2]

/-! ## A program -/

/-- A microprogram, whatever the samples. -/
theorem runProgram_cases (ms : List Micro) (s : State) :
    Inside s (runProgram ms s).2 ∧
    ((runProgram ms s).2.port.diagStalled = true ↔
      s.port.diagStalled = true ∨ (runProgram ms s).1 = .stalled) ∧
    tickCount (runProgram ms s).2.env.trace ≤ tickCount s.env.trace + (ms.map Micro.maxTicks).sum ∧
    (ms.all Micro.onLine = true → SameSession s.pins (runProgram ms s).2.pins) ∧
    (ms.all Micro.keepsBuf = true → (runProgram ms s).2.port.buf = s.port.buf) := by
  induction ms generalizing s with
  | nil =>
    exact ⟨Inside.refl s, by simp [runProgram], by simp [runProgram], fun _ => SameSession.refl _, fun _ => rfl⟩
  | cons m ms ih =>
    obtain ⟨h1, h2, h3, h4, h5, h6, h7⟩ := microRun_cases m s
    rw [runProgram_cons]
    simp only [List.map_cons, List.sum_cons, List.all_cons, Bool.and_eq_true]
    by_cases ho : (m.run s).1 = .ok
    · simp only [ho, if_true]
      obtain ⟨g1, g2, g3, g4, g5⟩ := ih (m.run s).2
      rw [ho] at h4
      refine ⟨h1.trans g1, ?_, by omega, fun h => (h6 h.1).trans (g4 h.2), fun h => (g5 h.2).trans (h7 h.1)⟩
      rw [g2, h4]; simp
    · simp only [ho, if_false]
      exact ⟨h1, h4, by omega, fun h => h6 h.1, fun h => h7 h.1⟩

/-! ## The line over a program -/

/-- Is the statement an access? -/
def Micro.isAccess : Micro → Bool
  | .access _ => true
  | _ => false

/-- A program of accesses keeps the idle line, and owns the line as 40 R128 says. -/
theorem runProgram_accesses (ms : List Micro) (h : ms.all Micro.isAccess = true) (s : State)
    (hs : lineOf s.pins = idleLine) :
    lineOf (runProgram ms s).2.pins = idleLine ∧
    ∃ ps : List Call, (runProgram ms s).2.env.calls = ps.reverse ++ s.env.calls ∧
      (runProgram ms s).2.env.trace = (ps.flatMap Call.expand).reverse ++ s.env.trace ∧
      ∀ es, ownsLine .output (ps.flatMap Call.expand ++ es) = ownsLine .output es := by
  induction ms generalizing s with
  | nil => exact ⟨hs, [], rfl, rfl, fun es => rfl⟩
  | cons m ms ih =>
    cases m with
    | access a =>
      obtain ⟨ps, t, ht, hw, h1, h2, h3, h4⟩ := accessRun_cases a s
      obtain ⟨b, c⟩ := store_or_spoil a (a.run s).value (a.run s).state
      have hp : lineOf (a.run s).state.pins = idleLine := by
        have : (a.run s).state.pins = restored s.pins := by
          rcases h4 with ⟨_, e⟩ | ⟨_, e⟩ <;> rw [e] <;> exact hw.pins.trans (ht.pins _)
        rw [this, ← hs]
        simp only [idleLine, lineOf, Line.mk.injEq] at hs
        simp [lineOf, restored, hs]
      have he : (a.run s).state.env = t.env := by
        rcases h4 with ⟨_, e⟩ | ⟨_, e⟩ <;> rw [e]
      rw [runProgram_cons]
      simp only [Micro.run]
      by_cases ho : (a.run s).status = .ok
      · simp only [ho, if_true]
        obtain ⟨g1, qs, g2, g3, g4⟩ := ih (by simpa [Micro.isAccess] using h) (a.store (a.run s).value (a.run s).state)
          (by rw [b.pins]; exact hp)
        refine ⟨g1, ps ++ qs, ?_, ?_, fun es => ?_⟩
        · rw [g2, b.calls, he, hw.calls]; simp
        · rw [g3, b.trace, he, hw.trace]; simp
        · rw [List.flatMap_append, List.append_assoc, ht.owns, g4]
      · simp only [ho, if_false]
        exact ⟨by rw [c.pins]; exact hp, ps, by rw [c.calls, he, hw.calls], by rw [c.trace, he, hw.trace], ht.owns⟩
    | _ => simp [Micro.isAccess] at h

/-- A program without accesses cannot fail: its statements are made one after the other (41 R140). -/
theorem runProgram_plain (ms : List Micro) (h : ms.all (fun m => !m.isAccess) = true) (s : State) :
    runProgram ms s = (.ok, ms.foldl (fun s m => m.plain s) s) := by
  induction ms generalizing s with
  | nil => rfl
  | cons m ms ih =>
    have hm : m.run s = (.ok, m.plain s) := by
      cases m <;> first | rfl | simp [Micro.isAccess] at h
    rw [runProgram_cons, hm]
    simp only [if_true, List.foldl_cons]
    exact ih (by simp only [List.all_cons, Bool.and_eq_true] at h; exact h.2) _

end Sys2Proof.Machine
end

