-- ==== Sys2Proof/Laws/Commands.lean ====
section
/-! SUPPORT. The microprograms of the commands: their shape, for every operand. -/

namespace Sys2Proof.Machine

/-- SET_REG's program is one access, or none when it is not started (42 R172). -/
theorem setRegProgram_shape (reg : BitVec 6) (s : State) :
    ∃ l : List Access, setRegProgram reg s = l.map .access ∧ l.length ≤ 1 ∧
      ∀ a ∈ l, a.sink = .drop ∧ a.fetching = none := by
  unfold setRegProgram
  cases regOf reg
  · exact ⟨[], rfl, by simp, by simp⟩
  · exact ⟨[_], rfl, by simp, by simp [Access.write]⟩

/-- GET_REG's program is one access, or none when it is not started (42 R174). -/
theorem getRegProgram_shape (reg : BitVec 6) :
    ∃ l : List Access, getRegProgram reg = l.map .access ∧ l.length ≤ 1 ∧
      ∀ a ∈ l, a.sink = .hold ∧ a.fetching = none := by
  unfold getRegProgram
  cases regOf reg
  · exact ⟨[], rfl, by simp, by simp⟩
  · exact ⟨[_], rfl, by simp, by simp [Access.read]⟩

/-- PEEK_MANY's program is n + 2 accesses, or one (43 R198). -/
theorem peekManyProgram_shape (s : State) :
    ∃ l : List Access, peekManyProgram s = l.map .access ∧ l.length ≤ s.latch.count + 2 := by
  unfold peekManyProgram
  cases s.latch.count with
  | zero => exact ⟨[_], rfl, by simp⟩
  | succ n =>
    refine ⟨⟨Params.regTar, some s.latch.addr, .drop, some 0, some 0⟩ ::
      ⟨Params.regDrw, none, .drop, some 0, some 0⟩ ::
      (List.range n).map (fun i => ⟨Params.regDrw, none, .buf i, some i, some i⟩) ++
      [⟨Params.regRdbuff, none, .last n, some n, some n⟩], ?_, by simp⟩
    simp [fetchWord]

/-- POKE_MANY's program is n + 1 accesses (43 R204). -/
theorem pokeManyProgram_shape (s : State) :
    ∃ l : List Access, pokeManyProgram s = l.map .access ∧ l.length ≤ s.latch.count + 1 ∧
      ∀ a ∈ l, a.sink = .drop ∧ a.fetching = none := by
  refine ⟨Access.write Params.regTar s.latch.addr :: (List.range s.latch.count).map fun i =>
    ⟨Params.regDrw, some (s.bufWord i), .drop, some i, none⟩, ?_, by simp, ?_⟩
  · simp [pokeManyProgram]
  · simp [Access.write]

theorem maxTicks_accesses (l : List Access) :
    ((l.map Micro.access).map Micro.maxTicks).sum = accessTicks * l.length := by
  induction l with
  | nil => rfl
  | cons a l ih =>
    simp only [List.map_cons, List.sum_cons, ih, List.length_cons, Micro.maxTicks, Nat.mul_succ]; omega

theorem onLine_accesses (l : List Access) : (l.map Micro.access).all Micro.onLine = true := by
  rw [List.all_map]; exact List.all_eq_true.2 fun _ _ => rfl

theorem isAccess_accesses (l : List Access) : (l.map Micro.access).all Micro.isAccess = true := by
  rw [List.all_map]; exact List.all_eq_true.2 fun _ _ => rfl

theorem keepsBuf_accesses (l : List Access) (h : ∀ a ∈ l, (∀ i, a.sink ≠ .buf i ∧ a.sink ≠ .last i) ∧ a.fetching = none) :
    (l.map Micro.access).all Micro.keepsBuf = true := by
  rw [List.all_map]
  refine List.all_eq_true.2 fun a ha => ?_
  obtain ⟨h1, h2⟩ := h a ha
  obtain ⟨reg, value, sink, idx, fetching⟩ := a
  simp only at h1 h2
  subst h2
  cases sink <;> first | rfl | exact absurd rfl (h1 _).1 | exact absurd rfl (h1 _).2

/-- The ticks a command can take (42 R181, 70 R268). -/
theorem program_ticks (i : Instr) (c : Command) (h : commandSpec i = some c) (s : State) :
    ((c.program s).map Micro.maxTicks).sum ≤ accessTicks * (10 + s.latch.count) := by
  have hb : accessTicks = 1472 := rfl
  cases i <;> simp only [commandSpec, Option.some.injEq, reduceCtorEq] at h <;> subst h
  case getReg reg =>
    obtain ⟨l, h1, h2, _⟩ := getRegProgram_shape reg
    simp only [getRegCommand, h1, maxTicks_accesses]
    exact Nat.mul_le_mul_left _ (by omega)
  case setReg reg =>
    obtain ⟨l, h1, h2, _⟩ := setRegProgram_shape reg s
    simp only [setRegCommand, h1, maxTicks_accesses]
    exact Nat.mul_le_mul_left _ (by omega)
  case peekMany =>
    obtain ⟨l, h1, h2⟩ := peekManyProgram_shape s
    simp only [peekManyCommand, h1, maxTicks_accesses]
    exact Nat.mul_le_mul_left _ (by omega)
  case pokeMany =>
    obtain ⟨l, h1, h2, _⟩ := pokeManyProgram_shape s
    simp only [pokeManyCommand, h1, maxTicks_accesses]
    exact Nat.mul_le_mul_left _ (by omega)
  all_goals
    simp [initCommand, initProgram, resetCommand, resetProgram, selectTargetCommand, selectTargetProgram, noopCommand,
      disconnectCommand, readIdcodeCommand, setupMemCommand, setupMemProgram, peekCommand, peekProgram, pokeCommand,
      reservedCommand, refusedWord, Micro.maxTicks, hb, Params.noopTicks] <;> omega

/-- Only INIT and DISCONNECT write the session, the pulls and the clock pin's direction (10 R20). -/
theorem program_onLine (i : Instr) (c : Command) (h : commandSpec i = some c) (s : State) (h1 : i ≠ .init)
    (h2 : i ≠ .disconnect) : (c.program s).all Micro.onLine = true := by
  have key : i = .init ∨ i = .disconnect ∨ (c.program s).all Micro.onLine = true := by
    cases i <;> simp only [commandSpec, Option.some.injEq, reduceCtorEq] at h <;> subst h
    case init => exact .inl rfl
    case disconnect => exact .inr (.inl rfl)
    all_goals refine .inr (.inr ?_)
    case getReg reg =>
      obtain ⟨l, e, _⟩ := getRegProgram_shape reg
      simp only [getRegCommand, e, onLine_accesses]
    case setReg reg =>
      obtain ⟨l, e, _⟩ := setRegProgram_shape reg s
      simp only [setRegCommand, e, onLine_accesses]
    case peekMany =>
      obtain ⟨l, e, _⟩ := peekManyProgram_shape s
      simp only [peekManyCommand, e, onLine_accesses]
    case pokeMany =>
      obtain ⟨l, e, _⟩ := pokeManyProgram_shape s
      simp only [pokeManyCommand, e, onLine_accesses]
    all_goals rfl
  exact (key.resolve_left h1).resolve_left h2

/-- Only PEEK_MANY writes BUF (10 R35). -/
theorem program_keepsBuf (i : Instr) (c : Command) (h : commandSpec i = some c) (s : State) (h1 : i ≠ .peekMany) :
    (c.program s).all Micro.keepsBuf = true := by
  have key : i = .peekMany ∨ (c.program s).all Micro.keepsBuf = true := by
    cases i <;> simp only [commandSpec, Option.some.injEq, reduceCtorEq] at h <;> subst h
    case peekMany => exact .inl rfl
    all_goals refine .inr ?_
    case getReg reg =>
      obtain ⟨l, e, _, hl⟩ := getRegProgram_shape reg
      simp only [getRegCommand, e]
      exact keepsBuf_accesses l fun a ha => ⟨by simp [(hl a ha).1], (hl a ha).2⟩
    case setReg reg =>
      obtain ⟨l, e, _, hl⟩ := setRegProgram_shape reg s
      simp only [setRegCommand, e]
      exact keepsBuf_accesses l fun a ha => ⟨by simp [(hl a ha).1], (hl a ha).2⟩
    case pokeMany =>
      obtain ⟨l, e, _, hl⟩ := pokeManyProgram_shape s
      simp only [pokeManyCommand, e]
      exact keepsBuf_accesses l fun a ha => ⟨by simp [(hl a ha).1], (hl a ha).2⟩
    all_goals rfl
  exact key.resolve_left h1

/-- The commands that run no access (41 R140); the reserved ones have no program. -/
def linkOnly : Instr → Bool
  | .init | .reset | .selectTarget | .noop | .disconnect => true
  | _ => false

/-- The commands that run accesses run nothing else (42 R172 to R176, 43 R190). -/
theorem program_accesses (i : Instr) (c : Command) (h : commandSpec i = some c) (s : State)
    (h1 : linkOnly i = false) : (c.program s).all Micro.isAccess = true := by
  cases i <;> simp only [commandSpec, Option.some.injEq, reduceCtorEq] at h <;> subst h
  case init => cases h1
  case reset => cases h1
  case selectTarget => cases h1
  case noop => cases h1
  case disconnect => cases h1
  case getReg reg =>
    obtain ⟨l, e, _⟩ := getRegProgram_shape reg
    simp only [getRegCommand, e, isAccess_accesses]
  case setReg reg =>
    obtain ⟨l, e, _⟩ := setRegProgram_shape reg s
    simp only [setRegCommand, e, isAccess_accesses]
  case peekMany =>
    obtain ⟨l, e, _⟩ := peekManyProgram_shape s
    simp only [peekManyCommand, e, isAccess_accesses]
  case pokeMany =>
    obtain ⟨l, e, _⟩ := pokeManyProgram_shape s
    simp only [pokeManyCommand, e, isAccess_accesses]
  all_goals rfl

end Sys2Proof.Machine
end

