-- ==== Sys2Proof/Laws/Exchanges.lean ====
section
/-! SUPPORT. Lists of accesses against a scripted peer (43 R190): answered OK one after the other, and failing. -/

namespace Sys2Proof.Machine

open Sys2Proof.Safety

/-! ## The calls, in the words of the statements -/

theorem endedCalls_eq (r : RegAddr) (rnw : Bool) (a : BitVec 3) : endedCalls r rnw a = endedPadded (req r rnw) a := rfl

theorem waitCalls_eq (r : RegAddr) (rnw : Bool) (k : Nat) : waitCalls r rnw k = waitPadded (req r rnw) k := rfl

theorem writeOkCalls_eq (r : RegAddr) (v : Word) : writeOkCalls r v = writeCalls (req r false) 1#32 v true := rfl

theorem readCallsOf_eq (r : RegAddr) (d : Word) (p : Bool) :
    readCallsOf r d p = readCalls (req r true) 1#32 d (levelWord p) true := rfl

/-! ## One access -/

/-- An access answered OK after fewer WAITs than the bound (42 R170, R171): its calls, and its value stored. -/
theorem access_ok (a : Access) (e : Exchange) (s : State) (rest : List Bool) (he : e.access = (a.reg, a.value))
    (hk : e.waits < Config.waitRetryBound) (hs : s.env.samples = e.answers ++ rest) :
    ∃ t, Worked e.calls s t ∧ t.env.samples = rest ∧
      (Micro.access a).run s = (.ok, a.store (if a.value.isNone then e.data else Config.sentinel) t) := by
  obtain ⟨reg, value, sink, idx, fetching⟩ := a
  obtain ⟨er, ev, k, d⟩ := e
  simp only [Exchange.access, Prod.mk.injEq] at he
  obtain ⟨rfl, rfl⟩ := he
  have hb (a : Access) : Worked [] s (a.begin s) := ⟨rfl, rfl, rfl, rfl, rfl, rfl, rfl, rfl⟩
  cases ev with
  | some v =>
    obtain ⟨t, h1, h2, h3⟩ := accessWrite_script er v (Access.begin ⟨er, some v, sink, idx, fetching⟩ s) k 1#3 rest
      hk (by decide) hs
    exact ⟨t, (hb _).trans h1, h2, by simp only [Micro.run, Access.run, h3]; rfl⟩
  | none =>
    obtain ⟨t, h1, h2, h3⟩ := accessRead_script er (Access.begin ⟨er, none, sink, idx, fetching⟩ s) k d (parity d)
      rest hk hs
    have hc : checkRead d (parity d) = .ok := if_pos rfl
    rw [hc] at h3
    exact ⟨t, (hb _).trans h1, h2, by simp only [Micro.run, Access.run, h3]; rfl⟩

/-- An access that fails in one of the ways of 60 R221: its calls, its status, and what it leaves in BUF. -/
theorem access_fails (a : Access) (f : Failure) (s : State) (rest : List Bool) (hf : f.possible a.value)
    (hs : s.env.samples = f.answers ++ rest) :
    ∃ t, Worked (f.calls a.reg a.value) s t ∧ t.env.samples = rest ∧ f.status ≠ .ok ∧
      (Micro.access a).run s = (f.status, a.spoil
        { t with port := { t.port with diagStalled := t.port.diagStalled || f == .stalled } }) := by
  obtain ⟨reg, value, sink, idx, fetching⟩ := a
  have hb (a : Access) : Worked [] s (a.begin s) := ⟨rfl, rfl, rfl, rfl, rfl, rfl, rfl, rfl⟩
  have hz0 (a : Access) : Worked [] s { a.begin s with seq := { (a.begin s).seq with attempt := 0 } } :=
    ⟨rfl, rfl, rfl, rfl, rfl, rfl, rfl, rfl⟩
  have hz (t : State) : { t with port := { t.port with diagStalled := t.port.diagStalled || false } } = t := by simp
  cases f with
  | stalled =>
    cases value with
    | some v =>
      obtain ⟨t, h1, h2, h3⟩ := access_script_stalled (xferWrite reg v) _ (xferWrite_wait reg v)
        { Access.begin ⟨reg, some v, sink, idx, fetching⟩ s with
          seq := { (Access.begin ⟨reg, some v, sink, idx, fetching⟩ s).seq with attempt := 0 } } rest hs
      have hw := (hz0 _).trans h1
      refine ⟨t, hw, h2, nofun, ?_⟩
      simp only [Micro.run, Access.run, accessWrite, h3]
      simp [Failure.status]
    | none =>
      obtain ⟨t, h1, h2, h3⟩ := access_script_stalled (xferRead reg) _ (xferRead_wait reg)
        { Access.begin ⟨reg, none, sink, idx, fetching⟩ s with
          seq := { (Access.begin ⟨reg, none, sink, idx, fetching⟩ s).seq with attempt := 0 } } rest hs
      have hw := (hz0 _).trans h1
      refine ⟨t, hw, h2, nofun, ?_⟩
      simp only [Micro.run, Access.run, accessRead, h3]
      simp [Failure.status]
  | badAck k c =>
    obtain ⟨hk, h1, h2⟩ := hf
    have hst : ackStatus c = (Failure.badAck k c).status := by simp [ackStatus, Failure.status, h1, h2]
    have hne : (Failure.badAck k c).status ≠ .ok := by rw [← hst]; exact mt (ackStatus_ok c).1 h1
    have hd : (Failure.badAck k c == .stalled) = false := rfl
    cases value with
    | some v =>
      obtain ⟨t, g1, g2, g3⟩ := accessWrite_script reg v (Access.begin ⟨reg, some v, sink, idx, fetching⟩ s) k c rest
        hk h2 hs
      rw [if_neg h1] at g1
      refine ⟨t, (hb _).trans g1, g2, hne, ?_⟩
      simp only [Micro.run, Access.run, g3, hst, hne, if_false, hd, hz]
    | none =>
      obtain ⟨t, g1, g2, g3⟩ := accessRead_script_bad reg (Access.begin ⟨reg, none, sink, idx, fetching⟩ s) k c rest
        hk h2 h1 hs
      refine ⟨t, (hb _).trans g1, g2, hne, ?_⟩
      simp only [Micro.run, Access.run, g3, hst, hne, if_false, hd, hz]
  | badParity k d =>
    obtain ⟨hk, rfl⟩ := hf
    obtain ⟨t, g1, g2, g3⟩ := accessRead_script reg (Access.begin ⟨reg, none, sink, idx, fetching⟩ s) k d (!parity d)
      rest hk hs
    have hc : checkRead d (!parity d) = .protocolError := if_neg (by simp)
    have hd : (Failure.badParity k d == .stalled) = false := rfl
    refine ⟨t, (hb _).trans g1, g2, nofun, ?_⟩
    simp only [Micro.run, Access.run, g3, hc, hd, hz]
    rfl

/-! ## A list of accesses -/

/-- What an access does to BUF; f numbers the free values of the entries that become unspecified. -/
def Sink.inBuf (f : Nat) (sink : Sink) (d : Word) (b : Vector Word Config.bufDepth) : Vector Word Config.bufDepth :=
  match sink with
  | .buf i => b.setIfInBounds i d
  | .last i => (b.mapIdx fun j w => if i ≤ j then Config.freeEntry (f + j) else w).setIfInBounds i d
  | _ => b

/-- The value a command reports, after an access. -/
def Sink.inHeld (sink : Sink) (d h : Word) : Word :=
  match sink with
  | .hold => d
  | _ => h

/-- What a write access has for a value is SENTINEL, which is dropped; here every write does drop it. -/
def Access.dropsWrites (a : Access) : Prop := a.value ≠ none → a.sink = .drop

/-- From s to t the engine made the calls of a list of accesses answered with the data ds, and stored these. -/
structure Exchanged (l : List Access) (ds : List Word) (ps : List Call) (s t : State) : Prop where
  port : t.port = { s.port with buf := t.port.buf }
  buf : ∃ f, t.port.buf = (l.zip ds).foldl (fun b x => x.1.sink.inBuf f x.2 b) s.port.buf
  held : t.seq.held = (l.zip ds).foldl (fun h x => x.1.sink.inHeld x.2 h) s.seq.held
  latch : t.latch = s.latch
  pos : t.seq.pos = s.seq.pos
  host : t.env.inputs = s.env.inputs
  pins : t.pins = ps.foldl (fun p c => c.pins p) s.pins
  calls : t.env.calls = ps.reverse ++ s.env.calls
  trace : t.env.trace = (ps.flatMap Call.expand).reverse ++ s.env.trace

/-- Only the last access of a list is one after which entries of BUF become unspecified. -/
def FreesLast (l : List Access) : Prop := ∀ a ∈ l.dropLast, ∀ i, a.sink ≠ .last i

/-- A list of accesses, each answered OK after fewer WAITs than the bound (43 R190), and what follows it in the
program. -/
theorem runProgram_exchanges (l : List Access) (es : List Exchange) (more : List Micro) (s : State) (rest : List Bool)
    (he : es.map Exchange.access = l.map fun a => (a.reg, a.value)) (hl : ∀ a ∈ l, a.dropsWrites)
    (hf : FreesLast l) (hs : AnswersOk es s.env.samples rest) :
    ∃ t, Exchanged l (es.map Exchange.data) (es.flatMap Exchange.calls) s t ∧ t.env.samples = rest ∧
      runProgram (l.map Micro.access ++ more) s = runProgram more t := by
  induction l generalizing es s with
  | nil =>
    obtain rfl : es = [] := List.map_eq_nil_iff.1 he
    exact ⟨s, ⟨rfl, ⟨0, rfl⟩, rfl, rfl, rfl, rfl, rfl, rfl, rfl⟩, hs.1, rfl⟩
  | cons a l ih =>
    cases es with
    | nil => exact absurd he (by simp)
    | cons e es =>
      simp only [List.map_cons, List.cons.injEq] at he
      obtain ⟨h1, h2⟩ := hs
      rw [List.flatMap_cons, List.append_assoc] at h1
      obtain ⟨t, w, ws, hr⟩ := access_ok a e s _ he.1 (h2 e (List.mem_cons_self ..)) h1
      have hst : a.store (if a.value.isNone then e.data else Config.sentinel) t = a.store e.data t := by
        have hd := hl a (List.mem_cons_self ..)
        unfold Access.dropsWrites at hd
        obtain ⟨reg, value, sink, idx, fetching⟩ := a
        cases value with
        | none => rfl
        | some v => obtain rfl : sink = .drop := hd nofun; rfl
      rw [hst] at hr
      obtain ⟨b, -⟩ := store_or_spoil a e.data t
      have hh : (a.store e.data t).seq.held = a.sink.inHeld e.data s.seq.held := by
        rw [← w.held]
        obtain ⟨reg, value, sink, idx, fetching⟩ := a
        cases sink <;> rfl
      have hb : ∀ f, (∀ i, a.sink ≠ .last i) ∨ f = t.env.fresh →
          (a.store e.data t).port.buf = a.sink.inBuf f e.data s.port.buf := by
        intro f hf
        rw [← w.port]
        obtain ⟨reg, value, sink, idx, fetching⟩ := a
        cases sink with
        | last i => rcases hf with hf | rfl
                    · exact absurd rfl (hf i)
                    · rfl
        | _ => rfl
      obtain ⟨u, x, xs, xr⟩ := ih es (a.store e.data t) he.2 (fun b hb => hl b (List.mem_cons_of_mem _ hb))
        (fun b hb => by
          cases l with
          | nil => cases hb
          | cons c l => exact hf b (List.mem_cons_of_mem _ hb))
        ⟨by rw [b.samples]; exact ws, fun e he => h2 e (List.mem_cons_of_mem _ he)⟩
      refine ⟨u, ⟨?_, ?_, ?_, ?_, ?_, ?_, ?_, ?_, ?_⟩, xs, ?_⟩
      · rw [x.port, b.inside.port, b.diag, w.port]
      · obtain ⟨f, hx⟩ := x.buf
        cases l with
        | nil => exact ⟨t.env.fresh, by rw [hx, hb _ (.inr rfl)]; rfl⟩
        | cons c l => exact ⟨f, by rw [hx, hb _ (.inl (hf a (List.mem_cons_self ..)))]; rfl⟩
      · rw [x.held, hh]; rfl
      · rw [x.latch, b.inside.latch, w.latch]
      · rw [x.pos, b.inside.pos, w.pos]
      · rw [x.host, b.inside.host, w.host]
      · rw [x.pins, b.pins, w.pins, List.flatMap_cons, List.foldl_append]
      · rw [x.calls, b.calls, w.calls, List.flatMap_cons]; simp
      · rw [x.trace, b.trace, w.trace, List.flatMap_cons]; simp
      · rw [List.map_cons, List.cons_append, runProgram_cons, hr]; exact xr

/-- The words of BUF that POKE_MANY sends (43 R204). -/
theorem bufWords_eq (s : State) (n : Nat) (h : n ≤ Config.bufDepth) :
    (List.range n).map s.bufWord = s.port.buf.toList.take n := by
  refine List.ext_getElem? fun i => ?_
  rw [List.getElem?_map, List.getElem?_take]
  by_cases hi : i < n
  · rw [if_pos hi, List.getElem?_range hi, Option.map_some, State.bufWord,
      Vector.getElem?_eq_getElem (show i < Config.bufDepth by omega), Option.getD_some,
      List.getElem?_eq_getElem (by simp; omega)]
    simp
  · rw [if_neg hi, List.getElem?_eq_none (by simp; omega), Option.map_none]

/-- The program of a memory command is a list of accesses, the ones its rule lists (43 R191 to R204). -/
theorem program_accessList (i : Instr) (c : Command) (h : commandSpec i = some c) (s : State)
    (hi : accessList s.port i ≠ []) (hn : i = .peekMany ∨ i = .pokeMany → s.port.argCount ≤ Config.bufDepth) :
    ∃ l : List Access, c.program s.latchOperands = l.map Micro.access ∧
      l.map (fun a => (a.reg, a.value)) = accessList s.port i ∧ (∀ a ∈ l, a.dropsWrites) ∧ FreesLast l := by
  cases i <;> try exact absurd rfl hi
  all_goals simp only [commandSpec, Option.some.injEq] at h; subst h
  case setupMem =>
    exact ⟨[_, _, _, _, _, _, _, _, _, _], rfl, rfl, by simp [Access.dropsWrites, Access.write, Access.read],
      by simp [FreesLast, Access.write, Access.read]⟩
  case peek => exact ⟨[_, _, _], rfl, rfl, by simp [Access.dropsWrites, Access.write, Access.read],
      by simp [FreesLast, Access.write, Access.read]⟩
  case poke =>
    exact ⟨[_, _], rfl, rfl, by simp [Access.dropsWrites, Access.write], by simp [FreesLast, Access.write]⟩
  case pokeMany =>
    refine ⟨Access.write Params.regTar s.port.argAddr :: (List.range s.port.argCount).map fun i =>
      ⟨Params.regDrw, some (s.bufWord i), .drop, some i, none⟩, ?_, ?_, ?_, ?_⟩
    · simp only [pokeManyCommand, pokeManyProgram, List.map_cons, List.map_map]; rfl
    · rw [accessList, ← bufWords_eq s _ (hn (.inr rfl))]; simp [Access.write, Params.regTar, Params.regDrw]
    · simp [Access.dropsWrites, Access.write]
    · intro a ha i
      have := List.dropLast_subset _ ha
      simp only [List.mem_cons, List.mem_map] at this
      rcases this with rfl | ⟨k, -, rfl⟩ <;> exact nofun
  case peekMany =>
    simp only [peekManyCommand, peekManyProgram, latchOperands_count, latchOperands_addr, accessList]
    cases s.port.argCount with
    | zero => exact ⟨[_], rfl, rfl, by simp [Access.dropsWrites], by simp [FreesLast]⟩
    | succ n =>
      refine ⟨⟨Params.regTar, some s.port.argAddr, .drop, some 0, some 0⟩ ::
        ⟨Params.regDrw, none, .drop, some 0, some 0⟩ ::
        (List.range n).map (fun i => ⟨Params.regDrw, none, .buf i, some i, some i⟩) ++
        [⟨Params.regRdbuff, none, .last n, some n, some n⟩], ?_, ?_, ?_, ?_⟩
      · simp [fetchWord]
      · simp [List.replicate_succ, Params.regTar, Params.regDrw, Params.regRdbuff, Function.comp_def]
      · simp only [List.cons_append, List.mem_cons, List.mem_append, List.mem_map, List.not_mem_nil, or_false]
        rintro a (rfl | rfl | ⟨i, -, rfl⟩ | rfl) <;> simp [Access.dropsWrites]
      · intro a ha k
        rw [List.dropLast_concat] at ha
        simp only [List.mem_cons, List.mem_map] at ha
        rcases ha with rfl | rfl | ⟨i, -, rfl⟩ <;> exact nofun

end Sys2Proof.Machine
end

