-- ==== Sys2Proof/Laws/Peer.lean ====
section
/-! SUPPORT. The peer over whole transactions (10 R38 to R46, 20 R56, R58, R62): what it hears of each, said once. -/

namespace Sys2Proof.Machine

open Sys2Proof.Safety

theorem follow_append (cs ds : List Call) (p : MemPeer) :
    p.follow (cs ++ ds) = (p.follow cs).bind (·.follow ds) := by
  induction cs generalizing p with
  | nil => rfl
  | cons c cs ih =>
    rw [List.cons_append, MemPeer.follow, MemPeer.follow]
    cases p.see c with
    | none => rfl
    | some q => exact ih q

/-- One piece of a run after another. -/
theorem follow_next {cs ds : List Call} {p q : MemPeer} (h : p.follow cs = some q) :
    p.follow (cs ++ ds) = q.follow ds := by rw [follow_append, h]; rfl

/-! ## A component's registers -/

/-- The address is said for SETUP_MEM's transfer-control word and a multiple of 4 (10 R43, 20 R59). -/
theorem address_aligned {g : Regs} {a : Word} (ht : g.tar = some a) (hc : g.csw = some Config.cswWord)
    (ha : a.extractLsb' 0 2 = 0#2) : g.address = some a := by
  simp [Regs.address, ht, hc, ha]

/-- A write of the data register at such an address (10 R43, 20 R56, R67). -/
theorem store_aligned {g : Regs} {a : Word} (c : Component) (v : Word) (ht : g.tar = some a)
    (hc : g.csw = some Config.cswWord) (ha : a.extractLsb' 0 2 = 0#2) :
    g.store c v = { g with
      mem := fun b => if b = a then none else g.mem b, pending := some (a, v), tar := c.advanced a } := by
  rw [Regs.store, address_aligned ht hc ha]

/-- A read of the data register at such an address (10 R43, 20 R58). -/
theorem fetch_aligned {g : Regs} {a : Word} (c : Component) (ht : g.tar = some a) (hc : g.csw = some Config.cswWord)
    (ha : a.extractLsb' 0 2 = 0#2) : g.fetch c = { g with posted := g.mem a, tar := c.advanced a } := by
  rw [Regs.fetch, address_aligned ht hc ha]

/-- Within a range of the auto-increment TAR goes to the next word (20 R56). -/
theorem advanced_within {c : Component} {a : Word} (h : c.ends a = false) : c.advanced a = some (a + 4#32) := by
  rw [Component.advanced, h]; rfl

/-- SETUP_MEM's write of the abort register (10 R45). -/
theorem write_abort (g : Regs) (c : Component) :
    g.write c .abort Config.abortClearWord = some { g with sticky := some false } := if_pos rfl

/-- SETUP_MEM's write of the control/status register (10 R45). -/
theorem write_ctrlstat (g : Regs) (c : Component) :
    g.write c .ctrlstat Config.ctrlstatPowerupWord =
      some { g with ctrlstat := some Config.ctrlstatPowerupWord, sticky := some false } := if_pos rfl

@[simp] theorem settle_select (g : Regs) : g.settle.select = g.select := by unfold Regs.settle; split <;> rfl
@[simp] theorem settle_csw (g : Regs) : g.settle.csw = g.csw := by unfold Regs.settle; split <;> rfl
@[simp] theorem settle_tar (g : Regs) : g.settle.tar = g.tar := by unfold Regs.settle; split <;> rfl
@[simp] theorem settle_posted (g : Regs) : g.settle.posted = g.posted := by unfold Regs.settle; split <;> rfl
@[simp] theorem settle_sticky (g : Regs) : g.settle.sticky = g.sticky := by unfold Regs.settle; split <;> rfl
@[simp] theorem settle_pending (g : Regs) : g.settle.pending = none := by
  unfold Regs.settle; split
  · assumption
  · rfl

@[simp] theorem flagged_settle_mem (g : Regs) (fault : Bool) : (g.flagged fault).settle.mem = g.settle.mem := by
  unfold Regs.settle Regs.flagged; split <;> simp_all

/-- A failed write of the data register leaves every word alone but the one addressed (43 R205, 60 R229), and after FAULT that
one too (95 V109). -/
theorem failedWrite_keeps {g : Regs} {a b : Word} (fault : Bool) (ha : g.address = some a) (hb : fault = false → b ≠ a) :
    ∃ g', g.failedWrite .drw fault = some g' ∧ g'.settle.mem b = g.settle.mem b := by
  cases fault with
  | true => exact ⟨_, rfl, by unfold Regs.settle; cases g.pending <;> rfl⟩
  | false =>
    have hb := hb rfl
    refine ⟨_, rfl, ?_⟩
    simp only [Bool.false_eq_true, if_false, Regs.mayStore, ha, Regs.settle]
    cases g.pending with
    | none => simp [hb]
    | some x =>
      by_cases hx : x.1 = a
      · simp [Option.filter, hx, hb]
      · simp [Option.filter, hx, hb]

/-! ## What the peer hears of a transaction -/

/-- The frame of a request is read back as that request (30 R81, R83). -/
theorem requestOf_frameOf (r : RegAddr) (rnw : Bool) : requestOf (frameOf r rnw) = some (r, rnw) := by
  obtain ⟨sel, a⟩ := r
  have : ∀ a : BitVec 2, requestOf (frameOf ⟨sel, a⟩ rnw) = some (⟨sel, a⟩, rnw) := by
    cases sel <;> cases rnw <;> decide
  exact this a

/-- A call that is none of RESET's words breaks off what has been heard of it. -/
theorem hear_other (p : MemPeer) (c : Call) (hp : c ≠ .pad) (h : c ∉ wakeWords) : p.hear c = { p with heard := 0 } := by
  have hn : ∀ n : Nat, wakeWords[n]? ≠ some c := fun n e => h (List.mem_of_getElem? e)
  cases c <;> first | exact absurd rfl hp | simp only [MemPeer.hear, hn, if_false]

/-- No request frame is one of RESET's words. -/
theorem frame_not_wake (r : RegAddr) (rnw : Bool) : Call.write (frameOf r rnw) 8 ∉ wakeWords := by
  obtain ⟨sel, a⟩ := r
  have : ∀ a : BitVec 2, Call.write (frameOf ⟨sel, a⟩ rnw) 8 ∉ wakeWords := by cases sel <;> cases rnw <;> decide
  exact this a

@[simp] theorem see_pad (p : MemPeer) : p.see .pad = some p := rfl

theorem see_frame (p : MemPeer) (r : RegAddr) (rnw : Bool) :
    p.see (.write (frameOf r rnw) 8) = some { p with heard := 0, request := some (r, rnw) } := by
  rw [MemPeer.see, hear_other _ _ (by simp) (frame_not_wake r rnw), MemPeer.act, requestOf_frameOf]

theorem see_turn (p : MemPeer) (d : Dir) : p.see (.turn d) = some { p with heard := 0 } := by
  rw [MemPeer.see, hear_other _ _ (by simp) (by simp [wakeWords])]
  rfl

theorem see_ack (p : MemPeer) (a : Word) :
    p.see (.read 3 a) = some (MemPeer.acked { p with heard := 0 } a) := by
  rw [MemPeer.see, hear_other _ _ (by simp) (by simp [wakeWords])]
  rfl

theorem see_data (p : MemPeer) (v : Word) (h : p.heard = 0) :
    p.see (.write v 32) = some { p with heard := if v = Params.lineResetW0 then 1 else 0, data := v } := by
  by_cases hv : v = Params.lineResetW0
  · subst hv
    simp [MemPeer.see, MemPeer.hear, h, wakeWords, MemPeer.act]
  · simp [MemPeer.see, MemPeer.hear, h, wakeWords, MemPeer.act, hv, Ne.symm hv]

theorem see_parity (p : MemPeer) (v : Word) (r : RegAddr) (hd : p.data = v) (hr : p.request = some (r, false)) :
    p.see (.write (levelWord (parity v)) 1) =
      some { MemPeer.written { p with heard := 0 } r with request := none } := by
  rw [MemPeer.see, hear_other _ _ (by simp) (by simp [wakeWords])]
  simp [MemPeer.act, hr, hd]

theorem see_word (p : MemPeer) (v : Word) (r : RegAddr) (hr : p.request = some (r, true)) :
    p.see (.read 32 v) = some { p with heard := 0, data := v } := by
  rw [MemPeer.see, hear_other _ _ (by simp) (by simp [wakeWords])]
  simp only [MemPeer.act, hr]

theorem see_readParity (p : MemPeer) (v : Word) (r : RegAddr) (hd : p.data = v) (hr : p.request = some (r, true)) :
    p.see (.read 1 (levelWord (parity v))) =
      if p.sends r v then some { MemPeer.delivered { p with heard := 0 } r with request := none } else none := by
  rw [MemPeer.see, hear_other _ _ (by simp) (by simp [wakeWords])]
  simp only [MemPeer.act, hr, hd, if_true]
  rfl

/-- A write transaction with an OK ACK. -/
theorem follow_writeOk (p : MemPeer) (r : RegAddr) (v : Word) :
    p.follow (writeOkCalls r v) =
      some { MemPeer.written { p with
        heard := 0, request := some (r, false), data := v } r with request := none } := by
  have ha (q : MemPeer) : q.acked 1#32 = q := by
    unfold MemPeer.acked; cases q.request <;> simp
  simp only [writeOkCalls, endedCalls, List.cons_append, List.nil_append, MemPeer.follow, see_pad, see_frame, see_turn,
    show BitVec.setWidth 32 1#3 = 1#32 from rfl, see_ack, ha, see_data]
  rw [see_parity _ v r rfl rfl]

/-- A read transaction with an OK ACK and the right parity. -/
theorem follow_readOk (p : MemPeer) (r : RegAddr) (d : Word) :
    p.follow (readOkCalls r d) =
      if p.sends r d then
        some { MemPeer.delivered { p with heard := 0, request := some (r, true), data := d } r with
          heard := 0, request := none }
      else none := by
  have ha (q : MemPeer) : q.acked 1#32 = q := by
    unfold MemPeer.acked; cases q.request <;> simp
  simp only [readOkCalls, readCallsOf, MemPeer.follow, see_pad, see_frame, see_turn, see_ack, ha]
  rw [see_word (r := r) (hr := rfl)]
  simp only []
  rw [see_readParity _ d r rfl rfl,
    show MemPeer.sends { p with heard := 0, request := some (r, true), data := d } r d = p.sends r d from rfl]
  cases p.sends r d <;> rfl

/-- A transaction answered WAIT has no effect (20 R62), unless the register is the target-select one. -/
theorem follow_wait (p : MemPeer) (r : RegAddr) (rnw : Bool)
    (h : selectsTarget r rnw = false) :
    p.follow (endedCalls r rnw 2#3) = some { p with heard := 0, request := none } := by
  simp only [endedCalls, MemPeer.follow, see_pad, see_frame, see_turn, see_ack, MemPeer.acked]
  simp [h]

/-- Attempts answered WAIT have no effect (20 R62), unless the register is the target-select one. -/
theorem follow_waits (p : MemPeer) (r : RegAddr) (rnw : Bool) (k : Nat)
    (h : selectsTarget r rnw = false) :
    ∃ q, p.follow (waitCalls r rnw k) = some q ∧ (q = p ∨ q = { p with heard := 0, request := none }) := by
  induction k generalizing p with
  | zero => exact ⟨p, rfl, .inl rfl⟩
  | succ k ih =>
    rw [show waitCalls r rnw (k + 1) = endedCalls r rnw 2#3 ++ waitCalls r rnw k from rfl, follow_append, follow_wait p r rnw h]
    obtain ⟨q, hq, hc⟩ := ih { p with heard := 0, request := none }
    exact ⟨q, hq, .inr (by rcases hc with rfl | rfl <;> rfl)⟩

/-- A transaction with an ACK that is neither OK nor WAIT has failed (20 R62), unless the register is the target-select
one. -/
theorem follow_bad (p : MemPeer) (r : RegAddr) (rnw : Bool) (a : BitVec 3) (h : selectsTarget r rnw = false)
    (h1 : a ≠ 1#3) (h2 : a ≠ 2#3) :
    p.follow (endedCalls r rnw a) = some
      { MemPeer.failed { p with heard := 0, request := some (r, rnw) } r rnw (a == 4#3) with heard := 0, request := none } := by
  have h1 : a.setWidth 32 ≠ 1#32 := by revert a; decide
  have h2 : a.setWidth 32 ≠ 2#32 := by revert a; decide
  have h4 : (a.setWidth 32 == 4#32) = (a == 4#3) := by revert a; decide
  simp only [endedCalls, MemPeer.follow, see_pad, see_frame, see_turn, see_ack, MemPeer.acked, h1, h2, h, h4, if_false,
    Bool.false_eq_true]

/-! ## A ready link -/

/-- The link is ready, component k answers, it is c, and its registers and memory are g. -/
structure MemPeer.Serves (p : MemPeer) (k : Nat) (c : Component) (g : Regs) : Prop where
  link : p.link = .ready
  active : p.active = some k
  part : p.parts k = c
  regs : p.regs k = g

variable {p : MemPeer} {k : Nat} {c : Component} {g : Regs}

theorem MemPeer.Serves.component (h : p.Serves k c g) : p.component = some c := by
  rw [MemPeer.component, h.active, Option.map_some, h.part]

theorem MemPeer.Serves.now (h : p.Serves k c g) : p.now = g := by
  rw [MemPeer.now, h.active, Option.map_some, h.regs, Option.getD_some]

theorem MemPeer.Serves.shown (h : p.Serves k c g) (r : RegAddr) (rnw : Bool) :
    p.shown r rnw = c.shown g.select r rnw := by
  rw [MemPeer.shown, h.component, h.now]; rfl

/-- What a read carries when the link is ready (20 R58). -/
theorem MemPeer.Serves.carries (h : p.Serves k c g) (r : RegAddr) :
    p.carries r =
      if r.sel = .ap ∨ c.shown g.select r true = some .rdbuff then g.posted
      else if r.sel = .dp ∧ c.shown g.select r true = some .idcode then c.idcode
      else none := by
  simp [MemPeer.carries, h.link, h.shown, h.now, h.component]

/-- A failed write of a register of the component that answers (60 R229). -/
theorem MemPeer.Serves.spoiledWrite (h : p.Serves k c g) (r : RegAddr) (reg : PeerReg) (fault : Bool) (g' : Regs)
    (hr : c.shown g.select r false = some reg) (hg : g.failedWrite reg fault = some g') :
    (p.spoiled r false fault).Serves k c (g'.flagged fault) := by
  simp only [MemPeer.spoiled, h.link, if_true, h.active, h.shown, hr, h.regs, hg, Option.map_some]
  cases fault with
  | true => exact ⟨h.link, h.active, h.part, if_pos rfl⟩
  | false =>
    simp only [Bool.false_eq_true, if_false, MemPeer.stir]
    split <;> exact ⟨h.link, h.active, h.part, if_pos rfl⟩

/-- What is under way in a transaction is no matter. -/
theorem MemPeer.Serves.transient (h : p.Serves k c g) (n : Nat) (rq : Option (RegAddr × Bool))
    (d : Word) :
    MemPeer.Serves { p with heard := n, request := rq, data := d } k c g :=
  ⟨h.link, h.active, h.part, h.regs⟩

/-- A write of a register of the component that answers (10 R41 to R46, 20 R56). -/
theorem MemPeer.Serves.written (h : p.Serves k c g) (r : RegAddr) (reg : PeerReg) (g' : Regs)
    (hs : selectsTarget r false = false) (hr : c.shown g.select r false = some reg)
    (hg : g.settle.write c reg p.data = some g') : (p.written r).Serves k c g' := by
  simp only [MemPeer.written, h.link, reduceCtorEq, if_false, hs, if_true, h.active, h.shown, hr, h.regs, h.part, hg,
    Bool.false_eq_true]
  unfold MemPeer.stir
  split
  · exact ⟨h.link, h.active, h.part, if_pos rfl⟩
  · exact ⟨h.link, h.active, h.part, if_pos rfl⟩

/-- An AP read of a register of the component that answers (20 R58). -/
theorem MemPeer.Serves.deliveredAp (h : p.Serves k c g) (r : RegAddr) (reg : PeerReg) (ha : r.sel = .ap)
    (hr : c.shown g.select r true = some reg) : (p.delivered r).Serves k c (g.settle.read c reg) := by
  simp only [MemPeer.delivered, h.link, if_true, ha, h.active, h.shown, hr, h.regs, h.part]
  exact ⟨h.link, h.active, h.part, if_pos rfl⟩

/-- A DP read posts nothing (20 R58). -/
theorem MemPeer.Serves.deliveredDp (h : p.Serves k c g) (r : RegAddr) (hd : r.sel = .dp) :
    (p.delivered r).Serves k c g.settle := by
  simp only [MemPeer.delivered, h.link, if_true, hd]
  exact ⟨h.link, h.active, h.part, by simp [MemPeer.settle, h.active, h.regs]⟩

/-- WAITs are no matter (20 R62). -/
theorem MemPeer.Serves.waits (h : p.Serves k c g) (r : RegAddr) (rnw : Bool) (n : Nat) (hs : selectsTarget r rnw = false) :
    ∃ q, p.follow (waitCalls r rnw n) = some q ∧ q.Serves k c g := by
  obtain ⟨q, hq, rfl | rfl⟩ := follow_waits p r rnw n hs
  · exact ⟨_, hq, h⟩
  · exact ⟨_, hq, ⟨h.link, h.active, h.part, h.regs⟩⟩

/-- A write access, answered OK after some WAITs. -/
theorem MemPeer.Serves.followWrite (h : p.Serves k c g) (r : RegAddr) (v : Word) (n : Nat) (d : Word) (reg : PeerReg)
    (g' : Regs) (hs : selectsTarget r false = false) (hr : c.shown g.select r false = some reg)
    (hg : g.settle.write c reg v = some g') :
    ∃ q, p.follow (Exchange.calls ⟨r, some v, n, d⟩) = some q ∧ q.Serves k c g' := by
  obtain ⟨q, hq, hk⟩ := h.waits r false n hs
  have hw := (hk.transient 0 (some (r, false)) v).written r reg g' hs hr hg
  exact ⟨_, (follow_next hq).trans (follow_writeOk q r v), ⟨hw.link, hw.active, hw.part, hw.regs⟩⟩

/-- A write access that fails (60 R221): what the component that answers then holds. -/
theorem MemPeer.Serves.followFailedWrite (h : p.Serves k c g) (r : RegAddr) (v : Word) (f : Failure) (reg : PeerReg)
    (hs : selectsTarget r false = false) (hr : c.shown g.select r false = some reg) (hf : f.possible (some v)) :
    ∃ q, p.follow (f.calls r (some v)) = some q ∧ (f = .stalled → q.Serves k c g) ∧
      ∀ n a g', f = .badAck n a → g.failedWrite reg (a == 4#3) = some g' →
        (a = 4#3 → q.Serves k c (g'.flagged true)) ∧ q.regs k = g'.flagged (a == 4#3) := by
  cases f with
  | stalled =>
    obtain ⟨q, hq, hk⟩ := h.waits r false Config.waitRetryBound hs
    exact ⟨q, hq, fun _ => hk, nofun⟩
  | badParity n d => exact absurd hf.2 nofun
  | badAck n a =>
    obtain ⟨q, hq, hk⟩ := h.waits r false n hs
    obtain ⟨-, h1, h2⟩ := hf
    refine ⟨_, (follow_next hq).trans (follow_bad q r false a hs h1 h2), nofun, ?_⟩
    rintro n' a' g' ⟨⟩ hg
    have hw := (hk.transient 0 (some (r, false)) q.data).spoiledWrite r reg _ g' hr hg
    unfold MemPeer.failed
    by_cases ha : a = 4#3
    · subst ha
      exact ⟨fun _ => ⟨hw.link, hw.active, hw.part, hw.regs⟩, hw.regs⟩
    · have hb : (a == 4#3) = false := by simpa using ha
      rw [hb] at hw ⊢
      exact ⟨fun h => absurd h ha, hw.regs⟩

/-- An AP read access, answered OK after some WAITs, with a word that may be the posted one. -/
theorem MemPeer.Serves.followReadAp (h : p.Serves k c g) (r : RegAddr) (n : Nat) (d : Word) (reg : PeerReg) (g' : Regs)
    (ha : r.sel = .ap) (hr : c.shown g.select r true = some reg) (hp : g.posted.all (d == ·) = true)
    (hg : g.settle.read c reg = g') :
    ∃ q, p.follow (Exchange.calls ⟨r, none, n, d⟩) = some q ∧ q.Serves k c g' := by
  subst hg
  obtain ⟨q, hq, hk⟩ := h.waits r true n (Bool.and_false _)
  have hd := (hk.transient 0 (some (r, true)) d).deliveredAp r reg ha hr
  have hc : q.sends r d = true := by rw [MemPeer.sends, hk.carries, if_pos (.inl ha)]; exact hp
  exact ⟨_, (follow_next hq).trans ((follow_readOk q r d).trans (if_pos hc)), ⟨hd.link, hd.active, hd.part, hd.regs⟩⟩

/-- A DP read access, answered OK after some WAITs, with a word that the peer may send. -/
theorem MemPeer.Serves.followReadDp (h : p.Serves k c g) (r : RegAddr) (n : Nat) (d : Word) (hd : r.sel = .dp)
    (hc : (if c.shown g.select r true = some .rdbuff then g.posted
      else if c.shown g.select r true = some .idcode then c.idcode else none).all (d == ·) = true) :
    ∃ q, p.follow (Exchange.calls ⟨r, none, n, d⟩) = some q ∧ q.Serves k c g.settle := by
  obtain ⟨q, hq, hk⟩ := h.waits r true n (Bool.and_false _)
  have hs := (hk.transient 0 (some (r, true)) d).deliveredDp r hd
  have hc : q.sends r d = true := by rw [MemPeer.sends, hk.carries]; simpa [hd] using hc
  exact ⟨_, (follow_next hq).trans ((follow_readOk q r d).trans (if_pos hc)), ⟨hs.link, hs.active, hs.part, hs.regs⟩⟩

/-! ## Words one after another -/

/-- Words of a run no longer than the address space lie apart. -/
theorem offset_ne (a : Word) {i j n : Nat} (hn : 4 * n ≤ 2 ^ 32) (hi : i < n) (hj : j < n) (h : i ≠ j) :
    a + BitVec.ofNat 32 (4 * i) ≠ a + BitVec.ofNat 32 (4 * j) := by
  intro e
  have := congrArg BitVec.toNat ((BitVec.add_right_inj a).1 e)
  simp at this; omega

theorem offset_succ (a : Word) (i : Nat) : a + BitVec.ofNat 32 (4 * i) + 4#32 = a + BitVec.ofNat 32 (4 * (i + 1)) := by
  rw [BitVec.add_assoc]
  congr 1
  apply BitVec.eq_of_toNat_eq; simp; omega

/-- Words counted from a multiple of 4 are at multiples of 4. -/
theorem offset_aligned {a : Word} (i : Nat) (h : a.extractLsb' 0 2 = 0#2) :
    (a + BitVec.ofNat 32 (4 * i)).extractLsb' 0 2 = 0#2 := by
  apply BitVec.eq_of_toNat_eq
  have := congrArg BitVec.toNat h
  simp at *; omega

/-- Writes of the data register, answered OK after some WAITs, at TAR and on (10 R43, 20 R56): the words from number m on are
written, and no others. -/
theorem MemPeer.Serves.followWords (n : Nat) {a : Word} (ha : a.extractLsb' 0 2 = 0#2) (hn : 4 * n ≤ 2 ^ 32)
    (es : List Exchange) (ws : List Word) (m : Nat) (h : p.Serves k c g) (hm : m + es.length ≤ n)
    (he : es.map Exchange.access = ws.map fun w => (Params.apC, some w)) (hc : g.csw = some Config.cswWord)
    (hr : c.shown g.select Params.apC false = some .drw) (ht : g.tar = some (a + BitVec.ofNat 32 (4 * m)))
    (hends : ∀ i, m ≤ i → i < m + es.length → c.ends (a + BitVec.ofNat 32 (4 * i)) = false) :
    ∃ q g', p.follow (es.flatMap Exchange.calls) = some q ∧ q.Serves k c g' ∧ g'.csw = g.csw ∧ g'.select = g.select ∧
      g'.tar = some (a + BitVec.ofNat 32 (4 * (m + es.length))) ∧
      (∀ i, i < es.length → g'.settle.mem (a + BitVec.ofNat 32 (4 * (m + i))) = ws[i]?) ∧
      ∀ b, (∀ i, m ≤ i → i < m + es.length → b ≠ a + BitVec.ofNat 32 (4 * i)) → g'.settle.mem b = g.settle.mem b := by
  induction es generalizing ws m p g with
  | nil => exact ⟨p, g, rfl, h, rfl, rfl, ht, nofun, fun _ _ => rfl⟩
  | cons e es ih =>
    cases ws with
    | nil => exact absurd he (by simp)
    | cons w ws =>
      obtain ⟨r, v, wt, d⟩ := e
      simp only [List.map_cons, List.cons.injEq, Exchange.access, Prod.mk.injEq] at he
      obtain ⟨⟨rfl, rfl⟩, he⟩ := he
      simp only [List.length_cons] at hm hends ⊢
      obtain ⟨p1, f1, s1⟩ := h.followWrite Params.apC w wt d .drw _ rfl hr
        (congrArg some (store_aligned (a := a + BitVec.ofNat 32 (4 * m)) c w (by rw [settle_tar, ht])
          (by rw [settle_csw, hc]) (offset_aligned m ha)))
      obtain ⟨q, g', f2, s2, h1, h2, h3, h4, h5⟩ := ih ws (m + 1) s1 (by omega) he (by simpa using hc) (by simpa using hr)
        (by rw [← offset_succ]; exact advanced_within (hends m (Nat.le_refl _) (by omega)))
        (fun i hi hj => hends i (by omega) (by omega))
      refine ⟨q, g', (follow_next f1).trans f2, s2, by simpa using h1, by simpa using h2, ?_, ?_, ?_⟩
      · rw [h3, Nat.add_right_comm, Nat.add_assoc]
      · intro i hi
        cases i with
        | zero =>
          rw [Nat.add_zero, h5 _ fun j _ _ => offset_ne a hn (by omega) (by omega) (by omega)]
          simp [Regs.settle]
        | succ i => rw [Nat.add_comm i 1, ← Nat.add_assoc, h4 i (by omega), Nat.add_comm 1 i]; rfl
      · intro b hb
        rw [h5 b fun i _ _ => hb i (by omega) (by omega)]
        have := hb m (by omega) (by omega)
        generalize g.settle = x at *
        simp [Regs.settle, this]

end Sys2Proof.Machine
end

