-- ==== Sys2Proof/Laws/PerInstr.lean ====
section
/-! SUPPORT. Statements made for every instruction, one lemma each. Family TableRow: the encoding of an instruction
carries the bits that its row of spec/opcode_table.json fixes (`mask` and `match` there, 30 R103). -/

namespace Sys2Proof.Laws.TableRow

/-- The row of spec/opcode_table.json: how many bits a word of its format has, which of them the row fixes, and to what
values. The generic frame's row is the pattern `10paars1`. -/
def row : Instr → Nat × Nat × Nat
  | .init => (32, 0xFFFFFC0F, 0x00000000)
  | .reset => (32, 0xFFFFFC0F, 0x00000001)
  | .selectTarget => (32, 0xFFFFFC0F, 0x00000002)
  | .readIdcode => (32, 0xFFFFFC0F, 0x00000003)
  | .setupMem => (32, 0xFFFFFC0F, 0x00000004)
  | .noop => (32, 0xFFFFFC0F, 0x00000005)
  | .getReg _ => (32, 0xFFFFFC0F, 0x00000006)
  | .setReg _ => (32, 0xFFFFFC0F, 0x00000007)
  | .peek => (32, 0xFFFFFC0F, 0x00000008)
  | .peekMany => (32, 0xFFFFFC0F, 0x00000009)
  | .poke => (32, 0xFFFFFC0F, 0x0000000A)
  | .pokeMany => (32, 0xFFFFFC0F, 0x0000000B)
  | .disconnect => (32, 0xFFFFFC0F, 0x0000000C)
  | .reservedD => (32, 0xFFFFFC0F, 0x0000000D)
  | .reservedE => (32, 0xFFFFFC0F, 0x0000000E)
  | .reservedF => (32, 0xFFFFFC0F, 0x0000000F)
  | .reqDp0W => (8, 0xFF, 0x81)
  | .reqDp4W => (8, 0xFF, 0xA9)
  | .reqDp8W => (8, 0xFF, 0xB1)
  | .reqDpCW => (8, 0xFF, 0x99)
  | .reqDp0R => (8, 0xFF, 0xA5)
  | .reqDp4R => (8, 0xFF, 0x8D)
  | .reqDp8R => (8, 0xFF, 0x95)
  | .reqDpCR => (8, 0xFF, 0xBD)
  | .reqAp0W => (8, 0xFF, 0xA3)
  | .reqAp4W => (8, 0xFF, 0x8B)
  | .reqAp8W => (8, 0xFF, 0x93)
  | .reqApCW => (8, 0xFF, 0xBB)
  | .reqAp0R => (8, 0xFF, 0x87)
  | .reqAp4R => (8, 0xFF, 0xAF)
  | .reqAp8R => (8, 0xFF, 0xB7)
  | .reqApCR => (8, 0xFF, 0x9F)
  | .req _ _ _ _ => (8, 0xC1, 0x81)
  | .ackOk => (3, 0x7, 0x1)
  | .ackWait => (3, 0x7, 0x2)
  | .ackFault => (3, 0x7, 0x4)
  | .ackInvalid0 => (3, 0x7, 0x0)
  | .ackInvalid3 => (3, 0x7, 0x3)
  | .ackInvalid5 => (3, 0x7, 0x5)
  | .ackInvalid6 => (3, 0x7, 0x6)
  | .ackInvalid7 => (3, 0x7, 0x7)

/-- How many bits a word has, and its value. -/
def bits : Code → Nat × Nat
  | .cmdw w => (32, w.toNat)
  | .req8 w => (8, w.toNat)
  | .ack3 w => (3, w.toNat)

/-- The encoding of i has the format and the fixed bits of its row. -/
def Statement (i : Instr) : Prop :=
  (bits (encode i)).1 = (row i).1 ∧ (bits (encode i)).2 &&& (row i).2.1 = (row i).2.2

theorem init : Statement .init := ⟨rfl, rfl⟩
theorem reset : Statement .reset := ⟨rfl, rfl⟩
theorem selectTarget : Statement .selectTarget := ⟨rfl, rfl⟩
theorem readIdcode : Statement .readIdcode := ⟨rfl, rfl⟩
theorem setupMem : Statement .setupMem := ⟨rfl, rfl⟩
theorem noop : Statement .noop := ⟨rfl, rfl⟩
theorem getReg (reg : BitVec 6) : Statement (.getReg reg) := ⟨rfl, by revert reg; decide⟩
theorem setReg (reg : BitVec 6) : Statement (.setReg reg) := ⟨rfl, by revert reg; decide⟩
theorem peek : Statement .peek := ⟨rfl, rfl⟩
theorem peekMany : Statement .peekMany := ⟨rfl, rfl⟩
theorem poke : Statement .poke := ⟨rfl, rfl⟩
theorem pokeMany : Statement .pokeMany := ⟨rfl, rfl⟩
theorem disconnect : Statement .disconnect := ⟨rfl, rfl⟩
theorem reservedD : Statement .reservedD := ⟨rfl, rfl⟩
theorem reservedE : Statement .reservedE := ⟨rfl, rfl⟩
theorem reservedF : Statement .reservedF := ⟨rfl, rfl⟩
theorem reqDp0W : Statement .reqDp0W := ⟨rfl, rfl⟩
theorem reqDp4W : Statement .reqDp4W := ⟨rfl, rfl⟩
theorem reqDp8W : Statement .reqDp8W := ⟨rfl, rfl⟩
theorem reqDpCW : Statement .reqDpCW := ⟨rfl, rfl⟩
theorem reqDp0R : Statement .reqDp0R := ⟨rfl, rfl⟩
theorem reqDp4R : Statement .reqDp4R := ⟨rfl, rfl⟩
theorem reqDp8R : Statement .reqDp8R := ⟨rfl, rfl⟩
theorem reqDpCR : Statement .reqDpCR := ⟨rfl, rfl⟩
theorem reqAp0W : Statement .reqAp0W := ⟨rfl, rfl⟩
theorem reqAp4W : Statement .reqAp4W := ⟨rfl, rfl⟩
theorem reqAp8W : Statement .reqAp8W := ⟨rfl, rfl⟩
theorem reqApCW : Statement .reqApCW := ⟨rfl, rfl⟩
theorem reqAp0R : Statement .reqAp0R := ⟨rfl, rfl⟩
theorem reqAp4R : Statement .reqAp4R := ⟨rfl, rfl⟩
theorem reqAp8R : Statement .reqAp8R := ⟨rfl, rfl⟩
theorem reqApCR : Statement .reqApCR := ⟨rfl, rfl⟩
theorem req (p : BitVec 1) (a : BitVec 2) (r s : BitVec 1) : Statement (.req p a r s) :=
  ⟨rfl, by revert p a r s; decide⟩
theorem ackOk : Statement .ackOk := ⟨rfl, rfl⟩
theorem ackWait : Statement .ackWait := ⟨rfl, rfl⟩
theorem ackFault : Statement .ackFault := ⟨rfl, rfl⟩
theorem ackInvalid0 : Statement .ackInvalid0 := ⟨rfl, rfl⟩
theorem ackInvalid3 : Statement .ackInvalid3 := ⟨rfl, rfl⟩
theorem ackInvalid5 : Statement .ackInvalid5 := ⟨rfl, rfl⟩
theorem ackInvalid6 : Statement .ackInvalid6 := ⟨rfl, rfl⟩
theorem ackInvalid7 : Statement .ackInvalid7 := ⟨rfl, rfl⟩

end Sys2Proof.Laws.TableRow
end

