-- ==== Sys2Proof/Tests/Slice0.lean ====
section
/-! SUPPORT. Tests of the model against the spec's own tables and vectors (95_test_vectors.md), and for every statement
with hypotheses a witness that meets them. -/

namespace Sys2Proof.Tests

open Sys2Proof Sys2Proof.Machine Sys2Proof.Safety

-- The evaluations below run one after another: side by side, each would hold a thread of its own.
set_option Elab.async false

/-! ## Ill-formed instructions are refused -/

theorem test_wellFormed_refuses_getReg :
    wellFormed (.getReg 0x10#6) = false ∧ wellFormed (.getReg 0x01#6) = false ∧
    wellFormed (.getReg 0x2C#6) = true := by decide

theorem test_wellFormed_refuses_setReg :
    wellFormed (.setReg 0x02#6) = false ∧ wellFormed (.setReg 0x3F#6) = false ∧
    wellFormed (.setReg 0x08#6) = true := by decide

/-- A generic frame with the right parity bit is one of the sixteen rows, not the generic one. -/
theorem test_wellFormed_refuses_req :
    wellFormed (.req 1#1 0#2 1#1 0#1) = false ∧ wellFormed (.req 0#1 0#2 1#1 0#1) = true := by decide

/-! ## Decoding, the words written out from 30 R83, R84, R95, R96 -/

theorem test_decode_commands :
    decodeTableWord 32 0x00000000 = some .init ∧ decodeTableWord 32 0x00000001 = some .reset ∧
    decodeTableWord 32 0x00000002 = some .selectTarget ∧ decodeTableWord 32 0x00000003 = some .readIdcode ∧
    decodeTableWord 32 0x00000004 = some .setupMem ∧ decodeTableWord 32 0x00000005 = some .noop ∧
    decodeTableWord 32 0x00000246 = some (.getReg 0x24#6) ∧ decodeTableWord 32 0x00000087 = some (.setReg 0x08#6) ∧
    decodeTableWord 32 0x00000008 = some .peek ∧ decodeTableWord 32 0x00000009 = some .peekMany ∧
    decodeTableWord 32 0x0000000A = some .poke ∧ decodeTableWord 32 0x0000000B = some .pokeMany ∧
    decodeTableWord 32 0x0000000C = some .disconnect ∧ decodeTableWord 32 0x0000000D = some .reservedD ∧
    decodeTableWord 32 0x0000000E = some .reservedE ∧ decodeTableWord 32 0x0000000F = some .reservedF := by decide

/-- 95 V87, V89, and a word with the top bit set: no command. -/
theorem test_decode_refuses_commands :
    decodeTableWord 32 0x00000106 = none ∧ decodeTableWord 32 0x00000405 = none ∧
    decodeTableWord 32 0x80000000 = none := by decide

/-- 95 V10 to V25: bit 7 (park) left, then stop, parity, A3, A2, RnW, APnDP, start. -/
theorem test_decode_frames :
    decodeTableWord 8 0b10000001 = some .reqDp0W ∧ decodeTableWord 8 0b10101001 = some .reqDp4W ∧
    decodeTableWord 8 0b10110001 = some .reqDp8W ∧ decodeTableWord 8 0b10011001 = some .reqDpCW ∧
    decodeTableWord 8 0b10100101 = some .reqDp0R ∧ decodeTableWord 8 0b10001101 = some .reqDp4R ∧
    decodeTableWord 8 0b10010101 = some .reqDp8R ∧ decodeTableWord 8 0b10111101 = some .reqDpCR ∧
    decodeTableWord 8 0b10100011 = some .reqAp0W ∧ decodeTableWord 8 0b10001011 = some .reqAp4W ∧
    decodeTableWord 8 0b10010011 = some .reqAp8W ∧ decodeTableWord 8 0b10111011 = some .reqApCW ∧
    decodeTableWord 8 0b10000111 = some .reqAp0R ∧ decodeTableWord 8 0b10101111 = some .reqAp4R ∧
    decodeTableWord 8 0b10110111 = some .reqAp8R ∧ decodeTableWord 8 0b10011111 = some .reqApCR := by decide

/-- The generic row: parity bit 0, address bits 10, RnW 1, APnDP 1; a wrong start, stop or park bit is no frame. -/
theorem test_decode_generic_frame :
    decodeTableWord 8 0b10010111 = some (.req 0#1 2#2 1#1 1#1) ∧ decodeTableWord 8 0b10010110 = none ∧
    decodeTableWord 8 0b11010111 = none ∧ decodeTableWord 8 0b00010111 = none := by decide

/-- 95 V50 to V57. -/
theorem test_decode_acks :
    decodeTableWord 8 0 = some .ackInvalid0 ∧ decodeTableWord 8 1 = some .ackOk ∧ decodeTableWord 8 2 = some .ackWait ∧
    decodeTableWord 8 3 = some .ackInvalid3 ∧ decodeTableWord 8 4 = some .ackFault ∧
    decodeTableWord 8 5 = some .ackInvalid5 ∧ decodeTableWord 8 6 = some .ackInvalid6 ∧
    decodeTableWord 8 7 = some .ackInvalid7 := by decide

/-- 95 V10 to V25 again, from the frame builder of 42 R161. -/
theorem test_req_builder :
    req Params.dp0 true = 0xA5#8 ∧ req Params.dpC false = 0x99#8 ∧ req Params.apC true = 0x9F#8 ∧
    req Params.ap4 false = 0x8B#8 ∧ req Params.ap4 true = 0xAF#8 ∧ req Params.dp8 false = 0xB1#8 := by decide

/-- 95 V35, V40, V41, V45, V46. -/
theorem test_parity :
    parity 0x7FFFFFFF#32 = true ∧ parity 0x12345678#32 = true ∧ parity 0xDEADBEEF#32 = false ∧
    parity 0xF0000040#32 = true ∧ parity 0x04770031#32 = false := by decide

/-! ## States for the tests -/

/-- The end of INIT(2, 3), 95 P1: an idle session. -/
def session : State :=
  { State.reset with pins := ⟨true, pinOf 2#32, pinOf 3#32, .output, false, true, .output, true, false⟩ }

/-- A session with operands, and the peer's answers to come. -/
def with_ (s : State) (addr data : Word) (count : Nat) (bs : List Bool) : State :=
  { s with port := { s.port with argAddr := addr, argData := data, argCount := count }, env := { s.env with samples := bs } }

/-- The next state of a command. -/
def after (i : Instr) (s : State) : State :=
  match exec i s with
  | .next t => t
  | .fault _ => s
  | .refused _ => s

/-- What the host reads after DONE: STATUS, SUCCESS, RESULT. -/
def report (s : State) : BitVec 6 × Bool × Word := (s.port.status, s.port.success, s.port.result)

/-! ## Link control, 95 section 2.5 -/

/-- A command always gives a next state. -/
theorem after_eq (i : Instr) (c : Command) (h : commandSpec i = some c) (s : State) : exec i s = .next (after i s) := by
  have hn : ∃ t, exec i s = .next t := by
    rw [exec_command i c h, runCommand]
    split
    · exact ⟨_, rfl⟩
    · split <;> exact ⟨_, rfl⟩
  obtain ⟨t, ht⟩ := hn
  rw [after, ht]

/-- A command that is started: its program run and ended. -/
theorem after_started (i : Instr) (c : Command) (h : commandSpec i = some c) (s : State) (hb : s.port.busy = false)
    (hr : c.refusal s.latchOperands = none) :
    after i s = endCommand c.valued (runProgram (c.program s.latchOperands) s.latchOperands).1
      (runProgram (c.program s.latchOperands) s.latchOperands).2 := by
  rcases runCommand_cases c s hb with ⟨x, hx, -⟩ | ⟨-, e⟩
  · rw [hr] at hx; exact absurd hx nofun
  · rw [after, exec_command i c h, e]

/-- A command that is refused. -/
theorem after_refused (i : Instr) (c : Command) (h : commandSpec i = some c) (s : State) (x : RefusalCause)
    (hb : s.port.busy = false) (hr : c.refusal s.latchOperands = some x) :
    after i s = refuseCommand c.valued s := by
  rcases runCommand_cases c s hb with ⟨y, -, e⟩ | ⟨hn, -⟩
  · rw [after, exec_command i c h, e]
  · rw [hr] at hn; exact absurd hn nofun

/-- The pins 2 and 3 differ, whatever the width of PIN_ID. -/
theorem pins_differ : pinOf 2#32 ≠ pinOf 3#32 := fun h => by
  have := congrArg (BitVec.getLsbD · 0) h
  simp only [pinOf_bit] at this
  exact absurd this (by decide)

theorem init_starts : initCommand.refusal (with_ State.reset 2#32 3#32 0 []).latchOperands = none :=
  (refusal_none_iff _ _).2 ⟨if_neg pins_differ, rfl⟩

/-- V61. -/
theorem test_init :
    withoutDelays (after .init (with_ State.reset 2#32 3#32 0 [])).pinTrace =
      [.pinInit (pinOf 3#32), .clk true, .clkDir .output, .pinInit (pinOf 2#32), .dio false, .pull true false,
       .dir .output] ∧
    (after .init (with_ State.reset 2#32 3#32 0 [])).pins = session.pins ∧
    report (after .init (with_ State.reset 2#32 3#32 0 [])) = (0x01#6, true, 0#32) := by
  rw [after_started .init initCommand rfl _ rfl init_starts]
  exact ⟨rfl, rfl, rfl⟩

/-- V62, V63. -/
theorem test_init_refused :
    after .init (with_ State.reset 2#32 2#32 0 []) = refuseCommand false (with_ State.reset 2#32 2#32 0 []) ∧
    after .init (with_ session 2#32 3#32 0 []) = refuseCommand false (with_ session 2#32 3#32 0 []) ∧
    report (refuseCommand false (with_ session 2#32 3#32 0 [])) = (0x20#6, false, 0#32) := by
  refine ⟨after_refused .init initCommand rfl _ .equalPins rfl ?_,
    after_refused .init initCommand rfl _ .sessionExists rfl ?_, rfl⟩
  · simp [Command.refusal, initCommand, State.dataPinArg, State.clockPinArg, with_, State.reset, Pins.atReset]
  · rw [Command.refusal, show initCommand.own (with_ session 2#32 3#32 0 []).latchOperands = none from
      if_neg pins_differ]
    rfl

/-- V60, V64. -/
theorem test_reset :
    (after .reset session).callTrace =
      [.write 0xFFFFFFFF#32 32, .write 0xFFFFFF#32 32, .write 0xFF#32 8, .write 0x6209F392#32 32,
       .write 0x86852D95#32 32, .write 0xE3DDAFE9#32 32, .write 0x19BC0EA2#32 32, .write 0xF1A0#32 16,
       .write 0xFFFFFFFF#32 32, .write 0xFFFFFF#32 32] ∧
    report (after .reset State.reset) = (0x20#6, false, 0#32) := by decide +kernel

/-- V60's wire order of the second alert word, and the 280 ticks. -/
theorem test_reset_wire :
    (drivenBits session.pins (after .reset session).pinTrace).length = 280 ∧
    ((drivenBits session.pins (after .reset session).pinTrace).drop 104).take 8 =
      [true, false, true, false, true, false, false, true] := by decide +kernel

/-- V65. -/
theorem test_selectTarget :
    (after .selectTarget (with_ session 0#32 0x01002927#32 0 [true, true, true])).callTrace =
      [.write 0x99#32 8, .turn .input, .read 3 7#32, .turn .output, .write 0x01002927#32 32, .write 0#32 1] ∧
    report (after .selectTarget (with_ session 0#32 0x01002927#32 0 [true, true, true])) = (0x01#6, true, 0#32) := by
  decide +kernel

/-- V66. -/
theorem test_noop :
    withoutDelays (after .noop session).pinTrace = (List.replicate 8 [PinEvent.clk false, .clk true]).flatten ∧
    report (after .noop session) = (0x01#6, true, 0#32) := by decide +kernel

/-- V67. -/
theorem test_disconnect :
    (after .disconnect session).pinTrace = [.dir .input, .clkDir .input] ∧
    (after .disconnect session).pins.bound = false ∧
    report (after .noop (after .disconnect session)) = (0x20#6, false, 0#32) := by decide +kernel

/-! ## Register access, 95 section 2.7 -/

/-- 95 P1, step 4. -/
theorem test_readIdcode :
    (after .readIdcode (with_ session 0#32 0#32 0 (okRead 0x0BC12477#32))).callTrace =
      [.write 0xA5#32 8, .turn .input, .read 3 1#32, .read 32 0x0BC12477#32, .read 1 0#32, .turn .output] ∧
    report (after .readIdcode (with_ session 0#32 0#32 0 (okRead 0x0BC12477#32))) =
      (0x01#6, true, 0x0BC12477#32) := by decide +kernel

/-- V72: no peer on the line, 95 P1's last line. -/
theorem test_readIdcode_absent_peer :
    report (after .readIdcode (with_ session 0#32 0#32 0 [true, true, true])) = (0x08#6, false, 0xFFFFFFFF#32) := by
  decide +kernel

/-- V83, 95 P4. -/
theorem test_getReg_waits :
    (after (.getReg 0x04#6) (with_ session 0#32 0#32 0 (waitAnswers 2 ++ okRead 0xF0000040#32))).callTrace =
      [.write 0x8D#32 8, .turn .input, .read 3 2#32, .turn .output,
       .write 0x8D#32 8, .turn .input, .read 3 2#32, .turn .output,
       .write 0x8D#32 8, .turn .input, .read 3 1#32, .read 32 0xF0000040#32, .read 1 1#32, .turn .output] ∧
    report (after (.getReg 0x04#6) (with_ session 0#32 0#32 0 (waitAnswers 2 ++ okRead 0xF0000040#32))) =
      (0x01#6, true, 0xF0000040#32) := by decide +kernel

/-- V85: a wrong parity bit after one WAIT. -/
theorem test_getReg_parity :
    report (after (.getReg 0x04#6) (with_ session 0#32 0#32 0 (waitAnswers 1 ++ readAnswer 0xF0000040#32 false))) =
      (0x08#6, false, 0xFFFFFFFF#32) := by decide +kernel

/-- V70 and V86. -/
theorem test_setReg :
    (after (.setReg 0x08#6) (with_ session 0#32 0xF0#32 0 okWrite)).callTrace =
      [.write 0xB1#32 8, .turn .input, .read 3 1#32, .turn .output, .write 0xF0#32 32, .write 0#32 1] ∧
    report (after (.setReg 0x08#6) (with_ session 0#32 0xF0#32 0 (ackAnswer 4#3))) = (0x04#6, false, 0#32) := by
  decide +kernel

/-- V81: STALLED after 32 attempts, a 33rd is not made. -/
theorem test_setReg_stalled :
    (after (.setReg 0x08#6) (with_ session 0#32 0xF0#32 0 (waitAnswers 33))).port.diagStalled = true ∧
    tickCount (after (.setReg 0x08#6) (with_ session 0#32 0xF0#32 0 (waitAnswers 33))).env.trace = 416 ∧
    report (after (.setReg 0x08#6) (with_ session 0#32 0xF0#32 0 (waitAnswers 33))) = (0x10#6, false, 0#32) := by
  decide +kernel

/-! ## Memory commands, 95 section 2.8 -/

/-- V111: the ten frames in order and the value. -/
def setupAnswers : List Bool :=
  okWrite ++ okWrite ++ okWrite ++ okRead 0#32 ++ okWrite ++ okRead 0#32 ++ okRead 0x04770031#32
    ++ okWrite ++ okWrite ++ okWrite

/-- The request frames of a list of calls. -/
def framesOf (cs : List Call) : List Word :=
  cs.filterMap fun c => match c with
    | .write f 8 => some f
    | _ => none

theorem test_setupMem :
    framesOf (after .setupMem (with_ session 0#32 0#32 0 setupAnswers)).callTrace =
      [0x81#32, 0xB1#32, 0xA9#32, 0x8D#32, 0xB1#32, 0x9F#32, 0xBD#32, 0xB1#32, 0xA3#32, 0xB1#32] ∧
    report (after .setupMem (with_ session 0#32 0#32 0 setupAnswers)) = (0x01#6, true, 0x04770031#32) := by
  decide +kernel

/-- V113. -/
theorem test_setupMem_fails :
    report (after .setupMem (with_ session 0#32 0#32 0 (ackAnswer 7#3))) = (0x08#6, false, 0xFFFFFFFF#32) := by
  decide +kernel

/-- V100. -/
theorem test_peek :
    framesOf (after .peek (with_ session 0x20000000#32 0#32 0 (okWrite ++ okRead 5#32 ++ okRead 0xDEADBEEF#32))).callTrace
      = [0x8B#32, 0x9F#32, 0xBD#32] ∧
    report (after .peek (with_ session 0x20000000#32 0#32 0 (okWrite ++ okRead 5#32 ++ okRead 0xDEADBEEF#32))) =
      (0x01#6, true, 0xDEADBEEF#32) := by decide +kernel

/-- V101. -/
theorem test_peek_faults :
    report (after .peek (with_ session 0x20000100#32 0#32 0 (okWrite ++ ackAnswer 4#3))) =
      (0x04#6, false, 0xFFFFFFFF#32) := by decide +kernel

/-- PEEK_MANY of one word, its prime bringing 0x55 and its drain 1. -/
def oneWord : State :=
  with_ session 0x20000000#32 0#32 1 (okWrite ++ okRead 0x55#32 ++ okRead 1#32)

/-- 95 P3, command 2, with one word: the frames. -/
theorem test_peekMany :
    framesOf (after .peekMany oneWord).callTrace = [0x8B#32, 0x9F#32, 0xBD#32] ∧
    report (after .peekMany oneWord) = (0x01#6, true, 0#32) := by decide +kernel

/-- 95 P3, command 2, with one word: it arrives one transaction late, the prime's value goes nowhere and the drain's word
goes to BUF[0]. -/
theorem test_peekMany_word : (after .peekMany oneWord).port.buf[0]? = some 1#32 := by
  obtain ⟨t, x, -, hr⟩ := runProgram_exchanges
    [⟨Params.ap4, some 0x20000000#32, .drop, some 0, some 0⟩, ⟨Params.apC, none, .drop, some 0, some 0⟩,
      ⟨Params.dpC, none, .last 0, some 0, some 0⟩]
    [⟨Params.ap4, some 0x20000000#32, 0, 0#32⟩, ⟨Params.apC, none, 0, 0x55#32⟩, ⟨Params.dpC, none, 0, 1#32⟩] []
    oneWord.latchOperands [] rfl (by simp [Access.dropsWrites]) (by simp [FreesLast]) ⟨by decide, by decide⟩
  obtain ⟨f, hf⟩ := x.buf
  have h : runProgram (peekManyCommand.program oneWord.latchOperands) oneWord.latchOperands = (.ok, t) := hr
  rw [after_started .peekMany peekManyCommand rfl oneWord rfl (by decide +kernel), h]
  show t.port.buf[0]? = _
  rw [hf]
  exact (Vector.getElem?_setIfInBounds ..).trans ((if_pos rfl).trans (if_pos (Nat.succ_pos _)))

/-- 95 P3, command 2: the frames, where BUF has three entries. -/
theorem test_peekMany_frames (h : 3 ≤ Config.bufDepth) :
    framesOf (after .peekMany (with_ session 0x20000000#32 0#32 3
      (okWrite ++ okRead 0x55#32 ++ okRead 1#32 ++ okRead 2#32 ++ okRead 3#32))).callTrace =
      [0x8B#32, 0x9F#32, 0x9F#32, 0x9F#32, 0xBD#32] := by
  have hr : peekManyCommand.refusal (with_ session 0x20000000#32 0#32 3
      (okWrite ++ okRead 0x55#32 ++ okRead 1#32 ++ okRead 2#32 ++ okRead 3#32)).latchOperands = none :=
    (refusal_none_iff _ _).2 ⟨(own_none_iff .peekMany _ rfl _).2 ⟨⟨nofun, nofun, nofun⟩, nofun, nofun, fun _ => h⟩, rfl⟩
  rw [after_started .peekMany peekManyCommand rfl _ rfl hr]
  decide +kernel

/-- V107: the drain faults. -/
theorem test_peekMany_faults :
    report (after .peekMany (with_ session 0x20000000#32 0#32 1 (okWrite ++ okRead 0x55#32 ++ ackAnswer 4#3))) =
      (0x04#6, false, 0#32) := by decide +kernel

/-- V107 again: the entry being fetched holds SENTINEL. -/
theorem test_spoiled_entry (s : State) (h : 0 < s.latch.count) :
    ((⟨Params.regRdbuff, none, .buf 0, some 0, some 0⟩ : Access).spoil s).port.buf[0]? = some 0xFFFFFFFF#32 :=
  (spoil_entries _ 0 s rfl h (Nat.succ_pos _)).1

/-- V110: one word more than BUF has. -/
theorem test_peekMany_refused :
    after .peekMany (with_ session 0#32 0#32 (Config.bufDepth + 1) []) =
      refuseCommand false (with_ session 0#32 0#32 (Config.bufDepth + 1) []) ∧
    report (refuseCommand false (with_ session 0#32 0#32 (Config.bufDepth + 1) [])) = (0x20#6, false, 0#32) := by
  have hr : peekManyCommand.own (with_ session 0#32 0#32 (Config.bufDepth + 1) []).latchOperands =
      some .countAboveDepth := if_pos (Nat.lt_succ_self Config.bufDepth)
  refine ⟨after_refused .peekMany peekManyCommand rfl _ .countAboveDepth rfl ?_, rfl⟩
  rw [Command.refusal, hr]
  rfl

/-- BUF[0] = 7. -/
def buffer7 (s : State) : State := s.setBuf 0 7#32

/-- V109 with one word: the write of BUF[0] faults; nothing follows it. -/
theorem test_pokeMany :
    (after .pokeMany (buffer7 (with_ session 0x20000000#32 0#32 1 (okWrite ++ okWrite)))).callTrace.getLast? =
      some (.write 1#32 1) ∧
    (after .pokeMany (buffer7 (with_ session 0x20000000#32 0#32 1 (okWrite ++ okWrite)))).callTrace[10]? =
      some (.write 7#32 32) ∧
    framesOf (after .pokeMany (buffer7 (with_ session 0x20000000#32 0#32 1
      (okWrite ++ ackAnswer 4#3)))).callTrace = [0x8B#32, 0xBB#32] ∧
    report (after .pokeMany (buffer7 (with_ session 0x20000000#32 0#32 1
      (okWrite ++ ackAnswer 4#3)))) = (0x04#6, false, 0#32) := by decide +kernel

/-- V104, V105: n = 0. -/
theorem test_many_of_none :
    framesOf (after .pokeMany (with_ session 0x20000000#32 0#32 0 okWrite)).callTrace = [0x8B#32] ∧
    framesOf (after .peekMany (with_ session 0x20000000#32 0#32 0 okWrite)).callTrace = [0x8B#32] := by
  decide +kernel

/-- V88. -/
theorem test_reserved :
    report (after .reservedD session) = (0x20#6, false, 0#32) ∧
    report (after .reservedE session) = (0x20#6, false, 0#32) ∧
    report (after .reservedF session) = (0x20#6, false, 0#32) ∧ (after .reservedD session).pinTrace = [] := by
  decide +kernel

/-! ## Frames and ACKs as instructions -/

/-- V14's wire order, from the frame executed at a request position. -/
theorem test_frame_on_the_wire :
    drivenBits session.pins (after .reqDp0R { session with seq.pos := .xfer 0 .req }).pinTrace =
      [true, false, true, false, false, true, false, true] ∧
    (after .reqDp0R { session with seq.pos := .xfer 0 .req }).seq.pos = .xfer 0 .trn1 := by decide +kernel

/-- V18's wire order. -/
theorem test_ap_frame_on_the_wire :
    drivenBits session.pins (after .reqAp0W { session with seq.pos := .xfer 0 .req }).pinTrace =
      [true, true, false, false, false, true, false, true] := by decide +kernel

/-- 42 R179: OK goes on to RDATA on a read and to TRN2 on a write; WAIT takes the line back. -/
theorem test_acks :
    (after .ackOk { session with seq.pos := .xfer 0 (.decode true) }).seq.pos = .xfer 0 .rdata ∧
    (after .ackOk { session with seq.pos := .xfer 0 (.decode false) }).seq.pos = .xfer 0 (.trn2 .ok) ∧
    (after .ackWait { session with seq.pos := .xfer 0 (.decode true) }).seq.pos = .xfer 0 (.trn2 .wait) ∧
    (after .ackFault { session with seq.pos := .xfer 0 (.decode true) }).seq.pos = .xfer 0 (.trn2 .fault) ∧
    (after .ackInvalid7 { session with seq.pos := .xfer 0 (.decode true) }).seq.pos =
      .xfer 0 (.trn2 .protocolError) := by decide +kernel

/-! ## The step -/

/-- What step does to the machine's port and position. -/
def stepped (s : State) : State :=
  match step s with
  | .next t => t
  | .fault _ => s
  | .refused _ => s

/-- A word placed to be fetched runs in the very next step. -/
theorem test_withFetchWord :
    report (stepped (State.reset.withFetchWord 32 0x00000005)) = (0x20#6, false, 0#32) ∧
    (stepped (State.reset.withFetchWord 8 0xA5)).callTrace = [.write 0xA5#32 8] ∧
    (stepped (State.reset.withFetchWord 8 1)).seq.pos = .xfer 0 .rdata := by decide +kernel

/-- 95 V89: a NOOP word with a reserved bit, and V87's GET_REG, as the host starts them. -/
theorem test_bad_words :
    report (stepped (session.withFetchWord 32 0x00000405)) = (0x20#6, false, 0#32) ∧
    report (stepped (session.withFetchWord 32 0x00000106)) = (0x20#6, false, 0xFFFFFFFF#32) := by decide +kernel

/-! ## Witnesses: for every statement with hypotheses, a state and operands that meet them all -/

theorem witness_DecodeOfEncodeIsTheInstruction :
    wellFormed .noop = true ∧ wellFormed (.setReg 0x2C#6) = true ∧ wellFormed (.req 1#1 3#2 1#1 1#1) = true := by decide

theorem witness_EncodeOfDecodeIsTheWord :
    decode (.req8 0xBD#8) = .ok .reqDpCR ∧ decode (.ack3 7#3) = .ok .ackInvalid7 ∧
    (decode (.cmdw 0x000002C6#32) = .ok (.getReg 0x2C#6) ∧ opField 0x000002C6#32 = 6#4) ∧
    (decode (.cmdw 0x000003F5#32) = .ok .noop ∧ opField 0x000003F5#32 = 5#4) := by
  refine ⟨rfl, rfl, ⟨rfl, rfl⟩, ⟨rfl, rfl⟩⟩

theorem witness_DecodedInstructionsAreWellFormed : decode (.req8 0x97#8) = .ok (.req 0#1 2#2 1#1 1#1) := rfl

theorem witness_ParityDetectsOneFlippedBit :
    checkRead 0xF0000040#32 true = .ok ∧ (0 < 32 ∧ 31 < 32) ∧ checkRead (0xF0000040#32 ^^^ (1#32 <<< 31)) true = .protocolError := by
  decide

theorem witness_AckDecoderIsTotal : (7#3 ≠ 1#3 ∧ 7#3 ≠ 2#3 ∧ 7#3 ≠ 4#3) ∧ (0#3 ≠ 1#3 ∧ 0#3 ≠ 2#3 ∧ 0#3 ≠ 4#3) := by decide

theorem witness_WriteSendsLowBitsFirst : (32 ≤ 32 ∧ 0 ≤ 32) ∧ session.pins.dir = .output := by decide

theorem witness_ReadAssemblesLowBitsFirst :
    (wireOf 0xF0000040#32 32).length ≤ 32 ∧
    (with_ session 0#32 0#32 0 (wireOf 0xF0000040#32 32 ++ [true])).env.samples = wireOf 0xF0000040#32 32 ++ [true] ∧
    ([] : List Bool).length ≤ 32 := by decide

theorem witness_WriteTransaction :
    (with_ session 0#32 0#32 0 (okWrite ++ [true])).env.samples = ackAnswer 1#3 ++ [true] ∧
    (with_ session 0#32 0#32 0 (ackAnswer 2#3)).env.samples = ackAnswer 2#3 ++ [] := by decide

theorem witness_ReadTransaction :
    (with_ session 0#32 0#32 0 (readAnswer 7#32 true)).env.samples = readAnswer 7#32 true ++ [] ∧
    (with_ session 0#32 0#32 0 (readAnswer 7#32 false)).env.samples = readAnswer 7#32 false ++ [] ∧
    (4#3 ≠ 1#3 ∧ (with_ session 0#32 0#32 0 (ackAnswer 4#3)).env.samples = ackAnswer 4#3 ++ []) := by decide

/-- No WAIT and one fewer than the bound, for each kind of answer; and only WAITs. -/
theorem witness_RetriedAccess :
    (0 < Config.waitRetryBound ∧ 31 < Config.waitRetryBound) ∧ (1#3 ≠ 2#3 ∧ 4#3 ≠ 2#3 ∧ 4#3 ≠ 1#3) ∧
    (with_ session 0#32 0#32 0 (waitAnswers 31 ++ ackAnswer 1#3)).env.samples =
      waitAnswers 31 ++ ackAnswer 1#3 ++ [] ∧
    (with_ session 0#32 0#32 0 (ackAnswer 4#3)).env.samples = waitAnswers 0 ++ ackAnswer 4#3 ++ [] ∧
    (with_ session 0#32 0#32 0 (waitAnswers 31 ++ readAnswer 7#32 true)).env.samples =
      waitAnswers 31 ++ readAnswer 7#32 true ++ [] ∧
    (with_ session 0#32 0#32 0 (waitAnswers Config.waitRetryBound)).env.samples =
      waitAnswers Config.waitRetryBound ++ [] := by decide +kernel

theorem witness_FirstFailureEndsTheSequence :
    ∃ (ms : List Micro) (m : Micro) (s s1 s2 : State) (st : Status),
      runProgram ms s = (.ok, s1) ∧ m.run s1 = (st, s2) ∧ st ≠ .ok :=
  ⟨[], .access (Access.read Params.dp0 .hold), with_ session 0#32 0#32 0 (ackAnswer 4#3),
    with_ session 0#32 0#32 0 (ackAnswer 4#3), _, _, rfl, rfl, by decide +kernel⟩

theorem witness_InitBindsTheSession :
    (with_ State.reset 2#32 3#32 0 []).port.busy = false ∧ (with_ State.reset 2#32 3#32 0 []).pins.bound = false ∧
    pinOf (with_ State.reset 2#32 3#32 0 []).port.argAddr ≠ pinOf (with_ State.reset 2#32 3#32 0 []).port.argData :=
  ⟨rfl, rfl, pins_differ⟩

/-- The hypotheses of the statements over an idle port in a session: RESET, NOOP, DISCONNECT. -/
theorem witness_ResetEmitsTheExactList : session.port.busy = false ∧ session.pins.bound = true := by decide

theorem witness_ResetOnTheWire :
    ∃ t, session.port.busy = false ∧ session.pins.bound = true ∧ session.pins.dir = .output ∧
      exec .reset session = .next t :=
  ⟨_, rfl, rfl, rfl, after_eq .reset _ rfl session⟩

theorem witness_SelectTargetIgnoresTheAck :
    (with_ session 0#32 5#32 0 (ackAnswer 4#3)).port.busy = false ∧
    (with_ session 0#32 5#32 0 (ackAnswer 4#3)).pins.bound = true ∧
    (with_ session 0#32 5#32 0 (ackAnswer 4#3)).env.samples = ackAnswer 4#3 ++ [] := by decide

theorem witness_NoopMakesEightTicks : session.port.busy = false ∧ session.pins.bound = true := by decide

theorem witness_DisconnectReleasesBothPins : session.port.busy = false ∧ session.pins.bound = true := by decide

/-- No WAIT, and one fewer than the bound. -/
theorem witness_GetRegDeliversTheData :
    (session.port.busy = false ∧ session.pins.bound = true) ∧ regOf 0x2C#6 = some Params.apC ∧
    (0 < Config.waitRetryBound ∧ 31 < Config.waitRetryBound) ∧
    (with_ session 0#32 0#32 0 (okRead 5#32)).env.samples = waitAnswers 0 ++ okRead 5#32 ++ [] ∧
    (with_ session 0#32 0#32 0 (waitAnswers 31 ++ okRead 5#32)).env.samples = waitAnswers 31 ++ okRead 5#32 ++ [] := by
  decide +kernel

theorem witness_SetRegSendsTheValue :
    (session.port.busy = false ∧ session.pins.bound = true) ∧ regOf 0x08#6 = some Params.dp8 ∧
    (0 < Config.waitRetryBound ∧ 31 < Config.waitRetryBound) ∧
    (with_ session 0#32 0#32 0 okWrite).env.samples = waitAnswers 0 ++ okWrite ++ [] ∧
    (with_ session 0#32 0#32 0 (waitAnswers 31 ++ okWrite)).env.samples = waitAnswers 31 ++ okWrite ++ [] := by
  decide +kernel

theorem witness_ReadIdcodeIsGetRegOfItsRegister :
    (session.port.busy = false ∧ session.pins.bound = true) ∧ 31 < Config.waitRetryBound ∧
    (with_ session 0#32 0#32 0 (waitAnswers 31 ++ okRead 5#32)).env.samples = waitAnswers 31 ++ okRead 5#32 ++ [] := by
  decide +kernel

theorem witness_StalledAfterTheBound :
    (session.port.busy = false ∧ session.pins.bound = true) ∧ regOf 0x00#6 = some Params.dp0 ∧
    (with_ session 0#32 0#32 0 (waitAnswers 32)).env.samples = waitAnswers 32 ++ [] := by decide +kernel

theorem witness_BadAckEndsTheCommand :
    (session.port.busy = false ∧ session.pins.bound = true) ∧ regOf 0x04#6 = some Params.dp4 ∧
    31 < Config.waitRetryBound ∧ (4#3 ≠ 1#3 ∧ 4#3 ≠ 2#3) ∧ (7#3 ≠ 1#3 ∧ 7#3 ≠ 2#3) ∧
    (with_ session 0#32 0#32 0 (waitAnswers 31 ++ ackAnswer 4#3)).env.samples =
      waitAnswers 31 ++ ackAnswer 4#3 ++ [] ∧
    (with_ session 0#32 0#32 0 (ackAnswer 7#3)).env.samples = waitAnswers 0 ++ ackAnswer 7#3 ++ [] := by
  decide +kernel

theorem witness_ParityMismatchIsProtocolError :
    (session.port.busy = false ∧ session.pins.bound = true) ∧ regOf 0x04#6 = some Params.dp4 ∧
    31 < Config.waitRetryBound ∧
    (with_ session 0#32 0#32 0 (waitAnswers 31 ++ readAnswer 7#32 (!parity 7#32))).env.samples =
      waitAnswers 31 ++ readAnswer 7#32 (!parity 7#32) ++ [] := by decide +kernel

theorem witness_FailedReadsGiveTheSentinel :
    (xferRead Params.dp0 (with_ session 0#32 0#32 0 (ackAnswer 4#3))).status ≠ .ok ∧
    (accessRead Params.dp0 (with_ session 0#32 0#32 0 (ackAnswer 4#3))).status ≠ .ok ∧
    (with_ session 0#32 0#32 0 (ackAnswer 4#3)).port.busy = false ∧
    exec .peek (with_ session 0#32 0#32 0 (ackAnswer 4#3)) =
      .next (after .peek (with_ session 0#32 0#32 0 (ackAnswer 4#3))) ∧
    (after .peek (with_ session 0#32 0#32 0 (ackAnswer 4#3))).port.status ≠ Status.code .ok ∧
    (with_ session 0#32 0#32 0 (okRead 0xFFFFFFFF#32)).env.samples =
      ackAnswer 1#3 ++ List.replicate 32 true ++ [false] ++ [] :=
  ⟨by decide +kernel, by decide +kernel, rfl, after_eq .peek _ rfl _, by decide +kernel, by decide +kernel⟩

theorem witness_RegisterRoundTrip :
    ∃ (s t : State) (stored : List Bool),
      InSession s ∧ regOf 0x04#6 = some Params.dp4 ∧ s.env.samples = okWrite ++ [] ∧
      exec (.setReg 0x04#6) s = .next t ∧
      stored = ((drivenBits s.pins (t.pinTrace.drop s.pinTrace.length)).drop 8).take 32 :=
  ⟨with_ session 0#32 0xCAFEF00D#32 0 okWrite, _, _, ⟨rfl, rfl, rfl⟩, rfl, rfl, after_eq (.setReg 0x04#6) _ rfl _, rfl⟩

/-- The accesses of a list, access k answered after k WAITs, with data d. -/
def exchanges (l : List (RegAddr × Option Word)) (d : Word) : List Exchange :=
  l.zipIdx.map fun x => ⟨x.1.1, x.1.2, x.2, d⟩

/-- A session, with the answers to those accesses and then `rest`. -/
def answering (addr data : Word) (count : Nat) (es : List Exchange) (rest : List Bool) : State :=
  with_ session addr data count (es.flatMap Exchange.answers ++ rest)

theorem exchanges_access (l : List (RegAddr × Option Word)) (d : Word) :
    (exchanges l d).map Exchange.access = l := by
  rw [exchanges, List.map_map, show (Exchange.access ∘ fun x : (RegAddr × Option Word) × Nat =>
    (⟨x.1.1, x.1.2, x.2, d⟩ : Exchange)) = Prod.fst from rfl, List.zipIdx_map_fst]

theorem exchanges_waits (l : List (RegAddr × Option Word)) (d : Word) (h : l.length ≤ Config.waitRetryBound) :
    ∀ e ∈ exchanges l d, e.waits < Config.waitRetryBound := by
  intro e he
  obtain ⟨x, hx, rfl⟩ := List.mem_map.1 he
  have := (List.mem_zipIdx' (x := x.1) (i := x.2) hx).1
  exact Nat.lt_of_lt_of_le this h

/-- The accesses of the memory commands, each answered after another number of WAITs, meet the hypotheses. -/
theorem witness_accesses (i : Instr) (addr data : Word) (n : Nat) (d : Word) (rest : List Bool)
    (h : (accessList (with_ session addr data n []).port i).length ≤ Config.waitRetryBound) :
    ∃ (s : State) (es : List Exchange), s.port.busy = false ∧ s.pins.bound = true ∧ s.port.argCount = n ∧
      es.map Exchange.access = accessList s.port i ∧ AnswersOk es s.env.samples rest ∧
      ∀ k, k < (accessList s.port i).length → es[k]?.map Exchange.data = some d := by
  refine ⟨answering addr data n (exchanges (accessList (with_ session addr data n []).port i) d) rest, _, rfl, rfl, rfl,
    exchanges_access _ d, ⟨rfl, exchanges_waits _ d h⟩, fun k hk => ?_⟩
  rw [exchanges, List.getElem?_map, List.getElem?_zipIdx, List.getElem?_eq_getElem hk]
  rfl

theorem witness_SetupMemMakesTenAccesses :
    ∃ (s : State) (es : List Exchange), s.port.busy = false ∧ s.pins.bound = true ∧ s.port.argCount = 0 ∧
      es.map Exchange.access = accessList s.port .setupMem ∧ AnswersOk es s.env.samples [true] ∧
      ∀ k, k < (accessList s.port .setupMem).length → es[k]?.map Exchange.data = some 7#32 :=
  witness_accesses .setupMem 0#32 0#32 0 7#32 [true] (by decide)

theorem witness_PeekReadsThroughTheResultBuffer :
    ∃ (s : State) (es : List Exchange), s.port.busy = false ∧ s.pins.bound = true ∧ s.port.argCount = 0 ∧
      es.map Exchange.access = accessList s.port .peek ∧ AnswersOk es s.env.samples [] ∧
      ∀ k, k < (accessList s.port .peek).length → es[k]?.map Exchange.data = some 7#32 :=
  witness_accesses .peek 1#32 0#32 0 7#32 [] (by decide)

/-- No word, and one; where BUF has two entries, one is beyond that. -/
theorem witness_PeekManyFillsTheBuffer :
    (0 ≤ Config.bufDepth ∧ ∃ (s : State) (es : List Exchange), s.port.busy = false ∧ s.pins.bound = true ∧
      s.port.argCount = 0 ∧ es.map Exchange.access = accessList s.port .peekMany ∧ AnswersOk es s.env.samples [] ∧
      ∀ k, k < (accessList s.port .peekMany).length → es[k]?.map Exchange.data = some 7#32) ∧
    (1 ≤ Config.bufDepth ∧ ∃ (s : State) (es : List Exchange), s.port.busy = false ∧ s.pins.bound = true ∧
      s.port.argCount = 1 ∧ es.map Exchange.access = accessList s.port .peekMany ∧ AnswersOk es s.env.samples [] ∧
      ∀ k, k < (accessList s.port .peekMany).length → es[k]?.map Exchange.data = some 7#32) ∧
    (2 ≤ Config.bufDepth → 0 < 1 ∧ 1 ≤ 1 ∧ 1 < Config.bufDepth) :=
  ⟨⟨Nat.zero_le _, witness_accesses .peekMany 1#32 0#32 0 7#32 [] (by decide)⟩,
    ⟨Nat.succ_le_succ (Nat.zero_le _), witness_accesses .peekMany 1#32 0#32 1 7#32 [] (by decide)⟩,
    fun h => ⟨Nat.one_pos, Nat.le_refl _, h⟩⟩

theorem witness_PokeWritesAddressThenValue :
    ∃ (s : State) (es : List Exchange), s.port.busy = false ∧ s.pins.bound = true ∧ s.port.argCount = 0 ∧
      es.map Exchange.access = accessList s.port .poke ∧ AnswersOk es s.env.samples [] ∧
      ∀ k, k < (accessList s.port .poke).length → es[k]?.map Exchange.data = some 7#32 :=
  witness_accesses .poke 1#32 2#32 0 7#32 [] (by decide)

/-- No word, and one. -/
theorem witness_PokeManyWritesTheBuffer :
    (∃ (s : State) (es : List Exchange), s.port.busy = false ∧ s.pins.bound = true ∧
      s.port.argCount = 0 ∧ es.map Exchange.access = accessList s.port .pokeMany ∧ AnswersOk es s.env.samples [] ∧
      ∀ k, k < (accessList s.port .pokeMany).length → es[k]?.map Exchange.data = some 7#32) ∧
    (1 ≤ Config.bufDepth ∧ ∃ (s : State) (es : List Exchange), s.port.busy = false ∧ s.pins.bound = true ∧
      s.port.argCount = 1 ∧ es.map Exchange.access = accessList s.port .pokeMany ∧ AnswersOk es s.env.samples [] ∧
      ∀ k, k < (accessList s.port .pokeMany).length → es[k]?.map Exchange.data = some 7#32) :=
  ⟨witness_accesses .pokeMany 1#32 0#32 0 7#32 [] (by decide),
    ⟨Nat.succ_le_succ (Nat.zero_le _), witness_accesses .pokeMany 1#32 0#32 1 7#32 [] (by
      rw [accessList, List.length_cons, List.length_map, List.length_take]; exact Nat.le_trans (Nat.succ_le_succ (Nat.min_le_left 1 _)) (by decide))⟩⟩

/-- The address write of PEEK_MANY fails, with no word and with one; its prime and its drain fail; a read of SETUP_MEM
fails with its parity after the IDR was read. -/
theorem witness_MemoryCommandStopsAtTheFirstFailure :
    (session.port.busy = false ∧ session.pins.bound = true ∧ (0 ≤ Config.bufDepth ∧ 1 ≤ Config.bufDepth)) ∧
    accessList (with_ session 1#32 0#32 0 []).port .peekMany =
      ([] : List Exchange).map Exchange.access ++ (Params.ap4, some 1#32) :: [] ∧
    accessList (with_ session 1#32 0#32 1 []).port .peekMany =
      ([] : List Exchange).map Exchange.access ++
        (Params.ap4, some 1#32) :: [(Params.apC, none), (Params.dpC, none)] ∧
    accessList (with_ session 1#32 0#32 1 []).port .peekMany =
      [⟨Params.ap4, some 1#32, 31, 0#32⟩].map Exchange.access ++ (Params.apC, none) :: [(Params.dpC, none)] ∧
    accessList (with_ session 1#32 0#32 1 []).port .peekMany =
      [⟨Params.ap4, some 1#32, 31, 0#32⟩, ⟨Params.apC, none, 0, 5#32⟩].map Exchange.access ++ (Params.dpC, none) :: [] ∧
    (accessList session.port .setupMem =
      (exchanges ((accessList session.port .setupMem).take 7) 3#32).map Exchange.access ++
        (Params.dp8, some Config.selectCsw) ::
          [(Params.ap0, some Config.cswWord), (Params.dp8, some Config.selectIdle)]) ∧
    Failure.stalled.possible (some 1#32) ∧ (Failure.badAck 31 4#3).possible (some 1#32) ∧
    (Failure.badParity 31 9#32).possible none ∧
    AnswersOk [⟨Params.ap4, some 1#32, 31, 0#32⟩]
      (waitAnswers 31 ++ okWrite ++ (waitAnswers 31 ++ readAnswer 9#32 (!parity 9#32)))
      ((Failure.badParity 31 9#32).answers ++ []) := by
  refine ⟨⟨rfl, rfl, Nat.zero_le _, Nat.succ_le_succ (Nat.zero_le _)⟩, rfl, rfl, rfl, rfl, ?_, trivial,
    ⟨by decide, by decide, by decide⟩, ⟨by decide, rfl⟩, ⟨by decide +kernel, by decide⟩⟩
  rw [exchanges_access]; rfl

/-- A failure while BUF[0] is fetched, and a success; with no word, a success and a failure; and, where BUF has two entries,
one that a run of one word does not reach. -/
theorem witness_PeekManyKeepsInsideItsRange :
    (∃ s t : State, s.port.busy = false ∧ s.pins.bound = true ∧ s.port.argCount ≤ Config.bufDepth ∧
      exec .peekMany s = .next t ∧ t.port.status ≠ Status.code .ok ∧ 0 < s.port.argCount) ∧
    (∃ s t : State, s.port.busy = false ∧ s.pins.bound = true ∧ s.port.argCount ≤ Config.bufDepth ∧
      exec .peekMany s = .next t ∧ t.port.status = Status.code .ok ∧ 0 < s.port.argCount ∧
      (2 ≤ Config.bufDepth → s.port.argCount ≤ 1 ∧ 1 < Config.bufDepth)) ∧
    (∃ s t : State, s.port.busy = false ∧ s.pins.bound = true ∧ s.port.argCount ≤ Config.bufDepth ∧
      exec .peekMany s = .next t ∧ t.port.status = Status.code .ok ∧ s.port.argCount = 0) ∧
    (∃ s t : State, s.port.busy = false ∧ s.pins.bound = true ∧ s.port.argCount ≤ Config.bufDepth ∧
      exec .peekMany s = .next t ∧ t.port.status ≠ Status.code .ok ∧ s.port.argCount = 0 ∧ 0 < Config.bufDepth) :=
  ⟨⟨with_ session 0#32 0#32 1 (okWrite ++ okRead 9#32 ++ ackAnswer 4#3), _, rfl, rfl,
      Nat.succ_le_succ (Nat.zero_le _), after_eq .peekMany _ rfl _, by decide +kernel, by decide⟩,
    ⟨with_ session 0#32 0#32 1 (okWrite ++ okRead 9#32 ++ okRead 5#32), _, rfl, rfl,
      Nat.succ_le_succ (Nat.zero_le _), after_eq .peekMany _ rfl _, by decide +kernel, by decide,
      fun h => ⟨Nat.le_refl _, h⟩⟩,
    ⟨with_ session 0#32 0#32 0 okWrite, _, rfl, rfl, Nat.zero_le _, after_eq .peekMany _ rfl _, by decide +kernel, rfl⟩,
    ⟨with_ session 0#32 0#32 0 (ackAnswer 4#3), _, rfl, rfl, Nat.zero_le _, after_eq .peekMany _ rfl _,
      by decide +kernel, rfl, Nat.succ_pos _⟩⟩

/-- A component with the registers where the roles say under every bank, but for the one of AP_C. -/
def component (apC : PeerReg) : Component where
  fixed := fun r rnw =>
    match r.sel, r.a.toNat, rnw with
    | .dp, 0, false => some .abort
    | .dp, 0, true => some .idcode
    | .dp, 1, _ => some .ctrlstat
    | .dp, 2, false => some .select
    | .dp, 3, true => some .rdbuff
    | .ap, 0, false => some .csw
    | .ap, 1, false => some .tar
    | _, _, _ => none
  banked := fun _ r _ => if r = Params.apC then apC else .other
  ends := fun a => a = 0x200003FC#32
  idcode := none
  idr := some 0x04770031#32
  cswShows := some

/-- A peer with that component alone, whose link is ready. -/
def peer (apC : PeerReg) : MemPeer where
  answers := fun id => if id = none then some 0 else none
  parts := fun _ => component apC
  link := .ready
  heard := 0
  target := .unselected
  regs := fun _ => { Regs.unknown with select := some 0#32, csw := some Config.cswWord }
  request := none
  data := 0#32

theorem peer_serves (apC : PeerReg) :
    (peer apC).Serves 0 (component apC) { Regs.unknown with select := some 0#32, csw := some Config.cswWord } :=
  ⟨rfl, rfl, rfl, rfl⟩

/-- The clauses of PokeManyWritesTheBuffer about a failure: at the write of BUF[0], by too many WAITs, and, where BUF has two
entries, at that of BUF[1], by FAULT, as in 95 V109. -/
theorem witness_failedPokeMany :
    (∃ (s : State) (es : List Exchange) (w : Word) (post : List (RegAddr × Option Word)),
      (s.port.busy = false ∧ s.pins.bound = true ∧ s.port.argCount ≤ Config.bufDepth ∧ 4 * s.port.argCount ≤ 2 ^ 32 ∧
        s.port.argAddr.extractLsb' 0 2 = 0#2) ∧ es.length = 1 ∧
      accessList s.port .pokeMany = es.map Exchange.access ++ (Params.apC, some w) :: post ∧
      Failure.stalled.possible (some w) ∧ AnswersOk es s.env.samples (Failure.stalled.answers ++ [])) ∧
    (2 ≤ Config.bufDepth → ∃ (s : State) (es : List Exchange) (w : Word) (post : List (RegAddr × Option Word)),
      (s.port.busy = false ∧ s.pins.bound = true ∧ s.port.argCount ≤ Config.bufDepth ∧ 4 * s.port.argCount ≤ 2 ^ 32 ∧
        s.port.argAddr.extractLsb' 0 2 = 0#2) ∧ es.length = 2 ∧
      accessList s.port .pokeMany = es.map Exchange.access ++ (Params.apC, some w) :: post ∧
      (Failure.badAck 0 4#3).possible (some w) ∧ (Failure.badAck 0 4#3).status = .fault ∧
      AnswersOk es s.env.samples ((Failure.badAck 0 4#3).answers ++ []) ∧
      ∀ i, i + 1 < es.length → ((peer .drw).parts 0).ends (s.port.argAddr + BitVec.ofNat 32 (4 * i)) = false) ∧
    ((peer .drw).link = .ready ∧ (peer .drw).active = some 0 ∧ (peer .drw).now.csw = some Config.cswWord ∧
      (peer .drw).shown Params.ap4 false = some .tar ∧ (peer .drw).shown Params.apC false = some .drw) := by
  refine ⟨?_, fun h2 => ?_, rfl, rfl, rfl, rfl, rfl⟩
  · obtain ⟨w, hw⟩ : ∃ w, session.port.buf.toList.take 1 = [w] :=
      List.length_eq_one_iff.1 (by rw [List.length_take, Vector.length_toList]; exact Nat.min_eq_left (Nat.succ_pos _))
    refine ⟨with_ session 0x20000000#32 0#32 1 (okWrite ++ waitAnswers 32), [⟨Params.ap4, some 0x20000000#32, 0, 0#32⟩],
      w, [], ⟨rfl, rfl, Nat.succ_pos _, by decide, by decide⟩, rfl, ?_, trivial, by decide +kernel, by decide⟩
    exact congrArg (fun l : List Word => (Params.ap4, some 0x20000000#32) :: l.map fun w => (Params.apC, some w)) hw
  · obtain ⟨v, w, hw⟩ : ∃ v w, session.port.buf.toList.take 2 = [v, w] :=
      List.length_eq_two.1 (by rw [List.length_take, Vector.length_toList]; exact Nat.min_eq_left h2)
    refine ⟨with_ session 0x20000000#32 0#32 2 (okWrite ++ okWrite ++ ackAnswer 4#3),
      [⟨Params.ap4, some 0x20000000#32, 0, 0#32⟩, ⟨Params.apC, some v, 0, 0#32⟩],
      w, [], ⟨rfl, rfl, h2, by decide, by decide⟩, rfl, ?_, ⟨by decide, by decide, by decide⟩, rfl, 
        ⟨rfl, by simp [Config.waitRetryBound]⟩, ?_⟩
    · exact congrArg (fun l : List Word => (Params.ap4, some 0x20000000#32) :: l.map fun w => (Params.apC, some w)) hw
    · intro i hi
      obtain rfl : i = 0 := Nat.lt_one_iff.1 (Nat.lt_of_succ_lt_succ hi)
      decide

/-- 20 R58: an AP read of TAR posts the address that it holds (10 R43), and advances nothing. -/
theorem test_tar_is_posted (g : Regs) (h : g.tar = some 0x20000004#32) :
    (g.read (component .drw) .tar).posted = some 0x20000004#32 ∧ (g.read (component .drw) .tar).tar = some 0x20000004#32 :=
  ⟨by rw [Regs.read, Regs.tarShown, h]; rfl, h⟩

/-- The clauses about a peer of ResetOnTheWire and SelectTargetIgnoresTheAck. -/
theorem witness_peer_clauses : (peer .drw).heard = 0 ∧ (peer .drw).link ≠ .dormant := ⟨rfl, nofun⟩

/-- 70 R252: the transfer-control word is there after a RESET, and after the selection of a target whose ACK is invalid. -/
theorem test_registers_kept :
    ((peer .drw).follow (after .reset session).callsMade).map (fun q => (q.link, q.now.csw)) =
      some (.woken, some Config.cswWord) ∧
    ((peer .drw).follow (after .selectTarget (with_ session 0#32 5#32 0 [true, true, true])).callsMade).map
      (fun q => (q.link, q.target, (q.regs 0).csw)) = some (.woken, .selected 5#32, some Config.cswWord) := ⟨rfl, rfl⟩

/-- One word written and read back, with a WAIT in between. -/
def roundTrip : State :=
  buffer7 (with_ session 0x20000000#32 0#32 1
    (okWrite ++ okWrite ++ waitAnswers 1 ++ okWrite ++ okRead 9#32 ++ okRead 7#32))

/-- What the peer follows: the calls of the two commands of `roundTrip`. -/
theorem roundTrip_calls :
    (after .pokeMany roundTrip).callsMade =
      writeOkCalls Params.ap4 0x20000000#32 ++ writeOkCalls Params.apC 7#32 ∧
    (after .peekMany (after .pokeMany roundTrip)).callsMade =
      writeOkCalls Params.ap4 0x20000000#32 ++ writeOkCalls Params.apC 7#32 ++
        (waitCalls Params.ap4 false 1 ++ writeOkCalls Params.ap4 0x20000000#32 ++ readOkCalls Params.apC 9#32 ++
          readOkCalls Params.dpC 7#32) := by decide +kernel

/-- The peer of `roundTrip` follows both commands, the address write of the second one after a WAIT. -/
theorem roundTrip_follows :
    ∃ q q', (peer .drw).follow (writeOkCalls Params.ap4 0x20000000#32 ++ writeOkCalls Params.apC 7#32) = some q ∧
      q.follow (waitCalls Params.ap4 false 1 ++ writeOkCalls Params.ap4 0x20000000#32 ++ readOkCalls Params.apC 9#32 ++
        readOkCalls Params.dpC 7#32) = some q' := by
  obtain ⟨p1, f1, h1⟩ := (peer_serves .drw).followWrite Params.ap4 0x20000000#32 0 0#32 .tar _ rfl rfl rfl
  obtain ⟨p2, f2, h2⟩ := h1.followWrite Params.apC 7#32 0 0#32 .drw _ rfl rfl
    (congrArg some (store_aligned (a := 0x20000000#32) _ _ rfl rfl rfl))
  obtain ⟨p3, f3, h3⟩ := h2.followWrite Params.ap4 0x20000000#32 1 0#32 .tar _ rfl rfl rfl
  obtain ⟨p4, f4, h4⟩ := h3.followReadAp Params.apC 0 9#32 .drw _ rfl rfl rfl
    (fetch_aligned (a := 0x20000000#32) _ rfl rfl rfl)
  obtain ⟨p5, f5, -⟩ := h4.followReadDp Params.dpC 0 7#32 rfl rfl
  exact ⟨p2, p5, (follow_next f1).trans f2, (follow_next ((follow_next f3).trans f4)).trans f5⟩

theorem witness_MemoryRoundTrip :
    ∃ (s t u : State) (b : Vector Word Config.bufDepth) (p q q' : MemPeer) (c : Component),
      (s.port.busy = false ∧ s.pins.bound = true ∧ 4 * s.port.argCount ≤ 2 ^ 32 ∧
        s.port.argAddr.extractLsb' 0 2 = 0#2) ∧
      (p.link = .ready ∧ p.component = some c ∧ p.now.csw = some Config.cswWord ∧
        p.shown Params.ap4 false = some .tar ∧
        (∀ rnw, p.shown Params.apC rnw = some .drw) ∧ p.shown Params.dpC true = some .rdbuff ∧
        (∀ i, i < s.port.argCount → c.ends (s.port.argAddr + BitVec.ofNat 32 (4 * i)) = false)) ∧
      exec .pokeMany s = .next t ∧ t.port.status = Status.code .ok ∧
      p.follow (t.callsMade.drop s.callsMade.length) = some q ∧
      exec .peekMany { t with port.buf := b } = .next u ∧ u.port.status = Status.code .ok ∧
      q.follow (u.callsMade.drop t.callsMade.length) = some q' := by
  obtain ⟨c1, c2⟩ := roundTrip_calls
  obtain ⟨q, q', f1, f2⟩ := roundTrip_follows
  have h3 : (after .pokeMany roundTrip).port.status = Status.code .ok := by decide +kernel
  have h4 : (after .peekMany (after .pokeMany roundTrip)).port.status = Status.code .ok := by decide +kernel
  have h5 := after_eq .pokeMany _ rfl roundTrip
  have h6 := after_eq .peekMany _ rfl (after .pokeMany roundTrip)
  generalize after .pokeMany roundTrip = t at *
  refine ⟨roundTrip, t, after .peekMany t, t.port.buf, peer .drw, q, q', component .drw, ⟨rfl, rfl, by decide, by decide⟩,
    ⟨rfl, rfl, rfl, rfl, fun _ => rfl, rfl, fun i hi => ?_⟩, h5, h3, ?_, h6, h4, ?_⟩
  · obtain rfl : i = 0 := Nat.lt_one_iff.1 hi
    decide
  · rw [c1]; exact f1
  · rw [c2, c1]; exact f2

theorem setupMem_follows :
    ∃ q, (peer .idr).follow ((exchanges (accessList session.port .setupMem) 0x04770031#32).flatMap Exchange.calls) =
      some q := by
  obtain ⟨p1, f1, h1⟩ := (peer_serves .idr).followWrite Params.dp0 Config.abortClearWord 0 0x04770031#32 .abort _ rfl rfl
    (write_abort ..)
  obtain ⟨p2, f2, h2⟩ := h1.followWrite Params.dp8 Config.selectIdle 1 0x04770031#32 .select _ rfl rfl rfl
  obtain ⟨p3, f3, h3⟩ := h2.followWrite Params.dp4 Config.ctrlstatPowerupWord 2 0x04770031#32 .ctrlstat _ rfl rfl
    (write_ctrlstat ..)
  obtain ⟨p4, f4, h4⟩ := h3.followReadDp Params.dp4 3 0x04770031#32 rfl rfl
  obtain ⟨p5, f5, h5⟩ := h4.followWrite Params.dp8 Config.selectIdr 4 0x04770031#32 .select _ rfl rfl rfl
  obtain ⟨p6, f6, h6⟩ := h5.followReadAp Params.apC 5 0x04770031#32 .idr _ rfl rfl rfl rfl
  obtain ⟨p7, f7, h7⟩ := h6.followReadDp Params.dpC 6 0x04770031#32 rfl rfl
  obtain ⟨p8, f8, h8⟩ := h7.followWrite Params.dp8 Config.selectCsw 7 0x04770031#32 .select _ rfl rfl rfl
  obtain ⟨p9, f9, h9⟩ := h8.followWrite Params.ap0 Config.cswWord 8 0x04770031#32 .csw _ rfl rfl rfl
  obtain ⟨p10, f10, -⟩ := h9.followWrite Params.dp8 Config.selectIdle 9 0x04770031#32 .select _ rfl rfl rfl
  exact ⟨p10, (follow_next f1).trans ((follow_next f2).trans ((follow_next f3).trans ((follow_next f4).trans
    ((follow_next f5).trans ((follow_next f6).trans ((follow_next f7).trans ((follow_next f8).trans
    ((follow_next f9).trans ((follow_next f10).trans rfl)))))))))⟩

theorem witness_SetupMemIdentifiesThePeer :
    ∃ (s t : State) (p q : MemPeer) (c : Component) (w : Word),
      (s.port.busy = false ∧ s.pins.bound = true ∧ p.link = .ready ∧ p.component = some c ∧
        c.idr = some w) ∧
      ((∀ b, c.shown b Params.dp0 false = some .abort) ∧ (∀ b, c.shown b Params.dp8 false = some .select) ∧
        (∀ b rnw, c.shown b Params.dp4 rnw = some .ctrlstat) ∧ (∀ b, c.shown b Params.dpC true = some .rdbuff) ∧
        c.shown (some Config.selectIdr) Params.apC true = some .idr ∧
        c.shown (some Config.selectCsw) Params.ap0 false = some .csw) ∧
      exec .setupMem s = .next t ∧ t.port.status = Status.code .ok ∧
      p.follow (t.callsMade.drop s.callsMade.length) = some q := by
  obtain ⟨q, hq⟩ := setupMem_follows
  have hs : AnswersOk (exchanges (accessList session.port .setupMem) 0x04770031#32)
      (answering 0#32 0#32 0 (exchanges (accessList session.port .setupMem) 0x04770031#32) []).env.samples [] :=
    ⟨rfl, exchanges_waits _ _ (by decide)⟩
  obtain ⟨l, h1, h2, h3, h4⟩ := program_accessList .setupMem setupMemCommand rfl
    (answering 0#32 0#32 0 (exchanges (accessList session.port .setupMem) 0x04770031#32) []) nofun (by simp)
  obtain ⟨t, x, -, hr⟩ := runProgram_exchanges l _ [] (answering 0#32 0#32 0
    (exchanges (accessList session.port .setupMem) 0x04770031#32) []).latchOperands [] (by rw [exchanges_access, h2]; rfl)
    h3 h4 hs
  have ha := after_started .setupMem setupMemCommand rfl
    (answering 0#32 0#32 0 (exchanges (accessList session.port .setupMem) 0x04770031#32) []) rfl rfl
  rw [h1, ← List.append_nil (l.map Micro.access), hr] at ha
  refine ⟨_, _, peer .idr, q, component .idr, 0x04770031#32, ⟨rfl, rfl, rfl, rfl, rfl⟩,
    ⟨fun _ => rfl, fun _ => rfl, fun _ rnw => by cases rnw <;> rfl, fun _ => rfl, rfl, rfl⟩,
    after_eq .setupMem _ rfl (answering 0#32 0#32 0 (exchanges (accessList session.port .setupMem) 0x04770031#32) []),
    by rw [ha]; rfl, ?_⟩
  rw [ha, ← hq]
  refine congrArg _ ?_
  show (List.reverse t.env.calls).drop 0 = _
  rw [x.calls, List.reverse_append, List.reverse_reverse]
  rfl

/-- Both cases: the address write fails, and it succeeds. -/
theorem witness_PokeIsTwoSetRegs :
    (∃ s t u : State, s.port.busy = false ∧ s.pins.bound = true ∧ exec .poke s = .next t ∧
      exec (.setReg 0x24#6) { s with port.argData := s.port.argAddr } = .next u ∧ u.port.success = false) ∧
    (∃ s t u : State, s.port.busy = false ∧ s.pins.bound = true ∧ exec .poke s = .next t ∧
      exec (.setReg 0x24#6) { s with port.argData := s.port.argAddr } = .next u ∧ u.port.success = true) :=
  ⟨⟨with_ session 1#32 2#32 0 (ackAnswer 4#3), _, _, rfl, rfl, after_eq .poke _ rfl _,
      after_eq (.setReg 0x24#6) _ rfl _, by decide +kernel⟩,
    ⟨with_ session 1#32 2#32 0 (okWrite ++ okWrite), _, _, rfl, rfl, after_eq .poke _ rfl _,
      after_eq (.setReg 0x24#6) _ rfl _, by decide +kernel⟩⟩

theorem witness_EveryCommandEnds :
    encode (.getReg 0x08#6) = .cmdw 0x00000086#32 ∧ session.port.busy = false ∧ session.seq.pos = .idle :=
  ⟨rfl, rfl, rfl⟩

theorem witness_CommandFrame :
    ∃ t, encode .peekMany = .cmdw 0x00000009#32 ∧ session.port.busy = false ∧ exec .peekMany session = .next t :=
  ⟨_, rfl, rfl, after_eq .peekMany _ rfl _⟩

theorem witness_CommandsKeepTheIdleState :
    ∃ t, encode .init = .cmdw 0x00000000#32 ∧ State.reset.port.busy = false ∧ IdleInSession State.reset.pins ∧
      exec .init (with_ State.reset 2#32 3#32 0 []) = .next t ∧ IdleInSession session.pins :=
  ⟨_, rfl, rfl, nofun, after_eq .init _ rfl _, fun _ => rfl⟩

theorem witness_CommandsRespectTheLine :
    ∃ t, encode .selectTarget = .cmdw 0x00000002#32 ∧ Instr.selectTarget ≠ .init ∧ session.port.busy = false ∧
      lineOf session.pins = idleLine ∧ exec .selectTarget session = .next t :=
  ⟨_, rfl, nofun, rfl, rfl, after_eq .selectTarget _ rfl _⟩

/-- Each of the eight causes. -/
theorem witness_RefusedCommandsChangeNothing :
    (encode .reservedD = .cmdw 0x0000000D#32 ∧ encode .reservedE = .cmdw 0x0000000E#32 ∧
      encode .reservedF = .cmdw 0x0000000F#32) ∧
    (Instr.noop ≠ .init ∧ State.reset.pins.bound = false) ∧ session.pins.bound = true ∧
    pinOf (with_ State.reset 2#32 2#32 0 []).port.argAddr = pinOf (with_ State.reset 2#32 2#32 0 []).port.argData ∧
    (legalReg 0x10#6 = false ∧ legalReg 0x01#6 = false) ∧
    Config.bufDepth < (with_ session 0#32 0#32 (Config.bufDepth + 1) []).port.argCount ∧ session.port.busy = false := by
  refine ⟨⟨rfl, rfl, rfl⟩, ⟨nofun, rfl⟩, rfl, rfl, ⟨by decide, by decide⟩, Nat.lt_succ_self _, rfl⟩

/-- INIT without a session, and the largest count in one. -/
theorem witness_OtherCommandsAreNotRefused :
    (encode .init = .cmdw 0x00000000#32 ∧ State.reset.pins.bound = false ∧
      pinOf (with_ State.reset 2#32 3#32 0 []).port.argAddr ≠ pinOf (with_ State.reset 2#32 3#32 0 []).port.argData) ∧
    (encode .pokeMany = .cmdw 0x0000000B#32 ∧ (Instr.pokeMany = .init ↔ session.pins.bound = false) ∧
      (with_ session 0#32 0#32 Config.bufDepth []).port.argCount ≤ Config.bufDepth) :=
  ⟨⟨rfl, rfl, pins_differ⟩, ⟨rfl, ⟨nofun, nofun⟩, Nat.le_refl _⟩⟩

theorem witness_RequestFramesAreSent :
    encode .reqApCR = .req8 0x9F#8 ∧ encode (.req 1#1 0#2 0#1 0#1) = .req8 0xA1#8 ∧ session.pins.dir = .output ∧
    ({ session with seq.pos := .xfer 2 .req } : State).seq.pos = .xfer 2 .req ∧
    ({ session with seq.pos := .frame 0 } : State).seq.pos = .frame 0 :=
  ⟨rfl, rfl, rfl, rfl, rfl⟩

theorem witness_AcksDecideTheBranch :
    encode .ackFault = .ack3 4#3 ∧ encode .ackInvalid6 = .ack3 6#3 ∧
    ({ session with seq.pos := .xfer 1 (.decode true) } : State).seq.pos = .xfer 1 (.decode true) ∧
    ({ session with seq.pos := .xfer 1 (.decode false) } : State).seq.pos = .xfer 1 (.decode false) :=
  ⟨rfl, rfl, rfl, rfl⟩

/-- READ_IDCODE running, at phase ph of its one access. -/
def midway (ph : Phase) (shift : Word) : State :=
  { session with
    pins := { session.pins with dir := phaseDir ph }
    port := { session.port with busy := true }
    latch := { session.latch with cmdw := 3#32 }
    seq := { session.seq with pos := .xfer 0 ph, attempt := 1, shift := shift, ack := 2#3 } }

theorem witness_StepRunsTheDecodedInstruction :
    (({ session with env.inputs := [.host .run], port.cmdw := 0x000000C7#32 } : State).env.inputs = [.host .run] ∧
      decode (.cmdw 0x000000C7#32) = .ok (.setReg 0x0C#6)) ∧
    ((midway .req 0xA5#32).port.busy = true ∧ (midway .req 0xA5#32).env.inputs = [] ∧
      wireCode (midway .req 0xA5#32) = some (.req8 0xA5#8) ∧ decode (.req8 0xA5#8) = .ok .reqDp0R) ∧
    (wireCode (midway (.decode true) 0#32) = some (.ack3 2#3) ∧ decode (.ack3 2#3) = .ok .ackWait) :=
  ⟨⟨rfl, rfl⟩, ⟨rfl, rfl, rfl, rfl⟩, ⟨rfl, rfl⟩⟩

/-- Reserved bits of a NOOP by the blocking call, and an illegal REG of a GET_REG by the bare event. -/
theorem witness_BadCommandWordsAreRefused :
    (({ session with port.cmdw := 0x00000405#32, env.inputs := [.host .run] } : State).env.inputs = .host .run :: [] ∧
      decode (.cmdw 0x00000405#32) = .error (.reservedBits 0x00000405#32)) ∧
    (({ session with port.cmdw := 0x00000106#32, env.inputs := [.host .start] } : State).env.inputs = .host .start :: [] ∧
      decode (.cmdw 0x00000106#32) = .error (.illegalReg 0x00000106#32)) ∧ session.port.busy = false :=
  ⟨⟨rfl, rfl⟩, ⟨rfl, rfl⟩, rfl⟩

/-- 30 R97 for the bare event: STATUS REFUSED, and no command runs. -/
theorem test_bad_word_started :
    report (stepped { session with port.cmdw := 0x00000106#32, env.inputs := [.host .start] }) =
      (0x20#6, false, 0xFFFFFFFF#32) ∧
    (stepped { session with port.cmdw := 0x00000106#32, env.inputs := [.host .start] }).port.busy = false := by
  decide +kernel

/-- INIT without a session; SELECT_TARGET; GET_REG; and POKE_MANY of the largest count, whose first access is the address
write. -/
theorem witness_AcceptedStartLatchesTheOperands :
    (({ State.reset with env.inputs := [.host .start] } : State).env.inputs = .host .start :: [] ∧ State.reset.port.busy = false ∧
      decode (.cmdw 0x00000000#32) = .ok .init ∧ (Instr.init = .init ↔ State.reset.pins.bound = false) ∧
      pinOf 2#32 ≠ pinOf 3#32) ∧
    (decode (.cmdw 0x00000002#32) = .ok .selectTarget ∧ (Instr.selectTarget = .init ↔ session.pins.bound = false)) ∧
    (decode (.cmdw 0x00000246#32) = .ok (.getReg 0x24#6) ∧ regOf 0x24#6 = some Params.ap4) ∧
    (decode (.cmdw 0x0000000B#32) = .ok .pokeMany ∧
      (with_ session 1#32 0#32 Config.bufDepth []).port.argCount ≤ Config.bufDepth ∧
      ∃ l, accessList (with_ session 1#32 0#32 Config.bufDepth []).port .pokeMany = (Params.ap4, some 1#32) :: l) :=
  ⟨⟨rfl, rfl, rfl, ⟨fun _ => rfl, fun _ => rfl⟩, pins_differ⟩, ⟨rfl, ⟨nofun, nofun⟩⟩, ⟨rfl, rfl⟩, ⟨rfl, Nat.le_refl _, _, rfl⟩⟩

theorem witness_StartWhileBusyIsIgnored :
    ({ midway .trn1 0#32 with env.inputs := [.host .start] } : State).env.inputs = [.host .start] ∧
    ({ midway .trn1 0#32 with env.inputs := [.host .run] } : State).env.inputs = [.host .run] ∧ (midway .trn1 0#32).port.busy = true :=
  ⟨rfl, rfl, rfl⟩

/-- For each clause, a state whose next host move is the one named; of BUF, the first entry, and the first one past its
end. -/
theorem witness_HostMoves :
    (session.env.inputs = [] ∧ session.port.busy = false) ∧
    (∀ m ∈ [HostMove.wait, .writeArgAddr 1#32, .writeArgData 2#32, .writeArgCount 3, .clearDiag, .writeCmdw 4#32,
        .writeBuf 0 5#32, .writeBuf Config.bufDepth 5#32],
      ({ session with env.inputs := [.host m] } : State).env.inputs = .host m :: [] ∧
        ({ session with env.inputs := [.host m] } : State).port.busy = false) ∧
    (∀ m ∈ [HostMove.writeArgAddr 1#32, .writeArgData 2#32, .writeArgCount 3, .clearDiag, .writeCmdw 4#32,
        .writeBuf 0 5#32],
      ({ midway .trn1 0#32 with env.inputs := [.host m] } : State).env.inputs = .host m :: [] ∧
        ({ midway .trn1 0#32 with env.inputs := [.host m] } : State).port.busy = true) ∧
    0 < Config.bufDepth ∧ Config.bufDepth ≤ Config.bufDepth ∧
    ∃ t, HostMove.clearDiag ≠ .start ∧ HostMove.clearDiag ≠ .run ∧ HostMove.clearDiag ≠ .wait ∧
      step { midway .trn1 0#32 with env.inputs := [.host .clearDiag] } = .next t :=
  ⟨⟨rfl, rfl⟩, fun _ _ => ⟨rfl, rfl⟩, fun _ _ => ⟨rfl, rfl⟩, Nat.succ_pos _, Nat.le_refl _,
    _, nofun, nofun, nofun, rfl⟩

theorem witness_OperandWritesDoNotReachTheRunningCommand :
    ∃ t, (midway .trn1 0#32).port.busy = true ∧ engineStep (midway .trn1 0#32) = .next t :=
  ⟨_, rfl, rfl⟩

theorem witness_SteppingReachesTheMeaning :
    ∃ (s t : State), s.port.busy = false ∧ s.seq.pos = .idle ∧ s.env.inputs = [] ∧
      decode (.cmdw s.port.cmdw) = .ok .setupMem ∧ exec .setupMem s = .next t :=
  ⟨{ session with port.cmdw := 4#32 }, _, rfl, rfl, rfl, rfl, after_eq .setupMem _ rfl _⟩

theorem witness_PowerOnState : ({ session with env.inputs := [.powerOn] } : State).env.inputs = .powerOn :: [] := rfl

theorem inv_session : Inv session :=
  ⟨by decide, by decide, nofun, fun _ => ⟨rfl, fun _ => rfl⟩, nofun⟩

theorem inv_midway : Inv (midway .trn1 0#32) :=
  ⟨by decide, by decide, nofun, nofun, fun _ =>
    ⟨Access.read Params.regIdcode .hold, rfl, trivial, rfl, by decide, by decide⟩⟩

/-- Between commands, and inside one. -/
theorem witness_EveryStepKeepsTheInvariant :
    (∃ t, Inv session ∧ step session = .next t) ∧
    (∃ t, Inv (midway .trn1 0#32) ∧ step (midway .trn1 0#32) = .next t) :=
  ⟨⟨_, inv_session, rfl⟩, ⟨_, inv_midway, rfl⟩⟩

theorem witness_TracesAgree :
    ∃ t, session.pinTrace = session.env.calls.reverse.flatMap Call.expand ∧ step session = .next t :=
  ⟨_, rfl, rfl⟩

theorem witness_PinsFollowTheTrace :
    ∃ t, (∀ x : Pins, x = replay Pins.atReset State.reset.pinTrace →
      State.reset.pins.dir = x.dir ∧ State.reset.pins.dio = x.dio ∧ State.reset.pins.clk = x.clk ∧
      State.reset.pins.clkDir = x.clkDir) ∧ step State.reset = .next t :=
  ⟨_, fun _ h => by subst h; exact ⟨rfl, rfl, rfl, rfl⟩, rfl⟩

theorem witness_OnlyTheHostCanStopTheMachine :
    (Inv { session with env.inputs := [.host (.writeBuf Config.bufDepth 0#32)] } ∧
      step { session with env.inputs := [.host (.writeBuf Config.bufDepth 0#32)] } = .fault .bufIndexBeyondDepth) ∧
    (Inv { midway .trn1 0#32 with env.inputs := [.host (.writeCmdw 0#32)] } ∧
      step { midway .trn1 0#32 with env.inputs := [.host (.writeCmdw 0#32)] } = .fault .cmdwWrittenWhileBusy) :=
  ⟨⟨⟨by decide, by decide, nofun, fun _ => ⟨rfl, fun _ => rfl⟩, nofun⟩, if_neg (Nat.lt_irrefl Config.bufDepth)⟩,
    ⟨⟨by decide, by decide, nofun, nofun, fun _ =>
      ⟨Access.read Params.regIdcode .hold, rfl, trivial, rfl, by decide, by decide⟩⟩, rfl⟩⟩

end Sys2Proof.Tests
end

section
/-! PROOFS. What one step records (00 R6, 40 R120): the calls it makes, in the primitive-level trace; their
expansion, in the pin-level trace; and the same events on the driven pins. Said once of every step, it settles O58. -/

namespace Sys2Proof.Machine

/-! ## The pins the engine drives -/

/-- The pin fields that pin events write and nothing else does (10 R23, R24): direction and latch of the data pin, level
and direction of the clock pin. INIT and DISCONNECT write the other fields by themselves. -/
structure SameWires (p q : Pins) : Prop where
  dir : p.dir = q.dir
  dio : p.dio = q.dio
  clk : p.clk = q.clk
  clkDir : p.clkDir = q.clkDir

theorem SameWires.refl (p : Pins) : SameWires p p := ⟨rfl, rfl, rfl, rfl⟩

theorem SameWires.trans {p q r : Pins} (h : SameWires p q) (g : SameWires q r) : SameWires p r :=
  ⟨h.dir.trans g.dir, h.dio.trans g.dio, h.clk.trans g.clk, h.clkDir.trans g.clkDir⟩

theorem SameWires.apply {p q : Pins} (h : SameWires p q) (e : PinEvent) : SameWires (e.apply p) (e.apply q) := by
  cases e <;> constructor <;> simp only [PinEvent.apply, h.dir, h.dio, h.clk, h.clkDir]

theorem SameWires.replay {p q : Pins} (h : SameWires p q) (es : List PinEvent) :
    SameWires (replay p es) (Machine.replay q es) := by
  induction es generalizing p q with
  | nil => exact h
  | cons e es ih => exact ih (h.apply e)

/-! ## What is recorded -/

/-- From s to t the engine made the calls cs, and both traces and the driven pins show it (00 R6, 40 R120). -/
structure Records (cs : List Call) (s t : State) : Prop where
  calls : t.env.calls = cs.reverse ++ s.env.calls
  trace : t.env.trace = (cs.flatMap Call.expand).reverse ++ s.env.trace
  wires : SameWires (replay s.pins (cs.flatMap Call.expand)) t.pins

/-- From s to t the engine made some calls, and the observation shows them. -/
def Recorded (s t : State) : Prop := ∃ cs, Records cs s t

theorem Records.pinTrace {cs : List Call} {s t : State} (h : Records cs s t) :
    t.pinTrace = s.pinTrace ++ cs.flatMap Call.expand := by
  simp [State.pinTrace, h.trace]

theorem Records.callsMade {cs : List Call} {s t : State} (h : Records cs s t) :
    t.callsMade = s.callsMade ++ cs := by
  simp [State.callsMade, h.calls]

theorem Records.trans {cs ds : List Call} {s t u : State} (h : Records cs s t) (g : Records ds t u) :
    Records (cs ++ ds) s u where
  calls := by rw [g.calls, h.calls]; simp
  trace := by rw [g.trace, h.trace]; simp
  wires := by
    rw [List.flatMap_append, replay_append]
    exact (h.wires.replay _).trans g.wires

theorem Recorded.trans {s t u : State} (h : Recorded s t) (g : Recorded t u) : Recorded s u := by
  obtain ⟨cs, h⟩ := h
  obtain ⟨ds, g⟩ := g
  exact ⟨cs ++ ds, h.trans g⟩

/-- A change that makes no event records nothing. -/
theorem recorded_of_silent {s t : State} (hc : t.env.calls = s.env.calls) (ht : t.env.trace = s.env.trace)
    (hw : SameWires s.pins t.pins) : Recorded s t := ⟨[], hc, ht, hw⟩

theorem Recorded.refl (s : State) : Recorded s s := recorded_of_silent rfl rfl (SameWires.refl _)

/-- The port, the latched operands and the sequencer are no part of the observation. -/
theorem Recorded.book {s t : State} (h : Recorded s t) (p : Port) (l : Latch) (q : Seq) :
    Recorded s { t with port := p, latch := l, seq := q } :=
  h.trans (recorded_of_silent rfl rfl (SameWires.refl _))

theorem Worked.recorded {ps : List Call} {s t : State} (h : Worked ps s t) : Recorded s t :=
  ⟨ps, h.calls, h.trace, by rw [replay_calls, ← h.pins]; exact SameWires.refl _⟩

theorem Stored.recorded {s t : State} (h : Stored s t) : Recorded s t :=
  recorded_of_silent h.calls h.trace (h.pins ▸ SameWires.refl _)

theorem store_recorded (a : Access) (v : Word) (s : State) : Recorded s (a.store v s) :=
  (store_or_spoil a v s).1.recorded

theorem spoil_recorded (a : Access) (s : State) : Recorded s (a.spoil s) := (store_or_spoil a 0#32 s).2.recorded

/-! ## The fields of a transaction -/

theorem turn_recorded (d : Dir) (s : State) : Recorded s (turn d s) := by
  rw [turn_perform]; exact (Worked.perform _ s).recorded

theorem read_recorded (n : Nat) (h : n ≤ 32) (s : State) : Recorded s (read n s) := by
  rw [read_perform n s h]
  exact ((Worked.book s.seq.ack _ n n s).trans (Worked.perform _ _)).recorded

theorem readAck_recorded (s : State) : Recorded s (readAck s) := (read_recorded 3 (by omega) s).book _ _ _

theorem sendFrame_recorded (f : Byte) (s : State) : Recorded s (sendFrame f s) := by
  rw [sendFrame_perform]; exact ((Worked.shifted _ _ s).trans (Worked.perform _ _)).recorded

theorem takeLine_recorded (s : State) : Recorded s (takeLine s) := by
  rw [takeLine_perform]; exact (Worked.perform _ s).recorded

theorem sendWord_recorded (v : Word) (s : State) : Recorded s (sendWord v s) := by
  rw [sendWord_perform]; exact ((Worked.shifted _ _ s).trans (Worked.perform _ _)).recorded

theorem sendParity_recorded (v : Word) (s : State) : Recorded s (sendParity v s) := by
  rw [sendParity_perform]; exact ((Worked.shifted _ _ s).trans (Worked.perform _ _)).recorded

/-! ## The blocking call -/

/-- The statements that are no calls write the session and the pulls only. -/
theorem plain_recorded (m : Micro) (s : State) : Recorded s (m.plain s) := by
  by_cases h : m.isCalls = true
  · obtain ⟨ps, hw, _, _⟩ := plain_worked m h s
    exact hw.recorded
  · cases m with
    | setPins d c => exact recorded_of_silent rfl rfl ⟨rfl, rfl, rfl, rfl⟩
    | bind => exact recorded_of_silent rfl rfl ⟨rfl, rfl, rfl, rfl⟩
    | unbind => exact recorded_of_silent rfl rfl ⟨rfl, rfl, rfl, rfl⟩
    | _ => exact absurd rfl h

theorem accessRun_recorded (a : Access) (s : State) : Recorded s (a.run s).state := by
  obtain ⟨ps, t, _, hw, _, _, _, hr⟩ := accessRun_cases a s
  rcases hr with ⟨_, e⟩ | ⟨_, e⟩ <;> rw [e]
  · exact hw.recorded
  · exact hw.recorded.book _ _ _

theorem microRun_recorded (m : Micro) (s : State) : Recorded s (m.run s).2 := by
  cases m with
  | access a =>
    rw [Micro.run]
    split
    · exact (accessRun_recorded a s).trans (store_recorded _ _ _)
    · exact (accessRun_recorded a s).trans (spoil_recorded _ _)
  | _ =>
    simp only [Micro.run]
    exact plain_recorded _ s

theorem runProgram_recorded (ms : List Micro) (s : State) : Recorded s (runProgram ms s).2 :=
  runProgram_keeps (Recorded s) ms (fun m _ t h => h.trans (microRun_recorded m t)) s (Recorded.refl s)

theorem runCommand_recorded {c : Command} {s t : State} (h : runCommand c s = .next t) : Recorded s t := by
  by_cases hb : s.port.busy = true
  · rw [runCommand, if_pos hb] at h
    cases h
    exact Recorded.refl s
  · rcases runCommand_cases c s (by simpa using hb) with ⟨w, _, e⟩ | ⟨_, e⟩ <;> rw [e] at h <;> cases h
    · exact (Recorded.refl s).book _ _ _
    · have hl : Recorded s s.latchOperands := (Recorded.refl s).book _ _ _
      exact (hl.trans (runProgram_recorded _ _)).book _ _ _

/-- What an instruction's meaning is: a command run, a frame sent, or an ACK classified (42 R179). -/
theorem exec_cases (i : Instr) (s : State) :
    (∃ c, commandSpec i = some c ∧ exec i s = runCommand c s) ∨ (∃ f, exec i s = sendRequest f s) ∨
      (∃ a, exec i s = takeAck a s) := by
  cases i with
  | reqDp0W | reqDp4W | reqDp8W | reqDpCW | reqDp0R | reqDp4R | reqDp8R | reqDpCR
  | reqAp0W | reqAp4W | reqAp8W | reqApCW | reqAp0R | reqAp4R | reqAp8R | reqApCR
  | req => exact .inr (.inl ⟨_, rfl⟩)
  | ackOk | ackWait | ackFault | ackInvalid0 | ackInvalid3 | ackInvalid5 | ackInvalid6 | ackInvalid7 =>
    exact .inr (.inr ⟨_, rfl⟩)
  | _ => exact .inl ⟨_, rfl, rfl⟩

theorem exec_recorded {i : Instr} {s t : State} (h : exec i s = .next t) : Recorded s t := by
  rcases exec_cases i s with ⟨c, _, e⟩ | ⟨f, e⟩ | ⟨a, e⟩ <;> rw [e] at h
  · exact runCommand_recorded h
  · cases h
    exact (sendFrame_recorded f s).book _ _ _
  · cases h
    exact (Recorded.refl s).book _ _ _

/-! ## The sequencer -/

theorem enter_recorded (c : Command) (k : Nat) (s : State) : Recorded s (enter c k s) := by
  unfold enter
  split <;> exact (Recorded.refl s).book _ _ _

theorem settle_recorded (c : Command) (k : Nat) (a : Access) (st : Status) (v : Word) (s : State) :
    Recorded s (settle c k a st v s) := by
  unfold settle
  split
  · split
    · exact (Recorded.refl s).book _ _ _
    · have hd : Recorded s { s with port.diagStalled := true } := (Recorded.refl s).book _ _ _
      exact (hd.trans (spoil_recorded a _)).book _ _ _
  · split
    · exact (store_recorded a v s).trans (enter_recorded _ _ _)
    · exact (spoil_recorded a s).book _ _ _

theorem phaseStep_recorded (c : Command) (k : Nat) (a : Access) (ph : Phase) (s : State) :
    Recorded s (phaseStep c k a ph s) := by
  cases ph with
  | req | decode => exact Recorded.refl s
  | trn1 => exact (turn_recorded _ s).book _ _ _
  | ack => exact (readAck_recorded s).book _ _ _
  | trn2 st =>
    rw [phaseStep]
    split
    · exact (takeLine_recorded s).book _ _ _
    · exact (takeLine_recorded s).trans (settle_recorded ..)
  | wdata => exact (sendWord_recorded _ s).book _ _ _
  | wpar => exact (sendParity_recorded _ s).trans (settle_recorded ..)
  | rdata => exact (read_recorded 32 (by omega) s).book _ _ _
  | rpar data => exact (read_recorded 1 (by omega) s).book _ _ _
  | trn2Check data par =>
    rw [phaseStep]
    split <;> exact (takeLine_recorded s).trans (settle_recorded ..)

theorem advance_recorded (s : State) : Recorded s (advance s) := by
  unfold advance
  split
  · exact Recorded.refl s
  · exact Recorded.refl s
  · split
    · exact (Recorded.refl s).book _ _ _
    · exact Recorded.refl s
    · exact (plain_recorded _ s).trans (enter_recorded _ _ _)
  · split
    · exact phaseStep_recorded ..
    · exact Recorded.refl s

theorem startCommand_recorded (c : Command) (s : State) : Recorded s (startCommand c s) := by
  unfold startCommand
  split
  · exact Recorded.refl s
  · split
    · exact (Recorded.refl s).book _ _ _
    · have hl : Recorded s s.latchOperands := (Recorded.refl s).book _ _ _
      exact hl.trans (enter_recorded _ _ _)

/-! ## One step -/

theorem engineStep_recorded {s t : State} (h : engineStep s = .next t) : Recorded s t := by
  unfold engineStep at h
  split at h
  · cases h
    exact advance_recorded s
  · split at h
    · exact exec_recorded h
    · cases h

theorem callCommand_recorded {s t : State} (h : callCommand s = .next t) : Recorded s t := by
  unfold callCommand at h
  split at h
  · exact exec_recorded h
  · exact runCommand_recorded h

theorem hostMove_recorded {m : HostMove} {s t : State} (h : hostMove m s = .next t) : Recorded s t := by
  cases m with
  | wait =>
    rw [hostMove] at h
    split at h
    · exact engineStep_recorded h
    · cases h; exact Recorded.refl s
  | run => exact callCommand_recorded h
  | start => cases h; exact startCommand_recorded _ s
  | writeArgAddr w | writeArgData w | writeArgCount n | clearDiag => cases h; exact (Recorded.refl s).book _ _ _
  | writeCmdw w =>
    rw [hostMove] at h
    split at h
    · cases h
    · cases h; exact (Recorded.refl s).book _ _ _
  | writeBuf i w =>
    rw [hostMove] at h
    split at h
    · cases h
    · split at h
      · cases h; exact (Recorded.refl s).book _ _ _
      · cases h

/-- What a step does to the observation: a power-on forgets it (70 R250, log 23), any other step adds to it.
With no input to come the step is that of a host that waits (42 R183). -/
theorem step_recorded {s t : State} (h : step s = .next t) :
    (∃ rest, t = powerOn { s with env.inputs := rest }) ∨ Recorded s t := by
  unfold step at h
  split at h
  · exact .inr (hostMove_recorded (m := .wait) h)
  · next m rest _ =>
    have hi : Recorded s { s with env.inputs := rest } := recorded_of_silent rfl rfl (SameWires.refl _)
    exact .inr (hi.trans (hostMove_recorded h))
  · next rest _ =>
    cases h
    exact .inl ⟨rest, rfl⟩

/-- Settles O58: what a step adds to the pin-level trace is the expansion of the calls it makes, and a power-on empties
both traces. -/
theorem tracesAgree : Obligations.TracesAgree := by
  intro s t hs h
  rcases step_recorded h with ⟨rest, rfl⟩ | ⟨cs, hcs⟩
  · rfl
  · calc t.pinTrace = s.pinTrace ++ cs.flatMap Call.expand := hcs.pinTrace
      _ = (s.callsMade ++ cs).flatMap Call.expand := by rw [hs, List.flatMap_append]; rfl
      _ = t.callsMade.flatMap Call.expand := by rw [hcs.callsMade]

end Sys2Proof.Machine
end

section
/-! PROOFS. The running command (10 R36): which command a word names, what its program depends on, how long it is, and
what the wire instructions at a request position and at the classification do (42 R179). -/

namespace Sys2Proof.Machine

open Sys2Proof.Safety

/-! ## The command of a word -/

theorem commandSpec_commandOf (w : Word) : ∃ c, commandSpec (commandOf w) = some c := by
  unfold commandOf; split <;> exact ⟨_, rfl⟩

theorem decodeCommand_eq_commandOf {w : Word} {i : Instr} (h : decodeCommand w = .ok i) : i = commandOf w := by
  unfold decodeCommand at h
  split at h
  · cases h
  · split at h <;> cases h
    rfl

/-- A word that decodes names its instruction's command. -/
theorem commandSpec_of_decode {w : Word} {i : Instr} (h : decodeCommand w = .ok i) :
    commandSpec i = some (commandOfWord w) := by
  obtain ⟨c, hc⟩ := commandSpec_commandOf w
  rw [← decodeCommand_eq_commandOf h] at hc
  simp only [commandOfWord, h, hc, Option.getD_some]

theorem commandOfWord_cases (w : Word) :
    (∃ i, commandSpec i = some (commandOfWord w)) ∨ ∃ v, commandOfWord w = refusedWord v := by
  cases h : decodeCommand w with
  | ok i => exact .inl ⟨i, commandSpec_of_decode h⟩
  | error e => exact .inr ⟨valuedWord w, by rw [commandOfWord, h]⟩

/-- The blocking call runs the command of the word in x[CMDW], whether it decodes or not (30 R96, R97). -/
theorem callCommand_eq (s : State) : callCommand s = runCommand (commandOfWord s.port.cmdw) s := by
  have hd : decode (.cmdw s.port.cmdw) = decodeCommand s.port.cmdw := rfl
  rw [callCommand, hd]
  cases h : decodeCommand s.port.cmdw with
  | ok i => exact exec_command i _ (commandSpec_of_decode h) s
  | error e => rfl

/-! ## What a program depends on -/

/-- Every program but POKE_MANY's is made of the latched operands alone (10 R33). -/
theorem program_of_latch {i : Instr} {c : Command} (h : commandSpec i = some c) (hi : i ≠ .pokeMany) {s t : State}
    (hl : t.latch = s.latch) : c.program t = c.program s := by
  cases i <;> simp only [commandSpec, Option.some.injEq, reduceCtorEq] at h <;> subst h
  case pokeMany => exact absurd rfl hi
  case init => simp only [initCommand, initProgram, State.dataPinArg, State.clockPinArg, hl]
  case selectTarget => simp only [selectTargetCommand, selectTargetProgram, hl]
  case setReg reg => simp only [setRegCommand, setRegProgram, hl]
  case peek => simp only [peekCommand, peekProgram, hl]
  case peekMany => simp only [peekManyCommand, peekManyProgram, hl]
  case poke => simp only [pokeCommand, hl]
  all_goals rfl

theorem program_congr {i : Instr} {c : Command} (h : commandSpec i = some c) {s t : State} (hl : t.latch = s.latch)
    (hb : t.port.buf = s.port.buf) : c.program t = c.program s := by
  by_cases hi : i = .pokeMany
  · subst hi
    cases h
    simp only [pokeManyCommand, pokeManyProgram, State.bufWord, hl, hb]
  · exact program_of_latch h hi hl

/-- A word's program is made of the latched operands and the words of BUF (10 R33, 43 R204). -/
theorem commandOfWord_program_congr (w : Word) {s t : State} (hl : t.latch = s.latch)
    (hb : t.port.buf = s.port.buf) : (commandOfWord w).program t = (commandOfWord w).program s := by
  rcases commandOfWord_cases w with ⟨i, h⟩ | ⟨v, h⟩
  · exact program_congr h hl hb
  · rw [h]; rfl

theorem running_congr {s t : State} (hl : t.latch = s.latch) : t.running = s.running := by
  rw [State.running, State.running, hl]

theorem running_program_congr {s t : State} (hl : t.latch = s.latch) (hb : t.port.buf = s.port.buf) :
    t.running.program t = s.running.program s := by
  rw [running_congr hl]
  exact commandOfWord_program_congr _ hl hb

/-- Storing the value of one of its accesses does not change the running program: PEEK_MANY, which writes BUF, does not
read it. -/
theorem running_program_store {s : State} {k : Nat} {a : Access}
    (ha : (s.running.program s)[k]? = some (.access a)) (v : Word) :
    (a.store v s).running.program (a.store v s) = s.running.program s := by
  obtain ⟨hs, -⟩ := store_or_spoil a v s
  have hl := hs.inside.latch
  rcases commandOfWord_cases s.latch.cmdw with ⟨i, h⟩ | ⟨w, h⟩
  · by_cases hi : i = .peekMany
    · rw [running_congr hl]
      exact program_of_latch h (by rw [hi]; nofun) hl
    · refine running_program_congr hl ?_
      have hk : (Micro.access a).keepsBuf = true :=
        List.all_eq_true.1 (program_keepsBuf i _ h s hi) _ (List.mem_of_getElem? ha)
      obtain ⟨reg, value, sink, idx, fetching⟩ := a
      cases sink <;> first | rfl | simp [Micro.keepsBuf] at hk
  · rw [State.running, h] at ha
    cases ha

/-- No program has more statements than SETUP_MEM, RESET or a multi-word command (41 R143, 43 R191, R198). -/
theorem program_length {i : Instr} {c : Command} (h : commandSpec i = some c) (s : State) :
    (c.program s).length ≤ s.latch.count + 12 := by
  cases i <;> simp only [commandSpec, Option.some.injEq, reduceCtorEq] at h <;> subst h
  case getReg reg =>
    obtain ⟨l, h1, h2, _⟩ := getRegProgram_shape reg
    simp only [getRegCommand, h1, List.length_map]; omega
  case setReg reg =>
    obtain ⟨l, h1, h2, _⟩ := setRegProgram_shape reg s
    simp only [setRegCommand, h1, List.length_map]; omega
  case peekMany =>
    obtain ⟨l, h1, h2⟩ := peekManyProgram_shape s
    simp only [peekManyCommand, h1, List.length_map]; omega
  case pokeMany =>
    obtain ⟨l, h1, h2, _⟩ := pokeManyProgram_shape s
    simp only [pokeManyCommand, h1, List.length_map]; omega
  all_goals exact Nat.le_add_left_of_le (Nat.le_of_ble_eq_true rfl)

/-! ## The wire instructions -/

/-- The fixed bits of a request frame: start, stop and park (30 R81). -/
theorem req_fixedBits (r : RegAddr) (rnw : Bool) : req r rnw &&& 0xC1#8 = 0x81#8 := by
  obtain ⟨sel, a⟩ := r
  revert a
  cases sel <;> cases rnw <;> decide

/-- A word with the fixed bits of a frame decodes to the row that sends it (30 R83). -/
theorem decodeFrame_sends {f : Byte} (h : f &&& 0xC1#8 = 0x81#8) :
    ∃ i, decodeFrame f = .ok i ∧ ∀ s, exec i s = sendRequest f s := by
  have hg : frameWord (f.extractLsb' 5 1) (f.extractLsb' 3 2) (f.extractLsb' 2 1) (f.extractLsb' 1 1) = f := by
    revert f; decide
  have hw : BitVec.ofNat 8 f.toNat = f := by simp
  unfold decodeFrame
  split
  case h_17 =>
    rw [if_pos h]
    exact ⟨_, rfl, fun s => by rw [exec, execReq, hg]⟩
  all_goals
    next hn =>
    rw [hn] at hw
    subst hw
    exact ⟨_, rfl, fun _ => rfl⟩

/-- An ACK decodes to the row that classifies it (30 R84). -/
theorem exec_decodeAck (a : BitVec 3) (s : State) : exec (decodeAck a) s = takeAck a s := by
  have h : a = 0#3 ∨ a = 1#3 ∨ a = 2#3 ∨ a = 3#3 ∨ a = 4#3 ∨ a = 5#3 ∨ a = 6#3 ∨ a = 7#3 := by
    revert a; decide
  rcases h with rfl | rfl | rfl | rfl | rfl | rfl | rfl | rfl <;> rfl

/-- A frame in the shift register at a request position is sent (42 R179). -/
theorem engineStep_frame {s : State} {f : Byte}
    (hp : (∃ k, s.seq.pos = .xfer k .req) ∨ ∃ k, s.seq.pos = .frame k) (hs : s.seq.shift = f.setWidth 32)
    (hf : f &&& 0xC1#8 = 0x81#8) : engineStep s = sendRequest f s := by
  have hw : wireCode s = some (.req8 f) := by
    have : (f.setWidth 32).setWidth 8 = f := BitVec.setWidth_setWidth_of_le f (by omega)
    rcases hp with ⟨k, hp⟩ | ⟨k, hp⟩ <;> simp only [wireCode, hp, hs, this]
  obtain ⟨i, hi, he⟩ := decodeFrame_sends hf
  simp only [engineStep, hw, decode, hi, he]

/-- The ACK in S.ack is classified (42 R179). -/
theorem engineStep_ack {s : State} {k : Nat} {rnw : Bool} (hp : s.seq.pos = .xfer k (.decode rnw)) :
    engineStep s = takeAck s.seq.ack s := by
  have hw : wireCode s = some (.ack3 s.seq.ack) := by simp only [wireCode, hp]
  simp only [engineStep, hw, decode, exec_decodeAck]

theorem engineStep_advance {s : State} (h : wireCode s = none) : engineStep s = .next (advance s) := by
  rw [engineStep, h]

/-! ## A step, a call and a start -/

theorem step_host {s : State} {m : HostMove} {rest : List Input} (h : s.env.inputs = .host m :: rest) :
    step s = hostMove m { s with env.inputs := rest } := by
  unfold step
  rw [h]

theorem step_busy {s : State} (hb : s.port.busy = true) (h : s.env.inputs = []) : step s = engineStep s := by
  unfold step
  rw [h]
  exact if_pos hb

theorem engineStep_wire {s : State} {c : Code} {i : Instr} (hw : wireCode s = some c) (hd : decode c = .ok i) :
    engineStep s = exec i s := by
  simp only [engineStep, hw, hd]

theorem startCommand_busy (c : Command) {s : State} (hb : s.port.busy = true) : startCommand c s = s := if_pos hb

theorem runCommand_busy (c : Command) {s : State} (hb : s.port.busy = true) : runCommand c s = .next s := if_pos hb

/-- An accepted start latches the operands and goes to the first statement (10 R33). -/
theorem startCommand_accepted {c : Command} {s : State} (hb : s.port.busy = false)
    (h : c.refusal s.latchOperands = none) : startCommand c s = enter c 0 s.latchOperands := by
  rw [startCommand, if_neg (by rw [hb]; nofun), h]

theorem startCommand_refused {c : Command} {s : State} {x : RefusalCause} (hb : s.port.busy = false)
    (h : c.refusal s.latchOperands = some x) : startCommand c s = refuseCommand c.valued s := by
  rw [startCommand, if_neg (by rw [hb]; nofun), h]

/-! ## Going to a statement -/

/-- A statement that is neither an access nor a request frame. -/
def Micro.isStmt : Micro → Bool
  | .access _ | .frame _ => false
  | _ => true

theorem isStmt_iff (m : Micro) : m.isStmt = true ↔ (∀ a, m ≠ .access a) ∧ ∀ f, m ≠ .frame f := by
  cases m <;> simp [Micro.isStmt]

theorem enter_none {c : Command} {k : Nat} {s : State} (h : (c.program s)[k]? = none) :
    enter c k s = endCommand c.valued .ok s := by
  rw [enter, h]

theorem enter_access {c : Command} {k : Nat} {s : State} {a : Access} (h : (c.program s)[k]? = some (.access a)) :
    enter c k s = beginAttempt k a { a.begin s with seq.attempt := 0 } := by
  rw [enter, h]

theorem enter_frame {c : Command} {k : Nat} {s : State} {f : Byte} (h : (c.program s)[k]? = some (.frame f)) :
    enter c k s = { loadFrame f s with seq.pos := .frame k } := by
  rw [enter, h]

theorem enter_stmt {c : Command} {k : Nat} {s : State} {m : Micro} (h : (c.program s)[k]? = some m)
    (hm : m.isStmt = true) : enter c k s = { s with seq.pos := .stmt k } := by
  rw [enter, h]
  cases m <;> first | rfl | cases hm

theorem advance_stmt {s : State} {k : Nat} {m : Micro} (hp : s.seq.pos = .stmt k)
    (h : (s.running.program s)[k]? = some m) (hm : m.isStmt = true) :
    advance s = enter s.running (k + 1) (m.plain s) := by
  simp only [advance, hp, h]
  cases m <;> first | rfl | cases hm

theorem advance_access {s : State} {k : Nat} {ph : Phase} {a : Access} (hp : s.seq.pos = .xfer k ph)
    (h : (s.running.program s)[k]? = some (.access a)) : advance s = phaseStep s.running k a ph s := by
  simp only [advance, hp, h]

end Sys2Proof.Machine
end

section
/-! PROOFS. The line over a microprogram: at every statement it is as the statement needs it, and after the last one the
pins of a session are idle (10 R27, 40 R128). It settles O42. -/

namespace Sys2Proof.Machine

open Sys2Proof.Safety

/-! ## Programs that fit the line -/

/-- What a statement needs of the line before it, and of the statements after it: an access takes the idle line; a
request frame has its fixed bits and is followed by a statement that is no access (41 R146); the session ends last. -/
def Micro.ready (l : Line) (next : List Micro) : Micro → Prop
  | .access _ => l = idleLine
  | .frame f => f &&& 0xC1#8 = 0x81#8 ∧ next.head?.any Micro.isStmt = true
  | .unbind => next = []
  | _ => True

/-- From the line l every statement finds the line as it needs it, and the pins of a session are idle at the end. -/
def Walks : Line → List Micro → Prop
  | l, [] => l.bound = true → l = idleLine
  | l, m :: ms => m.ready l ms ∧ Walks (lineAfter m l) ms

/-- The line that the first k statements leave. -/
def lineBefore (k : Nat) (ms : List Micro) (l : Line) : Line := (ms.take k).foldl (fun l m => lineAfter m l) l

theorem lineBefore_succ {k : Nat} {ms : List Micro} {m : Micro} (h : ms[k]? = some m) (l : Line) :
    lineBefore (k + 1) ms l = lineAfter m (lineBefore k ms l) := by
  rw [lineBefore, List.take_add_one, List.foldl_append, h]; rfl

theorem Walks.drop {l : Line} {ms : List Micro} (h : Walks l ms) (k : Nat) :
    Walks (lineBefore k ms l) (ms.drop k) := by
  induction k generalizing l ms with
  | zero => exact h
  | succ k ih =>
    cases ms with
    | nil => exact h
    | cons m ms => exact ih h.2

theorem Walks.ready_at {l : Line} {ms : List Micro} (h : Walks l ms) {k : Nat} {m : Micro} (hm : ms[k]? = some m) :
    m.ready (lineBefore k ms l) (ms.drop (k + 1)) := by
  have hd := h.drop k
  obtain ⟨hk, rfl⟩ := List.getElem?_eq_some_iff.1 hm
  rw [List.drop_eq_getElem_cons hk] at hd
  exact hd.1

theorem Walks.idle_at_end {l : Line} {ms : List Micro} (h : Walks l ms) {k : Nat} (hk : ms[k]? = none) :
    (lineBefore k ms l).bound = true → lineBefore k ms l = idleLine := by
  have hd := h.drop k
  rwa [List.drop_eq_nil_of_le (List.getElem?_eq_none_iff.1 hk)] at hd

/-- Accesses take the idle line and give it back (42 R166, R167). -/
theorem walks_accesses {ms : List Micro} (h : ms.all Micro.isAccess = true) : Walks idleLine ms := by
  induction ms with
  | nil => exact fun _ => rfl
  | cons m ms ih =>
    simp only [List.all_cons, Bool.and_eq_true] at h
    cases m with
    | access a => exact ⟨rfl, ih h.2⟩
    | _ => cases h.1

/-- The line on which a command is started: no session for INIT, the idle line for the others (60 R226, 10 R27). -/
def StartLine (c : Command) (l : Line) : Prop := if c.isInit then l.bound = false else l = idleLine

theorem startLine_exists (c : Command) : ∃ l, StartLine c l := by
  by_cases h : c.isInit = true
  · exact ⟨{ idleLine with bound := false }, by simp [StartLine, h]⟩
  · exact ⟨idleLine, by simp [StartLine, h]⟩

/-- The session and the pins allow the start of an accepted command (60 R226, 10 R27). -/
theorem startLine_of_refusal_none {c : Command} {s : State} (h : c.refusal s = none) (hi : IdleInSession s.pins) :
    StartLine c (lineOf s.pins) := by
  obtain ⟨-, hb⟩ := (refusal_none_iff c s).1 h
  cases hc : c.isInit <;> rw [hc] at hb <;> simp only [StartLine, hc]
  · exact hi hb
  · exact hb

/-- Every command's program fits the line on which the command is started. -/
theorem program_walks {i : Instr} {c : Command} (h : commandSpec i = some c) (s : State) {l : Line}
    (hl : StartLine c l) : Walks l (c.program s) := by
  cases hlink : linkOnly i with
  | false =>
    have hi : c.isInit = false := by
      rw [Bool.eq_false_iff, Ne, isInit_iff i c h]
      rintro rfl
      cases hlink
    simp only [StartLine, hi, Bool.false_eq_true, if_false] at hl
    exact hl ▸ walks_accesses (program_accesses i c h s hlink)
  | true =>
    cases i with
    | init =>
      cases h
      simp [initCommand, initProgram, Walks, Micro.ready, lineAfter, idleLine]
    | reset =>
      cases h; cases hl
      simp [resetCommand, resetProgram, Walks, Micro.ready, lineAfter, idleLine]
    | selectTarget =>
      cases h; cases hl
      simp [selectTargetCommand, selectTargetProgram, Walks, Micro.ready, Micro.isStmt, lineAfter, req_fixedBits,
        idleLine]
    | noop =>
      cases h; cases hl
      simp [noopCommand, Walks, Micro.ready, lineAfter, idleLine]
    | disconnect =>
      cases h; cases hl
      simp [disconnectCommand, Walks, Micro.ready, lineAfter, idleLine]
    | _ => cases hlink

/-- A word's program fits the line on which it is started; that of a word that is refused is empty. -/
theorem commandOfWord_walks (w : Word) (s : State) {l : Line} (hl : StartLine (commandOfWord w) l) :
    Walks l ((commandOfWord w).program s) := by
  rcases commandOfWord_cases w with ⟨i, h⟩ | ⟨v, h⟩
  · exact program_walks h s hl
  · rw [h] at hl ⊢
    exact fun _ => hl

/-- A request frame has its fixed bits, and a statement that is no access follows it (41 R146). -/
theorem frame_followed {s : State} {k : Nat} {f : Byte} (h : (s.running.program s)[k]? = some (.frame f)) :
    f &&& 0xC1#8 = 0x81#8 ∧ ∃ m, (s.running.program s)[k + 1]? = some m ∧ m.isStmt = true := by
  obtain ⟨l, hl⟩ := startLine_exists s.running
  obtain ⟨hf, hm⟩ := (commandOfWord_walks _ s hl).ready_at h
  rw [List.head?_drop] at hm
  exact ⟨hf, (Option.any_eq_true _ _).1 hm⟩

/-- The session ends last (41 R150). -/
theorem unbind_last {s : State} {k : Nat} (h : (s.running.program s)[k]? = some .unbind) :
    (s.running.program s)[k + 1]? = none := by
  obtain ⟨l, hl⟩ := startLine_exists s.running
  exact List.getElem?_eq_none_iff.2 (List.drop_eq_nil_iff.1 ((commandOfWord_walks _ s hl).ready_at h))

/-! ## Running a program -/

/-- An access gives the idle line back idle, however it ends (42 R166, R167). -/
theorem accessMicro_line (a : Access) {s : State} (h : lineOf s.pins = idleLine) :
    lineOf ((Micro.access a).run s).2.pins = idleLine := by
  obtain ⟨hl, -⟩ := runProgram_accesses [.access a] rfl s h
  rw [runProgram_cons] at hl
  split at hl <;> exact hl

theorem microRun_plain {m : Micro} (h : m.isAccess = false) (s : State) : m.run s = (.ok, m.plain s) := by
  cases m <;> first | rfl | cases h

/-- A program that fits the line leaves the pins of a session idle, wherever it ends (10 R27). -/
theorem runProgram_idle {ms : List Micro} {s : State} (h : Walks (lineOf s.pins) ms) :
    IdleInSession (runProgram ms s).2.pins := by
  induction ms generalizing s with
  | nil => exact h
  | cons m ms ih =>
    obtain ⟨hready, hrest⟩ := h
    rw [runProgram_cons]
    by_cases ha : m.isAccess = true
    · cases m with
      | access a =>
        have hl := accessMicro_line a hready
        split
        · exact ih (by rw [hl, ← hready]; exact hrest)
        · exact fun _ => hl
      | _ => cases ha
    · rw [microRun_plain (by simpa using ha), if_pos rfl]
      by_cases hu : m = .unbind
      · subst hu
        cases hready
        exact nofun
      · exact ih (by rw [plain_line m hu]; exact hrest)

/-- A command whose program fits its line keeps the idle state of a session, whatever its status (10 R27). -/
theorem runCommand_idle {c : Command} (hw : ∀ s l, StartLine c l → Walks l (c.program s)) {s t : State}
    (hi : IdleInSession s.pins) (h : runCommand c s = .next t) : IdleInSession t.pins := by
  by_cases hb : s.port.busy = true
  · rw [runCommand_busy _ hb] at h
    cases h
    exact hi
  · rcases runCommand_cases c s (by simpa using hb) with ⟨w, -, e⟩ | ⟨hr, e⟩ <;> rw [e] at h <;> cases h
    · exact hi
    · exact runProgram_idle (hw _ _ (startLine_of_refusal_none hr hi))

/-- Settles O42: an accepted command's program fits the line it is started on, and a refused one changes no pin. -/
theorem commandsKeepTheIdleState : Obligations.CommandsKeepTheIdleState := by
  intro i w s t he _ hi ht
  obtain ⟨c, hc⟩ := commandSpec_of_encode i w he
  rw [exec_command i c hc] at ht
  exact runCommand_idle (fun s _ => program_walks hc s) hi ht

end Sys2Proof.Machine
end

section
/-! PROOFS. Every step keeps the invariant: the ends of a command, the phases of a transaction, the way from statement
to statement, and the host's moves. It settles O57. -/

namespace Sys2Proof.Machine

open Sys2Proof.Safety

/-! ## Between commands and inside one -/

/-- What the invariant says of the port while a command runs. -/
structure Underway (p : Port) : Prop where
  busy : p.busy = true
  done : p.done = false
  status : p.status ∈ terminalCodes
  success : p.success = (p.status == Status.code .ok)

theorem Underway.inside {s t : State} (h : Underway s.port) (g : Inside s t) : Underway t.port := by
  rw [g.port]
  exact ⟨h.busy, h.done, h.status, h.success⟩

theorem inv_of_underway {s : State} (h : Underway s.port) (hp : PositionOk s) : Inv s where
  status := h.status
  success := h.success
  doneNotBusy := fun hd => absurd (h.done.symm.trans hd) nofun
  rest := fun hb => absurd (h.busy.symm.trans hb) nofun
  position := fun _ => hp

theorem underway_of_inv {s : State} (h : Inv s) (hb : s.port.busy = true) : Underway s.port where
  busy := hb
  done := Bool.eq_false_iff.2 fun hd => by rw [h.doneNotBusy hd] at hb; cases hb
  status := h.status
  success := h.success

/-- Latching the operands sets BUSY and clears DONE; the report of the last command stays (10 R33). -/
theorem underway_latchOperands {s : State} (h : Inv s) : Underway s.latchOperands.port :=
  ⟨rfl, rfl, h.status, h.success⟩

/-- A report of a terminal status (30 R98, 10 R34). -/
theorem inv_of_report {v : Bool} {st : Status} {w : Word} {p : Port} {t : State} (ht : t.port = reportStatus v st w p)
    (hst : st ≠ .wait) (hpos : t.seq.pos = .idle) (hi : IdleInSession t.pins) : Inv t where
  status := by rw [ht]; cases st <;> first | exact absurd rfl hst | simp [reportStatus, terminalCodes]
  success := by rw [ht]; cases st <;> rfl
  doneNotBusy := fun _ => by rw [ht]; rfl
  rest := fun _ => ⟨hpos, hi⟩
  position := fun hb => by rw [ht] at hb; cases hb

theorem inv_endCommand {v : Bool} {st : Status} {s : State} (hst : st ≠ .wait) (hi : IdleInSession s.pins) :
    Inv (endCommand v st s) := inv_of_report rfl hst rfl hi

theorem inv_refuseCommand {v : Bool} {s : State} (hpos : s.seq.pos = .idle) (hi : IdleInSession s.pins) :
    Inv (refuseCommand v s) := inv_of_report rfl nofun hpos hi

/-! ## Standing at a statement -/

theorem statement_congr {s t : State} {k : Nat} {m : Micro} (hlatch : t.latch = s.latch)
    (hbuf : t.port.buf = s.port.buf) (h : (s.running.program s)[k]? = some m) :
    (t.running.program t)[k]? = some m := by
  rwa [running_program_congr hlatch hbuf]

theorem phaseFits_congr {a : Access} {ph : Phase} {s t : State} (hseq : t.seq = s.seq) (h : phaseFits a s ph) :
    phaseFits a t ph := by
  cases ph <;> simp only [phaseFits, hseq] at h ⊢ <;> exact h

theorem lineAt_congr {s t : State} {k : Nat} (hlatch : t.latch = s.latch) (hbuf : t.port.buf = s.port.buf)
    (hpins : t.pins = s.pins) (h : LineAt s k) : LineAt t k := by
  rw [LineAt, running_program_congr hlatch hbuf, running_congr hlatch, hpins]
  exact h

/-- The position depends on the sequencer, the latched operands, BUF and the pins alone. -/
theorem positionOk_congr {s t : State} (hseq : t.seq = s.seq) (hlatch : t.latch = s.latch)
    (hbuf : t.port.buf = s.port.buf) (hpins : t.pins = s.pins) (h : PositionOk s) : PositionOk t := by
  unfold PositionOk at h ⊢
  rw [hseq, running_program_congr hlatch hbuf, hpins]
  split at h
  · exact h
  · obtain ⟨m, hm, ha, hf, hl⟩ := h
    exact ⟨m, hm, ha, hf, lineAt_congr hlatch hbuf hpins hl⟩
  · obtain ⟨f, hm, hs, hf, hl⟩ := h
    exact ⟨f, hm, hs, hf, lineAt_congr hlatch hbuf hpins hl⟩
  · obtain ⟨a, hm, hf, hl⟩ := h
    exact ⟨a, hm, phaseFits_congr hseq hf, hl⟩

theorem lineAt_iff (s : State) (k : Nat) :
    LineAt s k ↔ ∃ l, StartLine s.running l ∧ lineOf s.pins = lineBefore k (s.running.program s) l := Iff.rfl

/-- The line before an access is idle, whatever the line at the start. -/
theorem lineBefore_access {s : State} {k : Nat} {a : Access} (ha : (s.running.program s)[k]? = some (.access a))
    {l : Line} (hl : StartLine s.running l) : lineBefore k (s.running.program s) l = idleLine :=
  (commandOfWord_walks _ s hl).ready_at ha

/-- After a statement other than the end of the session, the line is as the next one finds it. -/
theorem lineAt_succ {s t : State} {k : Nat} {m : Micro} (hm : (s.running.program s)[k]? = some m) (h : LineAt s k)
    (hlatch : t.latch = s.latch) (hprog : t.running.program t = s.running.program s)
    (hline : lineOf t.pins = lineAfter m (lineOf s.pins)) : LineAt t (k + 1) := by
  obtain ⟨l, hl, hk⟩ := (lineAt_iff s k).1 h
  refine (lineAt_iff t (k + 1)).2 ⟨l, ?_, ?_⟩
  · rwa [running_congr hlatch]
  · rw [hprog, lineBefore_succ hm, hline, hk]

/-! ## Inside an access -/

/-- The running command stands inside the access that is statement k, with the line in direction d. -/
structure AtAccess (k : Nat) (a : Access) (d : Dir) (s : State) : Prop where
  underway : Underway s.port
  access : (s.running.program s)[k]? = some (.access a)
  line : lineOf s.pins = { idleLine with dir := d }
  begun : 1 ≤ s.seq.attempt
  bounded : s.seq.attempt ≤ Config.waitRetryBound

/-- From s to t a field of a transaction took the line, low and the clock high, from direction d to e, and nothing else
changed that a command's course depends on. -/
structure Phased (d e : Dir) (s t : State) : Prop where
  port : t.port = s.port
  latch : t.latch = s.latch
  attempt : t.seq.attempt = s.seq.attempt
  inputs : t.env.inputs = s.env.inputs
  line : lineOf s.pins = { idleLine with dir := d } → lineOf t.pins = { idleLine with dir := e }

theorem AtAccess.phase {k : Nat} {a : Access} {d e : Dir} {s t : State} (h : AtAccess k a d s)
    (g : Phased d e s t) : AtAccess k a e t where
  underway := g.port ▸ h.underway
  access := statement_congr g.latch (by rw [g.port]) h.access
  line := g.line h.line
  begun := g.attempt ▸ h.begun
  bounded := g.attempt ▸ h.bounded

theorem Phased.of_calls {d e : Dir} {ps : List Call} {s t : State} (h : Worked ps s t)
    (ha : t.seq.attempt = s.seq.attempt)
    (hl : ∀ p, lineOf p = { idleLine with dir := d } →
      lineOf (ps.foldl (fun p c => c.pins p) p) = { idleLine with dir := e }) : Phased d e s t :=
  ⟨h.port, h.latch, ha, h.host, fun hs => by rw [h.pins]; exact hl _ hs⟩

theorem Phased.trans {d e f : Dir} {s t u : State} (h : Phased d e s t) (g : Phased e f t u) : Phased d f s u :=
  ⟨g.port.trans h.port, g.latch.trans h.latch, g.attempt.trans h.attempt, g.inputs.trans h.inputs,
    g.line ∘ h.line⟩

theorem turn_phased (d e : Dir) (s : State) : Phased d e s (turn e s) := by
  rw [turn_perform]
  refine .of_calls (Worked.perform _ s) rfl fun p hp => ?_
  simp only [idleLine, lineOf, Line.mk.injEq] at hp
  simp [Call.pins, idleLine, lineOf, hp]

theorem takeLine_phased (d : Dir) (s : State) : Phased d .output s (takeLine s) := by
  rw [takeLine_perform]
  refine .of_calls (Worked.perform _ s) rfl fun p hp => ?_
  simp only [idleLine, lineOf, Line.mk.injEq] at hp
  simp [Call.pins, idleLine, lineOf, hp]

theorem write_phased (d : Dir) (w : Word) (n : Nat) (s : State) : Phased d d s (write w n s) := by
  rw [write_perform]
  refine .of_calls ((Worked.shifted w n s).trans (Worked.perform _ _)) rfl fun p hp => ?_
  simp only [idleLine, lineOf, Line.mk.injEq] at hp
  simp [Call.pins, idleLine, lineOf, hp]

theorem pad_phased (d : Dir) (s : State) : Phased d d s (pad s) := by
  rw [pad_perform]
  exact .of_calls (Worked.perform _ s) rfl fun p hp => hp

theorem read_phased (d : Dir) {n : Nat} (h : n ≤ 32) (s : State) : Phased d d s (read n s) := by
  rw [read_perform n s h]
  refine .of_calls ((Worked.book s.seq.ack _ n n s).trans (Worked.perform _ _)) rfl fun p hp => ?_
  simp only [idleLine, lineOf, Line.mk.injEq] at hp
  simp [Call.pins, idleLine, lineOf, hp]

theorem readAck_phased (d : Dir) (s : State) : Phased d d s (readAck s) :=
  have h := read_phased d (n := 3) (by omega) s
  ⟨h.port, h.latch, h.attempt, h.inputs, h.line⟩

theorem sendFrame_phased (d : Dir) (f : Byte) (s : State) : Phased d d s (sendFrame f s) :=
  ((pad_phased d s).trans (write_phased d _ _ _)).trans (pad_phased d _)

theorem sendWord_phased (d : Dir) (v : Word) (s : State) : Phased d d s (sendWord v s) :=
  (write_phased d _ _ s).trans (pad_phased d _)

theorem sendParity_phased (d : Dir) (v : Word) (s : State) : Phased d d s (sendParity v s) :=
  (write_phased d _ _ s).trans (pad_phased d _)

/-- A position inside an access keeps the invariant when the line and the phase fit it. -/
theorem AtAccess.inv_at {k : Nat} {a : Access} {d : Dir} {ph : Phase} {s : State} (h : AtAccess k a d s)
    (hd : d = phaseDir ph) (hf : phaseFits a s ph) : Inv { s with seq.pos := .xfer k ph } := by
  have hm := statement_congr (s := s) (t := { s with seq.pos := .xfer k ph }) rfl rfl h.access
  have hf' : phaseFits a { s with seq.pos := .xfer k ph } ph := by cases ph <;> exact hf
  exact inv_of_underway h.underway ⟨a, hm, hf', hd ▸ h.line, h.begun, h.bounded⟩

/-- An attempt begins with the frame of its access in the shift register (42 R170, R179). -/
theorem beginAttempt_inv {k : Nat} {a : Access} {s : State} (hu : Underway s.port)
    (ha : (s.running.program s)[k]? = some (.access a)) (hl : lineOf s.pins = idleLine)
    (hn : s.seq.attempt < Config.waitRetryBound) : Inv (beginAttempt k a s) :=
  have h : AtAccess k a .output { loadFrame (req a.reg a.rnw) s with seq.attempt := s.seq.attempt + 1 } :=
    ⟨hu, statement_congr (s := s) rfl rfl ha, hl, Nat.succ_le_succ (Nat.zero_le _), hn⟩
  h.inv_at rfl rfl

/-- Going to a statement: the line is as the program has it there. -/
theorem enter_inv {k : Nat} {s : State} (hu : Underway s.port) (hl : LineAt s k) : Inv (enter s.running k s) := by
  obtain ⟨l, hstart, hline⟩ := (lineAt_iff s k).1 hl
  have hw := commandOfWord_walks s.latch.cmdw s hstart
  have hlAt (q : Seq) : LineAt { s with seq := q } k := lineAt_congr (s := s) rfl rfl rfl hl
  cases hm : (s.running.program s)[k]? with
  | none =>
    rw [enter_none hm]
    exact inv_endCommand nofun fun hb => hline.trans (hw.idle_at_end hm (hline ▸ hb))
  | some m =>
    have hready := hw.ready_at hm
    by_cases hs : m.isStmt = true
    · rw [enter_stmt hm hs]
      obtain ⟨hna, hnf⟩ := (isStmt_iff m).1 hs
      exact inv_of_underway hu ⟨m, statement_congr (s := s) rfl rfl hm, hna, hnf, hlAt _⟩
    · cases m with
      | access a =>
        rw [enter_access hm]
        exact beginAttempt_inv hu (statement_congr (s := s) rfl rfl hm) (hline.trans hready)
          (Nat.zero_lt_succ 31)
      | frame f =>
        rw [enter_frame hm]
        exact inv_of_underway hu ⟨f, statement_congr (s := s) rfl rfl hm, rfl, hready.1, hlAt _⟩
      | _ => exact absurd rfl hs

/-- The end of a transaction: round again, on to the next statement, or the end of the command. -/
theorem settle_inv {k : Nat} {a : Access} {s : State} (h : AtAccess k a .output s) (st : Status) (v : Word) :
    Inv (settle s.running k a st v s) := by
  have hidle : lineOf s.pins = idleLine := h.line
  unfold settle
  split
  · split
    · next hn => exact beginAttempt_inv h.underway h.access hidle hn
    · obtain ⟨-, hs⟩ := store_or_spoil a v { s with port.diagStalled := true }
      exact inv_endCommand nofun fun _ => by rw [hs.pins]; exact hidle
  · next hw =>
    split
    · obtain ⟨hs, -⟩ := store_or_spoil a v s
      have hlatch := hs.inside.latch
      obtain ⟨l, hstart⟩ := startLine_exists s.running
      have hk : LineAt s k := (lineAt_iff s k).2 ⟨l, hstart, hidle.trans (lineBefore_access h.access hstart).symm⟩
      rw [← running_congr hlatch]
      exact enter_inv (h.underway.inside hs.inside) (lineAt_succ h.access hk hlatch (running_program_store h.access v)
        (by rw [hs.pins]; rfl))
    · obtain ⟨-, hs⟩ := store_or_spoil a v s
      exact inv_endCommand hw fun _ => by rw [hs.pins]; exact hidle

/-! ## One position -/

/-- A statement that is no access, and the way to the next one. -/
theorem plain_enter_inv {s : State} {k : Nat} {m : Micro} (hu : Underway s.port) (hl : LineAt s k)
    (hm : (s.running.program s)[k]? = some m) : Inv (enter s.running (k + 1) (m.plain s)) := by
  obtain ⟨hin, hport⟩ := plain_inside m s
  have hbuf : (m.plain s).port.buf = s.port.buf := by rw [hport]
  have hprog := running_program_congr hin.latch hbuf
  rw [← running_congr hin.latch]
  by_cases hub : m = .unbind
  · subst hub
    rw [enter_none (by rw [hprog]; exact unbind_last hm)]
    exact inv_endCommand nofun nofun
  · exact enter_inv (hport ▸ hu) (lineAt_succ hm hl hin.latch hprog (plain_line m hub s))

/-- One phase of a transaction that is no wire instruction (42 R179). -/
theorem phaseStep_inv {s : State} {k : Nat} {a : Access} {ph : Phase} (hi : Inv s) (h : AtAccess k a (phaseDir ph) s)
    (hf : phaseFits a s ph) : Inv (phaseStep s.running k a ph s) := by
  have hsettle {d : Dir} {t : State} (g : Phased d .output s t) (hd : d = phaseDir ph) (st : Status) (v : Word) :
      Inv (settle s.running k a st v t) := by
    subst hd
    rw [← running_congr g.latch]
    exact settle_inv (h.phase g) st v
  cases ph with
  | req | decode => exact hi
  | trn1 => exact (h.phase (turn_phased _ .input s)).inv_at rfl trivial
  | ack => exact (h.phase (readAck_phased _ s)).inv_at rfl rfl
  | trn2 st =>
    rw [phaseStep]
    split
    · next ho => exact (h.phase (takeLine_phased _ s)).inv_at rfl (hf ho)
    · exact hsettle (takeLine_phased _ s) rfl _ _
  | wdata =>
    have hr : a.rnw = false := hf
    exact (h.phase (sendWord_phased _ _ s)).inv_at rfl hr
  | wpar => exact hsettle (sendParity_phased _ _ s) rfl _ _
  | rdata =>
    have hr : a.rnw = true := hf
    exact (h.phase (read_phased _ (by omega) s)).inv_at rfl hr
  | rpar data =>
    have hr : a.rnw = true := hf
    exact (h.phase (read_phased _ (by omega) s)).inv_at rfl hr
  | trn2Check data par =>
    rw [phaseStep]
    split <;> exact hsettle (takeLine_phased _ s) rfl _ _

/-- The ACK decides the branch: a read that is OK goes on to its data (42 R179). -/
theorem takeAck_inv {s t : State} {k : Nat} {a : Access} {rnw : Bool} (h : AtAccess k a .input s)
    (hf : rnw = a.rnw) (hp : s.seq.pos = .xfer k (.decode rnw)) (ht : takeAck s.seq.ack s = .next t) : Inv t := by
  cases ht
  rw [hp]
  cases rnw with
  | false => exact h.inv_at rfl fun _ => hf.symm
  | true =>
    by_cases hok : ackStatus s.seq.ack = .ok
    · rw [hok]
      exact h.inv_at rfl hf.symm
    · have hpos : afterAck (ackStatus s.seq.ack) (.xfer k (.decode true)) = .xfer k (.trn2 (ackStatus s.seq.ack)) := by
        cases hst : ackStatus s.seq.ack <;> first | rfl | exact absurd hst hok
      rw [hpos]
      exact h.inv_at rfl fun ho => absurd ho hok

/-- One position of the running command keeps the invariant. -/
theorem engineStep_inv {s t : State} (hi : Inv s) (hb : s.port.busy = true) (h : engineStep s = .next t) : Inv t := by
  have hu := underway_of_inv hi hb
  have hpos := hi.position hb
  unfold PositionOk at hpos
  cases hp : s.seq.pos with
  | idle => rw [hp] at hpos; exact hpos.elim
  | stmt k =>
    rw [hp] at hpos
    obtain ⟨m, hm, hna, hnf, hl⟩ := hpos
    rw [engineStep_advance (by rw [wireCode, hp]), advance_stmt hp hm ((isStmt_iff m).2 ⟨hna, hnf⟩)] at h
    cases h
    exact plain_enter_inv hu hl hm
  | frame k =>
    rw [hp] at hpos
    obtain ⟨f, hm, hs, hf, hl⟩ := hpos
    rw [engineStep_frame (.inr ⟨k, hp⟩) hs hf] at h
    cases h
    obtain ⟨-, m, hnext, hms⟩ := frame_followed hm
    obtain ⟨hin, hport⟩ := plain_inside (.frame f) s
    have he := enter_stmt (statement_congr hin.latch (by rw [hport]) hnext) hms
    rw [running_congr hin.latch] at he
    rw [hp]
    exact he ▸ plain_enter_inv hu hl hm
  | xfer k ph =>
    rw [hp] at hpos
    obtain ⟨a, hm, hf, hl, h1, h2⟩ := hpos
    have hat : AtAccess k a (phaseDir ph) s := ⟨hu, hm, hl, h1, h2⟩
    by_cases hw : wireCode s = none
    · rw [engineStep_advance hw, advance_access hp hm] at h
      cases h
      exact phaseStep_inv hi hat hf
    · cases ph with
      | req =>
        rw [engineStep_frame (.inl ⟨k, hp⟩) hf (req_fixedBits a.reg a.rnw)] at h
        cases h
        rw [hp]
        exact (hat.phase (sendFrame_phased _ _ s)).inv_at rfl trivial
      | decode rnw =>
        rw [engineStep_ack hp] at h
        exact takeAck_inv hat hf hp h
      | _ => exact absurd (by rw [wireCode, hp]) hw

/-! ## The host -/

/-- The invariant does not depend on what the host writes while it may, nor on what is still to come. -/
theorem inv_congr {s t : State} (hi : Inv s) (hst : t.port.status = s.port.status)
    (hsu : t.port.success = s.port.success) (hb : t.port.busy = s.port.busy) (hd : t.port.done = s.port.done)
    (hbuf : s.port.busy = true → t.port.buf = s.port.buf) (hseq : t.seq = s.seq) (hlatch : t.latch = s.latch)
    (hpins : t.pins = s.pins) : Inv t where
  status := hst ▸ hi.status
  success := by rw [hsu, hst]; exact hi.success
  doneNotBusy := by rw [hd, hb]; exact hi.doneNotBusy
  rest := by rw [hb, hseq, hpins]; exact hi.rest
  position := by
    rw [hb]
    exact fun h => positionOk_congr hseq hlatch (hbuf h) hpins (hi.position h)

theorem inv_powerOn (s : State) : Inv (powerOn s) where
  status := List.mem_cons_self
  success := rfl
  doneNotBusy := nofun
  rest := fun _ => ⟨rfl, nofun⟩
  position := nofun

/-- The blocking call (30 R96). -/
theorem callCommand_inv {s t : State} (hi : Inv s) (h : callCommand s = .next t) : Inv t := by
  rw [callCommand_eq] at h
  by_cases hb : s.port.busy = true
  · rw [runCommand_busy _ hb] at h
    cases h
    exact hi
  · rw [Bool.not_eq_true] at hb
    obtain ⟨hpos, hidle⟩ := hi.rest hb
    have hidle' := runCommand_idle (commandOfWord_walks _) hidle h
    rcases runCommand_cases _ s hb with ⟨_, -, e⟩ | ⟨-, e⟩ <;> rw [e] at h <;> cases h
    · exact inv_refuseCommand hpos hidle'
    · exact inv_endCommand (runProgram_status _ _).1 hidle'

/-- The event `start` (10 R33). -/
theorem startCommand_inv {s : State} (hi : Inv s) : Inv (startCommand (commandOfWord s.port.cmdw) s) := by
  unfold startCommand
  split
  · exact hi
  · next hb =>
    rw [Bool.not_eq_true] at hb
    obtain ⟨hpos, hidle⟩ := hi.rest hb
    split
    · exact inv_refuseCommand hpos hidle
    · next hr =>
      have hr' : s.latchOperands.running.refusal s.latchOperands = none := hr
      have hl : LineAt s.latchOperands 0 := (lineAt_iff _ _).2 ⟨_, startLine_of_refusal_none hr' hidle, rfl⟩
      exact enter_inv (s := s.latchOperands) (underway_latchOperands hi) hl

theorem hostMove_inv {m : HostMove} {s t : State} (hi : Inv s) (h : hostMove m s = .next t) : Inv t := by
  cases m with
  | wait =>
    rw [hostMove] at h
    split at h
    · next hb => exact engineStep_inv hi hb h
    · cases h; exact hi
  | run => exact callCommand_inv hi h
  | start => cases h; exact startCommand_inv hi
  | writeArgAddr w | writeArgData w | writeArgCount n | clearDiag =>
    cases h
    exact inv_congr hi rfl rfl rfl rfl (fun _ => rfl) rfl rfl rfl
  | writeCmdw w =>
    rw [hostMove] at h
    split at h <;> cases h
    exact inv_congr hi rfl rfl rfl rfl (fun _ => rfl) rfl rfl rfl
  | writeBuf i w =>
    rw [hostMove] at h
    split at h
    · cases h
    · next hb =>
      split at h <;> cases h
      exact inv_congr hi rfl rfl rfl rfl (fun h => absurd h hb) rfl rfl rfl

/-- Settles O57: a running command goes from position to position of its program, on a line that fits it; an ended or
refused one reports a terminal status on idle pins; the host's own moves touch nothing that the invariant speaks of. -/
theorem everyStepKeepsTheInvariant : Obligations.EveryStepKeepsTheInvariant := by
  intro s t hi h
  have hpop (rest : List Input) : Inv { s with env := { s.env with inputs := rest } } :=
    inv_congr hi rfl rfl rfl rfl (fun _ => rfl) rfl rfl rfl
  unfold step at h
  split at h
  · exact hostMove_inv (m := .wait) hi h
  · exact hostMove_inv (hpop _) h
  · cases h
    exact inv_powerOn _

end Sys2Proof.Machine
end

section
/-! PROOFS. The sequencer refines the command (10 R36, 42 R179, R270): phase after phase a transaction, attempt after
attempt an access, statement after statement a program. It settles O54. -/

namespace Sys2Proof.Machine

open Sys2Proof.Safety

/-! ## Runs of the machine -/

theorem run_succ {M : Host.Core} {s u : M.State} (h : M.step s = .next u) (m : Nat) : M.run (m + 1) s = M.run m u := by
  rw [Host.Core.run, h]

theorem run_add {M : Host.Core} (m n : Nat) {s t : M.State} (h : M.run m s = .next t) :
    M.run (m + n) s = M.run n t := by
  induction m generalizing s with
  | zero =>
    cases h
    rw [Nat.zero_add]
  | succ m ih =>
    rw [Nat.succ_add]
    cases hs : M.step s with
    | next u =>
      rw [run_succ hs] at h ⊢
      exact ih h
    | fault r => rw [Host.Core.run, hs] at h; cases h
    | refused r => rw [Host.Core.run, hs] at h; cases h

theorem core_run_succ {s u : State} (h : step s = .next u) (m : Nat) :
    Host.Core.run Sys2Proof.core (m + 1) s = Host.Core.run Sys2Proof.core m u := run_succ (M := Sys2Proof.core) h m

/-- The machine comes from s to t in at most n steps. -/
def Within (n : Nat) (s t : State) : Prop := ∃ m ≤ n, Host.Core.run Sys2Proof.core m s = .next t

theorem Within.refl (s : State) : Within 0 s s := ⟨0, Nat.le_refl 0, rfl⟩

theorem Within.cons {n : Nat} {s u t : State} (h : step s = .next u) (g : Within n u t) : Within (n + 1) s t := by
  obtain ⟨m, hm, g⟩ := g
  exact ⟨m + 1, Nat.succ_le_succ hm, (core_run_succ h m).trans g⟩

theorem Within.mono {m n : Nat} {s t : State} (h : Within m s t) (hmn : m ≤ n) : Within n s t := by
  obtain ⟨k, hk, h⟩ := h
  exact ⟨k, Nat.le_trans hk hmn, h⟩

theorem Within.trans {m n : Nat} {s t u : State} (h : Within m s t) (g : Within n t u) : Within (m + n) s u := by
  obtain ⟨k, hk, h⟩ := h
  obtain ⟨l, hl, g⟩ := g
  exact ⟨k + l, Nat.add_le_add hk hl, (run_add k l h).trans g⟩

/-! ## Where the sequencer stands -/

/-- The sequencer stands at p. -/
def placed (p : Pos) (s : State) : State := { s with seq.pos := p }

/-! What a field of a transaction or a statement does, it does at any position. -/

theorem perform_placed (p : Pos) (cs : List Call) (s : State) :
    perform cs (placed p s) = placed p (perform cs s) := rfl

theorem shifted_placed (p : Pos) (w : Word) (n : Nat) (s : State) :
    shifted w n (placed p s) = placed p (shifted w n s) := rfl

theorem turn_placed (p : Pos) (d : Dir) (s : State) : turn d (placed p s) = placed p (turn d s) := by
  cases d <;> rfl

theorem write_placed (p : Pos) (w : Word) (n : Nat) (s : State) : write w n (placed p s) = placed p (write w n s) := by
  rw [write_perform, write_perform, shifted_placed, perform_placed]

theorem read_placed (p : Pos) {n : Nat} (h : n ≤ 32) (s : State) : read n (placed p s) = placed p (read n s) := by
  rw [read_perform n s h, read_perform n _ h]; rfl

theorem readAck_placed (p : Pos) (s : State) : readAck (placed p s) = placed p (readAck s) := by
  rw [readAck_perform, readAck_perform]; rfl

theorem sendFrame_placed (p : Pos) (f : Byte) (s : State) : sendFrame f (placed p s) = placed p (sendFrame f s) := by
  rw [sendFrame_perform, sendFrame_perform, shifted_placed, perform_placed]

theorem takeLine_placed (p : Pos) (s : State) : takeLine (placed p s) = placed p (takeLine s) := by
  rw [takeLine_perform, takeLine_perform, perform_placed]

theorem sendWord_placed (p : Pos) (v : Word) (s : State) : sendWord v (placed p s) = placed p (sendWord v s) := by
  rw [sendWord_perform, sendWord_perform, shifted_placed, perform_placed]

theorem sendParity_placed (p : Pos) (v : Word) (s : State) :
    sendParity v (placed p s) = placed p (sendParity v s) := by
  rw [sendParity_perform, sendParity_perform, shifted_placed, perform_placed]

theorem store_placed (p : Pos) (a : Access) (v : Word) (s : State) :
    a.store v (placed p s) = placed p (a.store v s) := by
  unfold Access.store
  split <;> rfl

theorem spoil_placed (p : Pos) (a : Access) (s : State) : a.spoil (placed p s) = placed p (a.spoil s) := by
  cases h : a.fetching with
  | none => simp only [Access.spoil, h]
  | some i =>
    by_cases hi : i < s.latch.count
    · simp only [Access.spoil, h, if_pos hi, if_pos (show i < (placed p s).latch.count from hi)]; rfl
    · simp only [Access.spoil, h, if_neg hi, if_neg (show ¬ i < (placed p s).latch.count from hi)]; rfl

theorem plain_placed (p : Pos) (m : Micro) (s : State) : m.plain (placed p s) = placed p (m.plain s) := by
  cases m with
  | frame f => exact sendFrame_placed p f s
  | write w n => exact write_placed p w n s
  | readAck => exact readAck_placed p s
  | turn d => exact turn_placed p d s
  | clock n => simp only [Micro.plain, clock_perform]; rfl
  | _ => rfl

/-- A frame loaded into the shift register is the one that the sending loads (42 R165). -/
theorem sendFrame_loadFrame (f : Byte) (s : State) : sendFrame f (loadFrame f s) = sendFrame f s := by
  rw [sendFrame_perform, sendFrame_perform]; rfl

/-! ## An undisturbed command -/

/-- The command c runs with the program ms, and nothing comes from outside. -/
structure Running (c : Command) (ms : List Micro) (s : State) : Prop where
  busy : s.port.busy = true
  inputs : s.env.inputs = []
  command : s.running = c
  program : c.program s = ms

section
variable {c : Command} {ms : List Micro} {s t : State} {k : Nat} {a : Access}

theorem Running.congr (h : Running c ms s) (hb : t.port.busy = s.port.busy) (hi : t.env.inputs = s.env.inputs)
    (hl : t.latch = s.latch) (hp : t.running.program t = s.running.program s) : Running c ms t where
  busy := hb.trans h.busy
  inputs := hi.trans h.inputs
  command := (running_congr hl).trans h.command
  program := by
    have hc := (running_congr hl).trans h.command
    rw [hc, h.command] at hp
    exact hp.trans h.program

theorem Running.kept (h : Running c ms s) (hp : t.port = s.port) (hl : t.latch = s.latch)
    (hi : t.env.inputs = s.env.inputs) : Running c ms t :=
  h.congr (by rw [hp]) hi hl (running_program_congr hl (by rw [hp]))

theorem Running.placed (h : Running c ms s) (p : Pos) : Running c ms (placed p s) := h.kept rfl rfl rfl

theorem Running.phase {d e : Dir} (h : Running c ms s) (g : Phased d e s t) : Running c ms t :=
  h.kept g.port g.latch g.inputs

theorem Running.statement (h : Running c ms s) : s.running.program s = ms := by rw [h.command, h.program]

/-- An undisturbed command goes on by one position (60 R232). -/
theorem step_running (h : Running c ms s) : step s = engineStep s := step_busy h.busy h.inputs

/-- Going to a statement does not depend on where the sequencer stood. -/
theorem enter_placed (h : Running c ms s) (p : Pos) : enter c k (placed p s) = enter c k s := by
  have hp : c.program (Machine.placed p s) = c.program s := (h.placed p).program.trans h.program.symm
  unfold enter
  rw [hp]
  split <;> rfl

theorem store_running (h : Running c ms s) (hk : ms[k]? = some (.access a)) (v : Word) :
    Running c ms (a.store v s) := by
  obtain ⟨hs, -⟩ := store_or_spoil a v s
  exact h.congr (by rw [hs.inside.port]) hs.inside.host hs.inside.latch
    (running_program_store (h.statement.symm ▸ hk) v)

theorem settle_placed (h : Running c ms s) (hk : ms[k]? = some (.access a)) (st : Status) (v : Word) (p : Pos) :
    settle c k a st v (placed p s) = settle c k a st v s := by
  have hd : ({ placed p s with port.diagStalled := true } : State) = placed p { s with port.diagStalled := true } := rfl
  unfold settle
  simp only [hd, store_placed, spoil_placed, enter_placed (store_running h hk v)]
  rfl

theorem phaseStep_placed (h : Running c ms s) (hk : ms[k]? = some (.access a)) (ph : Phase) (p : Pos)
    (hw : ph ≠ .req) (hd : ∀ rnw, ph ≠ .decode rnw) :
    phaseStep c k a ph (placed p s) = phaseStep c k a ph s := by
  cases ph with
  | req => exact absurd rfl hw
  | decode rnw => exact absurd rfl (hd rnw)
  | trn1 => simp only [phaseStep, turn_placed]; rfl
  | ack => simp only [phaseStep, readAck_placed]; rfl
  | trn2 st =>
    simp only [phaseStep, takeLine_placed, settle_placed (h.phase (takeLine_phased .input s)) hk]
    rfl
  | wdata => simp only [phaseStep, sendWord_placed]; rfl
  | wpar =>
    simp only [phaseStep, sendParity_placed, settle_placed (h.phase (sendParity_phased .output _ s)) hk]
  | rdata => simp only [phaseStep, read_placed p (Nat.le_refl 32)]; rfl
  | rpar data => simp only [phaseStep, read_placed p (show 1 ≤ 32 by omega)]; rfl
  | trn2Check data par =>
    simp only [phaseStep, takeLine_placed, settle_placed (h.phase (takeLine_phased .input s)) hk]

/-- One phase of a transaction is one step (42 R179). -/
theorem phase_within (h : Running c ms s) (hk : ms[k]? = some (.access a)) {ph : Phase}
    (hw : wireCode (placed (.xfer k ph) s) = none) :
    Within 1 (placed (.xfer k ph) s) (phaseStep c k a ph s) := by
  have hp := h.placed (.xfer k ph)
  have hs : step (placed (.xfer k ph) s) = .next (phaseStep c k a ph (placed (.xfer k ph) s)) := by
    rw [step_running hp, engineStep_advance hw, advance_access rfl (hp.statement.symm ▸ hk), hp.command]
  rw [phaseStep_placed h hk ph _ (by rintro rfl; cases hw) (by rintro _ rfl; cases hw)] at hs
  exact .cons hs (.refl _)

/-! ## One transaction -/

theorem rnw_write {v : Word} (hv : a.value = some v) : a.rnw = false := by rw [Access.rnw, hv]; rfl

theorem rnw_read (hv : a.value = none) : a.rnw = true := by rw [Access.rnw, hv]; rfl

/-- The request, the turnaround and the ACK, and its classification (42 R165, R179). -/
theorem request_within (h : Running c ms s) (hk : ms[k]? = some (.access a)) :
    Within 4 (placed (.xfer k .req) (loadFrame (req a.reg a.rnw) s))
      (placed (afterAck (ackStatus (requestAck a.reg a.rnw s).seq.ack) (.xfer k (.decode a.rnw)))
        (requestAck a.reg a.rnw s)) := by
  have h0 : Running c ms (placed (.xfer k .req) (loadFrame (req a.reg a.rnw) s)) := h.kept rfl rfl rfl
  have h1 := h.phase (sendFrame_phased .output (req a.reg a.rnw) s)
  have h2 := h1.phase (turn_phased .output .input _)
  have h3 : Running c ms (requestAck a.reg a.rnw s) := h2.phase (readAck_phased .input _)
  have hreq : step (placed (.xfer k .req) (loadFrame (req a.reg a.rnw) s)) =
      .next (placed (.xfer k .trn1) (sendFrame (req a.reg a.rnw) s)) := by
    rw [step_running h0, engineStep_frame (.inl ⟨k, rfl⟩) rfl (req_fixedBits a.reg a.rnw), sendRequest,
      sendFrame_placed, sendFrame_loadFrame]
    rfl
  have hack : step (placed (.xfer k (.decode a.rnw)) (requestAck a.reg a.rnw s)) =
      .next (placed (afterAck (ackStatus (requestAck a.reg a.rnw s).seq.ack) (.xfer k (.decode a.rnw)))
        (requestAck a.reg a.rnw s)) := by
    rw [step_running (h3.placed _), engineStep_ack rfl]
    rfl
  have htrn : Within 1 _ (placed (.xfer k .ack) (turn .input (sendFrame (req a.reg a.rnw) s))) :=
    phase_within h1 hk (ph := .trn1) rfl
  have hread : Within 1 _ (placed (.xfer k (.decode a.rnw)) (requestAck a.reg a.rnw s)) :=
    phase_within h2 hk (ph := .ack) rfl
  exact .cons hreq (htrn.trans (hread.trans (.cons hack (.refl _))))

/-- The ACK of a write takes the line back first, whatever it says (42 R179). -/
theorem afterAck_write (st : Status) (k : Nat) : afterAck st (.xfer k (.decode false)) = .xfer k (.trn2 st) := rfl

theorem afterAck_read (st : Status) (k : Nat) :
    afterAck st (.xfer k (.decode true)) = if st = .ok then .xfer k .rdata else .xfer k (.trn2 st) := by
  cases st <;> rfl

theorem requestAck_phased (r : RegAddr) (rnw : Bool) (s : State) : Phased .output .input s (requestAck r rnw s) :=
  ((sendFrame_phased .output _ s).trans (turn_phased .output .input _)).trans (readAck_phased .input _)

/-- A write transaction, phase after phase (42 R166, R179). -/
theorem xferWrite_within (h : Running c ms s) (hk : ms[k]? = some (.access a)) {v : Word} (hv : a.value = some v) :
    Within 7 (placed (.xfer k .req) (loadFrame (req a.reg a.rnw) s))
      (settle c k a (xferWrite a.reg v s).status (xferWrite a.reg v s).value (xferWrite a.reg v s).state) := by
  have hreq := request_within h hk
  rw [rnw_write hv, afterAck_write] at hreq
  rw [rnw_write hv]
  have hr := h.phase (requestAck_phased a.reg false s)
  have htrn := phase_within hr hk (ph := .trn2 (ackStatus (requestAck a.reg false s).seq.ack)) rfl
  refine hreq.trans (n := 3) ?_
  by_cases hok : ackStatus (requestAck a.reg false s).seq.ack = .ok
  · have hl := hr.phase (takeLine_phased .input _)
    have hdata := phase_within hl hk (ph := .wdata) rfl
    have hpar := phase_within (hl.phase (sendWord_phased .output v _)) hk (ph := .wpar) rfl
    simp only [phaseStep, hv, Option.getD_some] at hdata hpar
    simp only [xferWrite, hok, if_true, phaseStep] at htrn ⊢
    exact htrn.trans (hdata.trans hpar)
  · simp only [xferWrite, hok, if_false, phaseStep] at htrn ⊢
    exact htrn.mono (by omega)

/-- The data phase of a read (42 R167): the data, the parity bit, and the check with the line taken back. -/
theorem readData_within (h : Running c ms s) (hk : ms[k]? = some (.access a)) {d : Word} {p : Bool}
    (hd : (read 32 s).seq.shift = d) (hp : (read 1 (read 32 s)).seq.shift.getLsbD 0 = p) :
    Within 3 (placed (.xfer k .rdata) s) (phaseStep c k a (.trn2Check d p) (read 1 (read 32 s))) := by
  have h32 := h.phase (read_phased .input (n := 32) (by omega) s)
  have h1 := h32.phase (read_phased .input (n := 1) (by omega) _)
  have hdata : Within 1 _ (placed (.xfer k (.rpar (read 32 s).seq.shift)) (read 32 s)) :=
    phase_within h hk (ph := .rdata) rfl
  have hpar : Within 1 _ (placed (.xfer k (.trn2Check d ((read 1 (read 32 s)).seq.shift.getLsbD 0)))
      (read 1 (read 32 s))) := phase_within h32 hk (ph := .rpar d) rfl
  rw [hd] at hdata
  rw [hp] at hpar
  exact hdata.trans (hpar.trans (phase_within h1 hk rfl))

/-- A read transaction, phase after phase (42 R167, R168, R179). -/
theorem xferRead_within (h : Running c ms s) (hk : ms[k]? = some (.access a)) (hv : a.value = none) :
    Within 7 (placed (.xfer k .req) (loadFrame (req a.reg a.rnw) s))
      (settle c k a (xferRead a.reg s).status (xferRead a.reg s).value (xferRead a.reg s).state) := by
  have hreq := request_within h hk
  rw [rnw_read hv, afterAck_read] at hreq
  rw [rnw_read hv]
  have hr := h.phase (requestAck_phased a.reg true s)
  refine hreq.trans (n := 3) ?_
  by_cases hok : ackStatus (requestAck a.reg true s).seq.ack = .ok
  · have hdata := readData_within hr hk rfl rfl
    simp only [xferRead, hok, if_true]
    split
    · next hc =>
      rw [phaseStep, if_pos hc] at hdata
      simpa only using hdata
    · next hc =>
      rw [phaseStep, if_neg hc] at hdata
      simpa only using hdata
  · have htrn := phase_within hr hk (ph := .trn2 (ackStatus (requestAck a.reg true s).seq.ack)) rfl
    simp only [xferRead, hok, if_false, phaseStep] at htrn ⊢
    exact htrn.mono (by omega)

theorem xfer_within (h : Running c ms s) (hk : ms[k]? = some (.access a)) :
    Within 7 (placed (.xfer k .req) (loadFrame (req a.reg a.rnw) s))
      (settle c k a (a.xfer s).status (a.xfer s).value (a.xfer s).state) := by
  cases hv : a.value with
  | some v => simpa only [Access.xfer, hv] using xferWrite_within h hk hv
  | none => simpa only [Access.xfer, hv] using xferRead_within h hk hv

/-- A transaction takes the idle line and gives it back, and counts no attempt. -/
theorem xfer_phased (a : Access) (s : State) : Phased .output .output s (a.xfer s).state := by
  have hr := requestAck_phased a.reg a.rnw s
  have hl := hr.trans (takeLine_phased .input _)
  cases hv : a.value with
  | some v =>
    rw [rnw_write hv] at hl
    simp only [Access.xfer, hv, xferWrite]
    split
    · exact (hl.trans (sendWord_phased .output v _)).trans (sendParity_phased .output v _)
    · exact hl
  | none =>
    rw [rnw_read hv] at hr hl
    simp only [Access.xfer, hv, xferRead]
    split
    · have hd := (hr.trans (read_phased .input (n := 32) (by omega) _)).trans
        (read_phased .input (n := 1) (by omega) _)
      split <;> exact hd.trans (takeLine_phased .input _)
    · exact hl

/-! ## An access -/

/-- Where an access that came to r leads: to the next statement, or to the end of the command (43 R190). -/
def accessEnd (c : Command) (k : Nat) (a : Access) (r : Res) : State :=
  if r.status = .ok then enter c (k + 1) (a.store r.value r.state)
  else endCommand c.valued r.status (a.spoil r.state)

theorem settle_end {st : Status} (hst : st ≠ .wait) (v : Word) (s : State) :
    settle c k a st v s = accessEnd c k a ⟨st, v, s⟩ := by
  rw [settle, if_neg hst]; rfl

/-- An attempt of an access begins. -/
def attempted (s : State) : State := { s with seq.attempt := s.seq.attempt + 1 }

/-- One attempt (42 R170): WAIT goes round again or is STALLED, anything else ends the access. -/
theorem attempt_within (h : Running c ms s) (hk : ms[k]? = some (.access a)) :
    Within 7 (beginAttempt k a s)
      (if (a.xfer (attempted s)).status = .wait then
        if s.seq.attempt + 1 < Config.waitRetryBound then beginAttempt k a (a.xfer (attempted s)).state
        else accessEnd c k a (retry a.xfer 0 (a.xfer (attempted s)).state)
      else accessEnd c k a (a.xfer (attempted s))) := by
  have hx : Within 7 (beginAttempt k a s) _ := xfer_within (h.kept (t := attempted s) rfl rfl rfl) hk
  have hatt : (a.xfer (attempted s)).state.seq.attempt = s.seq.attempt + 1 := (xfer_phased a _).attempt
  by_cases hw : (a.xfer (attempted s)).status = .wait
  · simp only [settle, hw, if_true, hatt] at hx ⊢
    exact hx
  · rw [settle_end hw] at hx
    rw [if_neg hw]
    exact hx

theorem retry_succ (xfer : State → Res) (n : Nat) (s : State) :
    retry xfer (n + 1) s =
      if (xfer (attempted s)).status = .wait then retry xfer n (xfer (attempted s)).state else xfer (attempted s) := rfl

/-- The retry loop, attempt after attempt (42 R170, R171). -/
theorem retry_within (hk : ms[k]? = some (.access a)) (n : Nat) (h : Running c ms s)
    (hn : s.seq.attempt + (n + 1) = Config.waitRetryBound) :
    Within (7 * (n + 1)) (beginAttempt k a s) (accessEnd c k a (retry a.xfer (n + 1) s)) := by
  induction n generalizing s with
  | zero =>
    have hone := attempt_within h hk
    rw [if_neg (show ¬ s.seq.attempt + 1 < Config.waitRetryBound by omega)] at hone
    rw [retry_succ]
    split at hone
    · next hw => rwa [if_pos hw]
    · next hw => rwa [if_neg hw]
  | succ n ih =>
    have hone := attempt_within h hk
    rw [if_pos (show s.seq.attempt + 1 < Config.waitRetryBound by omega)] at hone
    rw [retry_succ]
    split at hone
    · next hw =>
      have hx := xfer_phased a (attempted s)
      have hatt : (a.xfer (attempted s)).state.seq.attempt = s.seq.attempt + 1 := hx.attempt
      rw [if_pos hw]
      exact (hone.trans (ih ((h.kept (t := attempted s) rfl rfl rfl).phase hx) (by omega))).mono (by omega)
    · next hw =>
      rw [if_neg hw]
      exact hone.mono (by omega)

theorem accessRun_eq (a : Access) (s : State) :
    a.run s = retry a.xfer Config.waitRetryBound { a.begin s with seq.attempt := 0 } := by
  obtain ⟨reg, value, sink, idx, fetching⟩ := a
  cases value <;> rfl

/-- An access leaves the command running: only the diagnostic can have changed. -/
theorem accessRun_running (h : Running c ms s) (a : Access) : Running c ms (a.run s).state := by
  obtain ⟨ps, t, _, hw, _, _, _, hr⟩ := accessRun_cases a s
  have ht : Running c ms t := h.kept hw.port hw.latch hw.host
  rcases hr with ⟨_, e⟩ | ⟨_, e⟩ <;> rw [e]
  · exact ht
  · exact ht.congr rfl rfl rfl (running_program_congr rfl rfl)

/-- The steps that a statement can take. -/
def statementSteps : Nat := 7 * Config.waitRetryBound

/-- An access, from its first attempt on (42 R170). -/
theorem access_within (h : Running c ms s) (hk : ms[k]? = some (.access a)) :
    Within statementSteps (enter c k s) (accessEnd c k a (a.run s)) := by
  rw [enter_access (by rw [h.program, hk]), accessRun_eq]
  exact retry_within hk 31 (h.kept rfl rfl rfl) rfl

/-! ## A program -/

/-- A statement that is no access, a request frame included, is one step (41 R144, R146). -/
theorem plain_within {m : Micro} (h : Running c ms s) (hk : ms[k]? = some m) (ha : m.isAccess = false) :
    Within 1 (enter c k s) (enter c (k + 1) (m.plain s)) := by
  have hm : (c.program s)[k]? = some m := by rw [h.program, hk]
  obtain ⟨hin, hport⟩ := plain_inside m s
  have hnext : Running c ms (m.plain s) := h.kept hport hin.latch hin.host
  by_cases hs : m.isStmt = true
  · have hp := h.placed (.stmt k)
    have hstep : step (placed (.stmt k) s) = .next (enter c (k + 1) (m.plain s)) := by
      rw [step_running hp, engineStep_advance rfl, advance_stmt rfl (hp.statement.symm ▸ hk) hs, hp.command,
        plain_placed, enter_placed hnext]
    rw [enter_stmt hm hs]
    exact .cons hstep (.refl _)
  · cases m with
    | frame f =>
      obtain ⟨hf, m', hk', hs'⟩ := frame_followed (h.statement.symm ▸ hk)
      rw [h.statement] at hk'
      have hp : Running c ms (placed (.frame k) (loadFrame f s)) := h.kept rfl rfl rfl
      have hstep : step (placed (.frame k) (loadFrame f s)) = .next (placed (.stmt (k + 1)) (sendFrame f s)) := by
        rw [step_running hp, engineStep_frame (.inr ⟨k, rfl⟩) rfl hf, sendRequest, sendFrame_placed,
          sendFrame_loadFrame]
        rfl
      rw [enter_frame hm, enter_stmt (m := m') (by rw [hnext.program, hk']) hs']
      exact .cons hstep (.refl _)
    | access a => cases ha
    | _ => exact absurd rfl hs

/-- From a statement on, statement after statement (43 R190, 60 R228). -/
theorem enter_within (ns : List Micro) (h : Running c ms s) (hd : ms.drop k = ns) :
    Within (statementSteps * ns.length) (enter c k s)
      (endCommand c.valued (runProgram ns s).1 (runProgram ns s).2) := by
  induction ns generalizing k s with
  | nil =>
    have hk : (c.program s)[k]? = none := by
      rw [h.program]
      exact List.getElem?_eq_none_iff.2 (List.drop_eq_nil_iff.1 hd)
    rw [enter_none hk]
    exact .refl _
  | cons m ns ih =>
    have hk : ms[k]? = some m := by rw [← List.head?_drop, hd]; rfl
    have hd' : ms.drop (k + 1) = ns := by rw [← List.drop_drop, hd]; rfl
    have hlen : statementSteps * (m :: ns).length = statementSteps + statementSteps * ns.length := by
      rw [List.length_cons, Nat.mul_succ, Nat.add_comm]
    rw [hlen, runProgram_cons]
    by_cases ha : m.isAccess = true
    · cases m with
      | access a =>
        refine (access_within h hk).trans ?_
        simp only [accessEnd, Micro.run]
        by_cases hok : (a.run s).status = .ok
        · simp only [hok, if_true]
          exact ih (store_running (accessRun_running h a) hk _) hd'
        · simp only [hok, if_false]
          exact (Within.refl _).mono (Nat.zero_le _)
      | _ => cases ha
    · have ha' : m.isAccess = false := by simpa using ha
      obtain ⟨hin, hport⟩ := plain_inside m s
      rw [microRun_plain ha', if_pos rfl]
      exact ((plain_within h hk ha').mono (by decide)).trans (ih (h.kept hport hin.latch hin.host) hd')

end

/-! ## The command -/

/-- An accepted `start` and the steps after it come to the end of the command's program (10 R33, R36). -/
theorem start_within {w : Word} {i : Instr} {s : State} (h : commandSpec i = some (commandOfWord w))
    (hw : s.port.cmdw = w) (hi : s.env.inputs = []) :
    Within (statementSteps * (s.port.argCount + 12)) (enter (commandOfWord w) 0 s.latchOperands)
      (endCommand (commandOfWord w).valued
        (runProgram ((commandOfWord w).program s.latchOperands) s.latchOperands).1
        (runProgram ((commandOfWord w).program s.latchOperands) s.latchOperands).2) := by
  have hr : Running (commandOfWord w) ((commandOfWord w).program s.latchOperands) s.latchOperands :=
    ⟨rfl, hi, congrArg commandOfWord hw, rfl⟩
  exact (enter_within _ hr rfl).mono (Nat.mul_le_mul_left _ (program_length h s.latchOperands))

/-- Settles O54: after the event `start` every statement of the program, every attempt of an access and every phase of a
transaction is the part of the command's meaning that it stands for. -/
theorem steppingReachesTheMeaning : Obligations.SteppingReachesTheMeaning := by
  intro s t i hb _ hin hd ht
  have hc := commandSpec_of_decode (w := s.port.cmdw) hd
  have hstart : step { s with env.inputs := [.host .start] } = .next (startCommand (commandOfWord s.port.cmdw) s) := by
    have hs : ({ s with env.inputs := [] } : State) = s := by rw [← hin]
    show Host.Outcome.next (startCommand (commandOfWord s.port.cmdw) { s with env.inputs := [] }) = _
    rw [hs]
  have hrun : Within (statementSteps * (s.port.argCount + 12)) (startCommand (commandOfWord s.port.cmdw) s) t := by
    rw [exec_command i _ hc] at ht
    rcases runCommand_cases _ s hb with ⟨x, hx, e⟩ | ⟨hx, e⟩ <;> rw [e] at ht <;> cases ht
    · rw [startCommand_refused hb hx]
      exact (Within.refl _).mono (Nat.zero_le _)
    · rw [startCommand_accepted hb hx]
      exact start_within hc rfl hin
  obtain ⟨n, hn, hrun⟩ := hrun
  refine ⟨n, Nat.le_trans hn (Nat.mul_le_mul_right _ (by decide)), ?_⟩
  exact (core_run_succ hstart n).trans hrun

end Sys2Proof.Machine
end

section
/-! PROOFS. What a command leaves alone (10 R20, R28 to R35), from the frame of its program. It settles O41. -/

namespace Sys2Proof.Machine

open Sys2Proof.Safety

theorem code_eq_stalled (st : Status) : st.code = Status.code .stalled ↔ st = .stalled := by
  cases st <;> decide

/-- DISCONNECT names no pin (41 R150). -/
theorem disconnect_pinNames (s : State) :
    (runProgram (disconnectCommand.program s) s).2.pins.dataPin = s.pins.dataPin ∧
      (runProgram (disconnectCommand.program s) s).2.pins.clockPin = s.pins.clockPin := ⟨rfl, rfl⟩

/-- Only INIT writes the pin identifiers (10 R22, 41 R141). -/
theorem program_pinNames {i : Instr} {c : Command} (h : commandSpec i = some c) (hi : i ≠ .init) (s : State) :
    (runProgram (c.program s) s).2.pins.dataPin = s.pins.dataPin ∧
      (runProgram (c.program s) s).2.pins.clockPin = s.pins.clockPin := by
  by_cases hd : i = .disconnect
  · subst hd
    cases h
    exact disconnect_pinNames s
  · obtain ⟨-, -, -, hsame, -⟩ := runProgram_cases (c.program s) s
    have g := hsame (program_onLine i c h s hi hd)
    exact ⟨g.dataPin, g.clockPin⟩

/-- A command other than the four read commands has no value result (10 R32). -/
theorem valued_false {i : Instr} {c : Command} (h : commandSpec i = some c) (h1 : i ≠ .readIdcode)
    (h2 : i ≠ .setupMem) (h3 : i ≠ .peek) (h4 : ∀ reg, i ≠ .getReg reg) : c.valued = false := by
  rw [Bool.eq_false_iff, Ne, valued_iff i c h]
  rintro (h | h | h | ⟨reg, h⟩)
  exacts [h1 h, h2 h, h3 h, h4 reg h]

/-- Settles O41: a refused command writes its report alone; an accepted one runs its program, whose statements write
BUF and the diagnostic of the port, and reports. -/
theorem commandFrame : Obligations.CommandFrame := by
  intro i w s t he hb ht
  obtain ⟨c, hc⟩ := commandSpec_of_encode i w he
  rw [exec_command i c hc] at ht
  rcases runCommand_cases c s hb with ⟨x, -, e⟩ | ⟨-, e⟩ <;> rw [e] at ht <;> cases ht
  · refine ⟨rfl, rfl, rfl, rfl, rfl, fun _ => ⟨rfl, rfl⟩, fun _ _ => ⟨rfl, rfl, rfl, rfl⟩, fun h1 h2 h3 h4 => ?_,
      fun _ => rfl, ?_⟩
    · exact if_neg (by rw [valued_false hc h1 h2 h3 h4]; nofun)
    · have hst : (refuseCommand c.valued s).port.status ≠ Status.code .stalled :=
        mt (code_eq_stalled .refused).1 nofun
      simp only [hst, or_false]
      exact Iff.rfl
  · obtain ⟨hin, hdiag, -, hsession, hbuf⟩ := runProgram_cases (c.program s.latchOperands) s.latchOperands
    have hport := hin.port
    refine ⟨?_, ?_, ?_, ?_, hin.host, fun hi => program_pinNames hc hi _, fun hi hd => ?_, fun h1 h2 h3 h4 => ?_,
      fun hi => hbuf (program_keepsBuf i c hc _ hi), ?_⟩
    · exact (congrArg Port.cmdw hport :)
    · exact (congrArg Port.argAddr hport :)
    · exact (congrArg Port.argData hport :)
    · exact (congrArg Port.argCount hport :)
    · have g := hsession (program_onLine i c hc _ hi hd)
      exact ⟨g.bound, g.clkDir, g.pullUp, g.pullDown⟩
    · rw [endCommand_result, if_neg (by rw [valued_false hc h1 h2 h3 h4]; nofun)]
      exact (congrArg Port.result hport :)
    · rw [endCommand_status, code_eq_stalled]
      exact hdiag

end Sys2Proof.Machine
end

section
/-! PROOFS. The event `start` and the step (10 R33, R36, 42 R179): what a start latches and where it stands, that it is
ignored while BUSY, and that a step runs the decoded instruction. It settles O48, O50 and O51. -/

namespace Sys2Proof.Machine

open Sys2Proof.Safety

/-- Settles O48: the blocking call decodes x[CMDW], a running command what stands at its position. -/
theorem stepRunsTheDecodedInstruction : Obligations.StepRunsTheDecodedInstruction := by
  refine ⟨fun s i rest hin hd => ?_, fun s c i hb hin hw hd => ?_, fun s c i rest hb hin hw hd => ?_⟩
  · rw [step_host hin]
    simp only [hostMove, callCommand, hd]
  · rw [step_busy hb hin, engineStep_wire hw hd]
  · rw [step_host hin, hostMove, if_pos hb]
    exact engineStep_wire hw hd

/-- Settles O51: the event and the call look at BUSY first. -/
theorem startWhileBusyIsIgnored : Obligations.StartWhileBusyIsIgnored := by
  intro s m rest hm hin hb
  have hb' : ({ s with env.inputs := rest } : State).port.busy = true := hb
  rw [step_host hin]
  rcases hm with rfl | rfl
  · rw [hostMove, startCommand_busy _ hb']
  · rw [hostMove, callCommand_eq, runCommand_busy _ hb']

theorem wellFormed_of_decodeCommand {w : Word} {i : Instr} (h : decodeCommand w = .ok i) : wellFormed i = true := by
  unfold decodeCommand at h
  split at h
  · cases h
  · split at h <;> cases h
    assumption

/-- A decoded register operand is one of the eight (30 R88, R97). -/
theorem legalReg_of_decode {w : Word} {i : Instr} (h : decodeCommand w = .ok i) (reg : BitVec 6)
    (hi : i = .getReg reg ∨ i = .setReg reg) : legalReg reg = true := by
  have hw := wellFormed_of_decodeCommand h
  rcases hi with rfl | rfl <;> exact hw

theorem regOf_isSome {reg : BitVec 6} (h : legalReg reg = true) : ∃ r, regOf reg = some r := ⟨_, if_pos h⟩

/-! ## The first statement -/

/-- Going to a statement leaves the port, the latched operands, the pins and the observation alone. -/
theorem enter_keeps {c : Command} {k : Nat} {s : State} {m : Micro} (h : (c.program s)[k]? = some m) :
    (enter c k s).port = s.port ∧ (enter c k s).latch = s.latch ∧ (enter c k s).pins = s.pins ∧
      (enter c k s).env = s.env := by
  rw [enter, h]
  cases m <;> exact ⟨rfl, rfl, rfl, rfl⟩

theorem peekMany_first (s : State) :
    (peekManyProgram s)[0]? = some (.access ⟨Params.regTar, some s.latch.addr, .drop, some 0, some 0⟩) := by
  unfold peekManyProgram
  cases s.latch.count <;> rfl

/-- The accesses of the memory commands begin as their rules list them (43 R191, R195, R198, R202, R204). -/
theorem accessList_first {i : Instr} {c : Command} (h : commandSpec i = some c) (s : State) {r : RegAddr}
    {v : Option Word} {l : List (RegAddr × Option Word)} (hl : accessList s.port i = (r, v) :: l) :
    ∃ a, (c.program s.latchOperands)[0]? = some (.access a) ∧ a.reg = r ∧ a.value = v := by
  cases i with
  | setupMem | peek | poke | pokeMany =>
    cases h
    cases hl
    exact ⟨_, rfl, rfl, rfl⟩
  | peekMany =>
    cases h
    cases hl
    exact ⟨_, peekMany_first _, rfl, rfl⟩
  | _ => cases hl

/-- A register access command makes the access of its register (42 R172, R174). -/
theorem register_first {i : Instr} {c : Command} (h : commandSpec i = some c) (s : State) {reg : BitVec 6}
    {r : RegAddr} (hr : regOf reg = some r) :
    (i = .getReg reg → (c.program s)[0]? = some (.access (Access.read r .hold))) ∧
    (i = .setReg reg → (c.program s)[0]? = some (.access (Access.write r s.latch.data))) := by
  constructor <;> rintro rfl <;> cases h
  · simp only [getRegCommand, getRegProgram, hr]; rfl
  · simp only [setRegCommand, setRegProgram, hr]; rfl

/-- INIT, RESET, NOOP and DISCONNECT begin with a statement that is no access (41 R141, R143, R148, R150). -/
theorem link_first {i : Instr} {c : Command} (h : commandSpec i = some c) (s : State)
    (hi : i = .init ∨ i = .reset ∨ i = .noop ∨ i = .disconnect) :
    ∃ m, (c.program s)[0]? = some m ∧ m.isStmt = true := by
  rcases hi with rfl | rfl | rfl | rfl <;> cases h <;> exact ⟨_, rfl, rfl⟩

/-- SELECT_TARGET begins with its request frame (41 R146). -/
theorem selectTarget_first (s : State) : (selectTargetCommand.program s)[0]? = some (.frame 0x99#8) := by
  have : req Params.regTargetsel false = 0x99#8 := by decide
  rw [← this]; rfl

/-- A command that is not refused has a first statement. -/
theorem program_nonempty {i : Instr} {c : Command} (h : commandSpec i = some c) (s : State)
    (hD : i ≠ .reservedD) (hE : i ≠ .reservedE) (hF : i ≠ .reservedF)
    (hreg : ∀ reg, i = .getReg reg ∨ i = .setReg reg → legalReg reg = true) :
    ∃ m, (c.program s.latchOperands)[0]? = some m := by
  cases i with
  | init | reset | noop | disconnect =>
    obtain ⟨m, hm, -⟩ := link_first h s.latchOperands (by simp)
    exact ⟨m, hm⟩
  | selectTarget => cases h; exact ⟨_, selectTarget_first _⟩
  | readIdcode => cases h; exact ⟨_, rfl⟩
  | getReg reg =>
    obtain ⟨r, hr⟩ := regOf_isSome (hreg reg (.inl rfl))
    exact ⟨_, (register_first h _ hr).1 rfl⟩
  | setReg reg =>
    obtain ⟨r, hr⟩ := regOf_isSome (hreg reg (.inr rfl))
    exact ⟨_, (register_first h _ hr).2 rfl⟩
  | setupMem | peek | peekMany | poke | pokeMany =>
    obtain ⟨a, ha, -⟩ := accessList_first h s rfl
    exact ⟨_, ha⟩
  | reservedD => exact absurd rfl hD
  | reservedE => exact absurd rfl hE
  | reservedF => exact absurd rfl hF
  | _ => cases h

/-- No cause of 60 R226 refuses the command. -/
theorem refusal_none {i : Instr} {c : Command} (h : commandSpec i = some c) (s : State)
    (hD : i ≠ .reservedD) (hE : i ≠ .reservedE) (hF : i ≠ .reservedF) (hinit : i = .init ↔ s.pins.bound = false)
    (hpins : i = .init → pinOf s.port.argAddr ≠ pinOf s.port.argData)
    (hreg : ∀ reg, i = .getReg reg ∨ i = .setReg reg → legalReg reg = true)
    (hcount : i = .peekMany ∨ i = .pokeMany → s.port.argCount ≤ Config.bufDepth) :
    c.refusal s.latchOperands = none := by
  refine (refusal_none_iff c _).2 ⟨(own_none_iff i c h s).2 ⟨⟨hD, hE, hF⟩, hpins, hreg, hcount⟩, ?_⟩
  rw [← isInit_iff i c h] at hinit
  rw [latchOperands_pins]
  cases hc : c.isInit <;> cases hb : s.pins.bound <;> simp [hc, hb] at hinit ⊢

/-- The first attempt of the first access stands at its request (42 R170, R179). -/
theorem enter_access_request {c : Command} {k : Nat} {s : State} {a : Access}
    (h : (c.program s)[k]? = some (.access a)) :
    (enter c k s).seq.pos = .xfer k .req ∧ (enter c k s).seq.attempt = 1 ∧
      (enter c k s).seq.shift = frameOf a.reg a.value.isNone := by
  rw [enter_access h]
  exact ⟨rfl, rfl, rfl⟩

/-- Settles O50: an accepted start is the operands latched and the way to the first statement. -/
theorem acceptedStartLatchesTheOperands : Obligations.AcceptedStartLatchesTheOperands := by
  intro s i rest hin hb hd hD hE hF hinit hpins hcount
  have hc := commandSpec_of_decode (w := s.port.cmdw) hd
  have hreg := legalReg_of_decode (w := s.port.cmdw) hd
  obtain ⟨m, hm⟩ := program_nonempty hc { s with env.inputs := rest } hD hE hF hreg
  obtain ⟨hport, hlatch, hpin, henv⟩ := enter_keeps hm
  refine ⟨enter (commandOfWord s.port.cmdw) 0 (State.latchOperands { s with env.inputs := rest }), ?_, hport, hlatch,
    hpin, henv, fun hi => ?_, fun hi => ?_, fun r v l hfirst => ?_⟩
  · rw [step_host hin, hostMove]
    exact congrArg _ (startCommand_accepted hb (refusal_none hc _ hD hE hF hinit hpins hreg hcount))
  · obtain ⟨m, hm, hs⟩ := link_first hc _ hi
    rw [enter_stmt hm hs]
  · subst hi
    rw [enter_frame (by rw [← Option.some.inj hc]; exact selectTarget_first _)]
    exact ⟨rfl, rfl⟩
  · suffices ∃ a, ((commandOfWord s.port.cmdw).program (State.latchOperands { s with env.inputs := rest }))[0]? =
        some (.access a) ∧ a.reg = r ∧ a.value = v by
      obtain ⟨a, ha, rfl, rfl⟩ := this
      exact enter_access_request ha
    rcases hfirst with hl | ⟨rfl, rfl, rfl⟩ | ⟨reg, rfl, hr, rfl⟩ | ⟨reg, rfl, hr, rfl⟩
    · exact accessList_first hc _ hl
    · exact ⟨Access.read Params.regIdcode .hold, by rw [← Option.some.inj hc]; rfl, rfl, rfl⟩
    · exact ⟨_, (register_first hc _ hr).1 rfl, rfl, rfl⟩
    · exact ⟨_, (register_first hc _ hr).2 rfl, rfl, rfl⟩

end Sys2Proof.Machine
end

section
/-! PROOFS. The operand registers of the command port (20 R69, 10 R33): every operation of a running command has the same
effect whatever stands in them, and leaves them as they are. Said once per operation, it settles O53. -/

namespace Sys2Proof.Machine

/-- The state with other values in ARG_ADDR, ARG_DATA and ARG_COUNT (10 R29 to R31). -/
def State.withOperands (a d : Word) (n : Nat) (s : State) : State :=
  { s with port := { s.port with argAddr := a, argData := d, argCount := n } }

section

variable (a d : Word) (n : Nat) (s : State)

@[simp] theorem withOperands_seq : (s.withOperands a d n).seq = s.seq := rfl
@[simp] theorem withOperands_running : (s.withOperands a d n).running = s.running := rfl
@[simp] theorem withOperands_wireCode : wireCode (s.withOperands a d n) = wireCode s := rfl

theorem perform_withOperands (cs : List Call) :
    perform cs (s.withOperands a d n) = (perform cs s).withOperands a d n := rfl

theorem shifted_withOperands (w : Word) (len : Nat) :
    shifted w len (s.withOperands a d n) = (shifted w len s).withOperands a d n := rfl

/-! ## The fields of a transaction -/

theorem turn_withOperands (x : Dir) : turn x (s.withOperands a d n) = (turn x s).withOperands a d n := by
  rw [turn_perform, turn_perform, perform_withOperands]

theorem write_withOperands (w : Word) (len : Nat) :
    write w len (s.withOperands a d n) = (write w len s).withOperands a d n := by
  rw [write_perform, write_perform, shifted_withOperands, perform_withOperands]

theorem clock_withOperands (m : Nat) : clock m (s.withOperands a d n) = (clock m s).withOperands a d n := by
  rw [clock_perform, clock_perform, perform_withOperands]

theorem read_withOperands {len : Nat} (h : len ≤ 32) :
    read len (s.withOperands a d n) = (read len s).withOperands a d n := by
  rw [read_perform len _ h, read_perform len _ h]; rfl

theorem readAck_withOperands : readAck (s.withOperands a d n) = (readAck s).withOperands a d n := by
  rw [readAck, read_withOperands a d n s (by omega)]; rfl

theorem sendFrame_withOperands (f : Byte) :
    sendFrame f (s.withOperands a d n) = (sendFrame f s).withOperands a d n := by
  rw [sendFrame_perform, sendFrame_perform, shifted_withOperands, perform_withOperands]

theorem takeLine_withOperands : takeLine (s.withOperands a d n) = (takeLine s).withOperands a d n := by
  rw [takeLine_perform, takeLine_perform, perform_withOperands]

theorem sendWord_withOperands (v : Word) :
    sendWord v (s.withOperands a d n) = (sendWord v s).withOperands a d n := by
  rw [sendWord_perform, sendWord_perform, shifted_withOperands, perform_withOperands]

theorem sendParity_withOperands (v : Word) :
    sendParity v (s.withOperands a d n) = (sendParity v s).withOperands a d n := by
  rw [sendParity_perform, sendParity_perform, shifted_withOperands, perform_withOperands]

/-! ## Statements -/

theorem plain_withOperands (m : Micro) : m.plain (s.withOperands a d n) = (m.plain s).withOperands a d n := by
  cases m with
  | frame f => exact sendFrame_withOperands a d n s f
  | write w len => exact write_withOperands a d n s w len
  | readAck => exact readAck_withOperands a d n s
  | turn x => exact turn_withOperands a d n s x
  | clock m => exact clock_withOperands a d n s m
  | pad | gpio | setPins | bind | unbind | access => rfl

theorem store_withOperands (x : Access) (v : Word) :
    x.store v (s.withOperands a d n) = (x.store v s).withOperands a d n := by
  unfold Access.store
  cases x.sink <;> rfl

/-- What a failed access leaves in BUF depends on the latched count, not on ARG_COUNT (10 R33, 43 R199). -/
theorem spoil_withOperands (x : Access) : x.spoil (s.withOperands a d n) = (x.spoil s).withOperands a d n := by
  unfold Access.spoil
  cases x.fetching with
  | none => rfl
  | some i =>
    dsimp only
    rw [apply_ite (State.withOperands a d n)]
    rfl

theorem commandOfWord_program_withOperands (w : Word) :
    (commandOfWord w).program (s.withOperands a d n) = (commandOfWord w).program s :=
  commandOfWord_program_congr w rfl rfl

/-! ## The sequencer -/

theorem enter_withOperands (w : Word) (k : Nat) :
    enter (commandOfWord w) k (s.withOperands a d n) = (enter (commandOfWord w) k s).withOperands a d n := by
  rw [enter, enter, commandOfWord_program_withOperands]
  cases ((commandOfWord w).program s)[k]? with
  | none => rfl
  | some m => cases m <;> rfl

/-- The end of a command writes its report, and no operand register (60 R227). -/
theorem endCommand_spoil_withOperands (v : Bool) (st : Status) (x : Access) :
    endCommand v st (x.spoil (s.withOperands a d n)) = (endCommand v st (x.spoil s)).withOperands a d n := by
  rw [spoil_withOperands]; rfl

theorem settle_withOperands (w : Word) (k : Nat) (x : Access) (st : Status) (v : Word) :
    settle (commandOfWord w) k x st v (s.withOperands a d n) =
      (settle (commandOfWord w) k x st v s).withOperands a d n := by
  rw [settle, settle, withOperands_seq]
  split_ifs
  · rfl
  · exact endCommand_spoil_withOperands a d n { s with port.diagStalled := true } _ _ x
  · rw [store_withOperands, enter_withOperands]
  · exact endCommand_spoil_withOperands a d n s _ _ x

theorem phaseStep_withOperands (w : Word) (k : Nat) (x : Access) (ph : Phase) :
    phaseStep (commandOfWord w) k x ph (s.withOperands a d n) =
      (phaseStep (commandOfWord w) k x ph s).withOperands a d n := by
  cases ph with
  | req | decode => rfl
  | trn1 => rw [phaseStep, turn_withOperands]; rfl
  | ack => rw [phaseStep, readAck_withOperands]; rfl
  | trn2 st =>
    rw [phaseStep, phaseStep, takeLine_withOperands]
    split_ifs
    · rfl
    · exact settle_withOperands ..
  | wdata => rw [phaseStep, sendWord_withOperands]; rfl
  | wpar => rw [phaseStep, sendParity_withOperands, settle_withOperands]; rfl
  | rdata => rw [phaseStep, read_withOperands a d n s (by omega)]; rfl
  | rpar data => rw [phaseStep, read_withOperands a d n s (by omega)]; rfl
  | trn2Check data par =>
    rw [phaseStep, phaseStep, takeLine_withOperands]
    split_ifs <;> exact settle_withOperands ..

theorem advance_withOperands : advance (s.withOperands a d n) = (advance s).withOperands a d n := by
  rw [advance, advance, withOperands_seq, withOperands_running, State.running, commandOfWord_program_withOperands]
  cases s.seq.pos with
  | idle | frame => rfl
  | stmt k =>
    cases hm : ((commandOfWord s.latch.cmdw).program s)[k]? with
    | none => simp only [hm]; rfl
    | some m =>
      cases m with
      | access x => simp only [hm]
      | _ => simp only [hm, plain_withOperands, enter_withOperands]
  | xfer k ph =>
    cases hm : ((commandOfWord s.latch.cmdw).program s)[k]? with
    | none => simp only [hm]
    | some m =>
      cases m with
      | access x => simp only [hm, phaseStep_withOperands]
      | _ => simp only [hm]

/-! ## One position -/

theorem sendRequest_withOperands (f : Byte) {t : State} (h : sendRequest f s = .next t) :
    sendRequest f (s.withOperands a d n) = .next (t.withOperands a d n) := by
  cases h
  rw [sendRequest, sendFrame_withOperands]; rfl

theorem takeAck_withOperands (v : BitVec 3) {t : State} (h : takeAck v s = .next t) :
    takeAck v (s.withOperands a d n) = .next (t.withOperands a d n) := by
  cases h
  rfl

theorem runCommand_busy_withOperands (c : Command) {t : State} (hb : s.port.busy = true)
    (h : runCommand c s = .next t) : runCommand c (s.withOperands a d n) = .next (t.withOperands a d n) := by
  rw [runCommand_busy c hb] at h
  cases h
  exact runCommand_busy c hb

/-- While BUSY, a frame is sent, an ACK is classified, and a command is ignored (10 R33, 42 R179). -/
theorem exec_busy_withOperands (i : Instr) {t : State} (hb : s.port.busy = true) (h : exec i s = .next t) :
    exec i (s.withOperands a d n) = .next (t.withOperands a d n) := by
  cases i with
  | reqDp0W | reqDp4W | reqDp8W | reqDpCW | reqDp0R | reqDp4R | reqDp8R | reqDpCR
  | reqAp0W | reqAp4W | reqAp8W | reqApCW | reqAp0R | reqAp4R | reqAp8R | reqApCR
  | req => exact sendRequest_withOperands a d n s _ h
  | ackOk | ackWait | ackFault | ackInvalid0 | ackInvalid3 | ackInvalid5 | ackInvalid6 | ackInvalid7 =>
    exact takeAck_withOperands a d n s _ h
  | _ =>
    rw [exec_command _ _ rfl] at h ⊢
    exact runCommand_busy_withOperands a d n s _ hb h

theorem engineStep_withOperands {t : State} (hb : s.port.busy = true) (h : engineStep s = .next t) :
    engineStep (s.withOperands a d n) = .next (t.withOperands a d n) := by
  have hcode := withOperands_wireCode a d n s
  cases hw : wireCode s with
  | none =>
    rw [engineStep_advance hw] at h
    cases h
    rw [engineStep_advance (hcode.trans hw), advance_withOperands]
  | some c =>
    cases hd : decode c with
    | ok i =>
      rw [engineStep_wire hw hd] at h
      rw [engineStep_wire (hcode.trans hw) hd]
      exact exec_busy_withOperands a d n s i hb h
    | error e =>
      simp only [engineStep, hw, hd, reduceCtorEq] at h

end

/-- Settles O53: every operation of one position commutes with writing the operand registers, because the program is
made of the latched operands and BUF. -/
theorem operandWritesDoNotReachTheRunningCommand : Obligations.OperandWritesDoNotReachTheRunningCommand := by
  intro s t a d n hb h
  exact engineStep_withOperands a d n s hb h

end Sys2Proof.Machine
end

section
/-! PROOFS. The encodings (30 R81 to R84, R95 to R97): the fields of a command word and of a request frame, and the
decoder and the encoder one format at a time. It settles O1 to O5. -/

namespace Sys2Proof.Machine

/-! ## Command words -/

@[simp] theorem opField_commandWord (op : BitVec 4) (reg : BitVec 6) : opField (commandWord op reg) = op :=
  BitVec.extractLsb'_append_eq_right

@[simp] theorem regField_commandWord (op : BitVec 4) (reg : BitVec 6) : regField (commandWord op reg) = reg := by
  rw [regField, commandWord, BitVec.extractLsb'_append_eq_of_le (Nat.le_refl 4)]
  exact BitVec.extractLsb'_append_eq_right

@[simp] theorem reservedField_commandWord (op : BitVec 4) (reg : BitVec 6) :
    reservedField (commandWord op reg) = 0#22 := by
  rw [reservedField, commandWord, BitVec.extractLsb'_append_eq_of_le (by decide : 4 ≤ 10)]
  exact BitVec.extractLsb'_append_eq_left

/-- A word with no reserved bit set is made of its two fields (30 R95). -/
theorem commandWord_fields {w : Word} (h : reservedField w = 0#22) : commandWord (opField w) (regField w) = w := by
  have hreg : reservedField w ++ regField w = w.extractLsb' 4 28 :=
    BitVec.extractLsb'_append_extractLsb'_eq_extractLsb' rfl
  have hop : w.extractLsb' 4 28 ++ opField w = w.extractLsb' 0 32 :=
    BitVec.extractLsb'_append_extractLsb'_eq_extractLsb' rfl
  rw [commandWord, ← h, hreg, hop, BitVec.extractLsb'_eq_self]

/-- The word with the opcode of w and 0 for REG (log 30). -/
theorem commandWord_opField_zero (w : Word) : commandWord (opField w) 0#6 = w &&& 0xF#32 := by
  have hop : ∀ op : BitVec 4, commandWord op 0#6 = op.setWidth 32 := by decide
  rw [hop]
  refine BitVec.eq_of_toNat_eq ?_
  rw [BitVec.toNat_and, show (0xF#32).toNat = 2 ^ 4 - 1 from rfl, Nat.and_two_pow_sub_one_eq_mod]
  simp only [opField, BitVec.toNat_setWidth, BitVec.extractLsb'_toNat, Nat.shiftRight_zero]
  omega

/-- The opcode table (30 R96) read backwards. -/
theorem encode_commandOf (w : Word) :
    encode (commandOf w) =
      .cmdw (commandWord (opField w) (if opField w = 6#4 ∨ opField w = 7#4 then regField w else 0#6)) := by
  unfold commandOf
  generalize opField w = op
  generalize regField w = reg
  split
  case h_16 =>
    have hlt := op.isLt
    simp only [imp_false] at *
    obtain rfl : op = 0xF#4 := (BitVec.toNat_eq_nat.1 (by omega : op.toNat = 15)).2
    rfl
  all_goals
    next h =>
    obtain rfl := (BitVec.toNat_eq_nat.1 h).2
    rfl

/-- A decoded command word has no reserved bit set, and is a command with a legal operand (30 R96, R97). -/
theorem decodeCommand_ok_iff (w : Word) (i : Instr) :
    decodeCommand w = .ok i ↔ reservedField w = 0#22 ∧ wellFormed i = true ∧ i = commandOf w := by
  unfold decodeCommand
  split_ifs with hr hw
  · simp [hr]
  · rw [not_not] at hr
    constructor
    · rintro ⟨⟩
      exact ⟨hr, hw, rfl⟩
    · rintro ⟨-, -, rfl⟩
      rfl
  · constructor
    · nofun
    · rintro ⟨-, hw', rfl⟩
      exact absurd hw' hw

/-- A word with no reserved bit set decodes to its command, when that is well formed. -/
theorem decodeCommand_commandWord {op : BitVec 4} {reg : BitVec 6} {i : Instr} (hi : commandOf (commandWord op reg) = i)
    (hw : wellFormed i = true) : decodeCommand (commandWord op reg) = .ok i :=
  (decodeCommand_ok_iff _ _).2 ⟨reservedField_commandWord op reg, hw, hi.symm⟩

theorem commandOf_getReg (reg : BitVec 6) : commandOf (commandWord 6#4 reg) = .getReg reg := by
  simp [commandOf]

theorem commandOf_setReg (reg : BitVec 6) : commandOf (commandWord 7#4 reg) = .setReg reg := by
  simp [commandOf]

/-- A decoded command word is the encoding of its command, but for an ignored REG (30 R28, R95; log 30). -/
theorem encode_of_decodeCommand {w : Word} {i : Instr} (h : decodeCommand w = .ok i) :
    encode i = .cmdw (if opField w = 6#4 ∨ opField w = 7#4 then w else w &&& 0xF#32) := by
  obtain ⟨hr, -, rfl⟩ := (decodeCommand_ok_iff w i).1 h
  rw [encode_commandOf]
  split_ifs
  · rw [commandWord_fields hr]
  · rw [commandWord_opField_zero]

/-! ## Request frames -/

/-- The words with the fixed bits of a frame are those of the pattern `10paars1` (30 R81). -/
theorem frame_of_fixedBits {w : Byte} (h : w &&& 0xC1#8 = 0x81#8) : ∃ p a x y, w = frameWord p a x y := by
  refine ⟨w.extractLsb' 5 1, w.extractLsb' 3 2, w.extractLsb' 2 1, w.extractLsb' 1 1, ?_⟩
  revert w
  decide

/-- The fields of a frame, bit for bit (30 R81). -/
theorem frameWord_bits (p : BitVec 1) (a : BitVec 2) (x y : BitVec 1) :
    (frameWord p a x y).getLsbD 0 = true ∧ (frameWord p a x y).getLsbD 1 = y.getLsbD 0 ∧
      (frameWord p a x y).getLsbD 2 = x.getLsbD 0 ∧ (frameWord p a x y).getLsbD 3 = a.getLsbD 0 ∧
      (frameWord p a x y).getLsbD 4 = a.getLsbD 1 ∧ (frameWord p a x y).getLsbD 5 = p.getLsbD 0 ∧
      (frameWord p a x y).getLsbD 6 = false ∧ (frameWord p a x y).getLsbD 7 = true := by
  revert p a x y
  decide

theorem parity_frameVariable (a : BitVec 2) (x y : BitVec 1) :
    parity (frameVariable a x y) = ((y.getLsbD 0 ^^ x.getLsbD 0) ^^ (a.getLsbD 0 ^^ a.getLsbD 1)) := by
  revert a x y
  decide

theorem ofBool_getLsbD (b : Bool) : (BitVec.ofBool b).getLsbD 0 = b := by cases b <;> rfl

theorem selBit_getLsbD (sel : Sel) : sel.bit.getLsbD 0 = (sel == .ap) := by cases sel <;> rfl

/-- The frame that the builder makes, in its fields (42 R161). -/
theorem req_eq_frameWord (r : RegAddr) (rnw : Bool) :
    req r rnw = frameWord (BitVec.ofBool (parity (frameVariable r.a (BitVec.ofBool rnw) r.sel.bit))) r.a
      (BitVec.ofBool rnw) r.sel.bit := rfl

/-- A frame with the right parity bit is the frame of a register address and a direction (30 R82). -/
theorem frameWord_eq_req {p : BitVec 1} {a : BitVec 2} {x y : BitVec 1} (h : frameParityRight p a x y = true) :
    ∃ r rnw, frameWord p a x y = req r rnw := by
  obtain rfl := eq_of_beq h
  rcases BitVec.eq_zero_or_eq_one x with rfl | rfl <;> rcases BitVec.eq_zero_or_eq_one y with rfl | rfl
  · exact ⟨⟨.dp, a⟩, false, rfl⟩
  · exact ⟨⟨.ap, a⟩, false, rfl⟩
  · exact ⟨⟨.dp, a⟩, true, rfl⟩
  · exact ⟨⟨.ap, a⟩, true, rfl⟩

/-- The table of 30 R83: the frame of every register address and direction has a row of its own. -/
theorem decodeFrame_req (r : RegAddr) (rnw : Bool) :
    ∃ i, decodeFrame (req r rnw) = .ok i ∧ encode i = .req8 (req r rnw) ∧ wellFormed i = true ∧
      ∀ p a x y, i ≠ .req p a x y := by
  obtain ⟨sel, a⟩ := r
  have ha : a = 0#2 ∨ a = 1#2 ∨ a = 2#2 ∨ a = 3#2 := by revert a; decide
  rcases ha with rfl | rfl | rfl | rfl <;> cases sel <;> cases rnw <;> exact ⟨_, rfl, rfl, rfl, nofun⟩

/-- A frame with the wrong parity bit is none of the sixteen of 30 R83: it is the generic row's (log 16). Its four fields
are five bits, and every choice of them is tried. -/
theorem decodeFrame_generic {p : BitVec 1} {a : BitVec 2} {x y : BitVec 1} (h : frameParityRight p a x y = false) :
    decodeFrame (frameWord p a x y) = .ok (.req p a x y) := by
  revert p a x y
  decide

/-- A word with a wrong start, stop or park bit is no frame (30 R81, R94). -/
theorem decodeFrame_badFrame {w : Byte} (h : w &&& 0xC1#8 ≠ 0x81#8) : decodeFrame w = .error (.badFrame w) := by
  unfold decodeFrame
  split
  case h_17 => exact if_neg h
  all_goals
    next hw =>
    obtain rfl := (BitVec.toNat_eq_nat.1 hw).2
    exact absurd rfl h

/-- What a decoded frame is: its instruction is well formed and has the frame for its word. -/
theorem encode_of_decodeFrame {w : Byte} {i : Instr} (h : decodeFrame w = .ok i) :
    encode i = .req8 w ∧ wellFormed i = true := by
  by_cases hf : w &&& 0xC1#8 = 0x81#8
  · obtain ⟨p, a, x, y, rfl⟩ := frame_of_fixedBits hf
    cases hp : frameParityRight p a x y with
    | true =>
      obtain ⟨r, rnw, e⟩ := frameWord_eq_req hp
      rw [e] at h ⊢
      obtain ⟨j, hd, he, hw, -⟩ := decodeFrame_req r rnw
      cases h.symm.trans hd
      exact ⟨he, hw⟩
    | false =>
      cases h.symm.trans (decodeFrame_generic hp)
      exact ⟨rfl, by rw [wellFormed, hp]; rfl⟩
  · rw [decodeFrame_badFrame hf] at h
    cases h

/-! ## ACKs -/

/-- The table of 30 R84. -/
theorem encode_decodeAck (w : BitVec 3) : encode (decodeAck w) = .ack3 w ∧ wellFormed (decodeAck w) = true := by
  revert w
  decide

/-! ## The statements -/

/-- Settles O1: the words of the table decode to their rows; the operand of GET_REG and SET_REG and the four fields of
the generic frame come back. -/
theorem decodeOfEncodeIsTheInstruction : Obligations.DecodeOfEncodeIsTheInstruction := by
  intro i hw
  cases i with
  | getReg reg => exact decodeCommand_commandWord (commandOf_getReg reg) hw
  | setReg reg => exact decodeCommand_commandWord (commandOf_setReg reg) hw
  | req p a x y => exact decodeFrame_generic (by simpa [wellFormed] using hw)
  | _ => rfl

/-- Settles O2, format by format. -/
theorem encodeOfDecodeIsTheWord : Obligations.EncodeOfDecodeIsTheWord := by
  refine ⟨fun w i h => (encode_of_decodeFrame h).1, fun w i h => ?_, fun w i h => encode_of_decodeCommand h⟩
  cases h
  exact (encode_decodeAck w).1

/-- Settles O3, format by format. -/
theorem decodedInstructionsAreWellFormed : Obligations.DecodedInstructionsAreWellFormed := by
  intro c i h
  cases c with
  | cmdw w => exact wellFormed_of_decodeCommand h
  | req8 w => exact (encode_of_decodeFrame h).2
  | ack3 w =>
    cases h
    exact (encode_decodeAck w).2

/-- Settles O5: the builder puts each field, and the parity of the four, at its place, and the table has the frame. -/
theorem requestFramesHaveTheirFields : Obligations.RequestFramesHaveTheirFields := by
  intro r rnw
  obtain ⟨h0, h1, h2, h3, h4, h5, h6, h7⟩ := frameWord_bits
    (BitVec.ofBool (parity (frameVariable r.a (BitVec.ofBool rnw) r.sel.bit))) r.a (BitVec.ofBool rnw) r.sel.bit
  rw [← req_eq_frameWord] at h0 h1 h2 h3 h4 h5 h6 h7
  rw [parity_frameVariable] at h5
  rw [ofBool_getLsbD, selBit_getLsbD, ofBool_getLsbD] at h5
  rw [selBit_getLsbD] at h1
  rw [ofBool_getLsbD] at h2
  obtain ⟨i, hd, he, -, hg⟩ := decodeFrame_req r rnw
  exact ⟨h0, h1, h2, h3, h4, h5, h6, h7, i, hd, he, hg⟩

/-- Settles O4: each word is evaluated. -/
theorem tableWordsDecode : Obligations.TableWordsDecode :=
  ⟨rfl, rfl, rfl, rfl, rfl, rfl, rfl, rfl, rfl, rfl, rfl, rfl, rfl, rfl, rfl, rfl, rfl⟩

end Sys2Proof.Machine
end

section
/-! PROOFS. Words that name no command (30 R97, 60 R226): the command they start is refused whatever the state, and its
opcode field decides RESULT (log 15). It settles O49. -/

namespace Sys2Proof.Machine

open Sys2Proof.Safety

theorem runCommand_refused {c : Command} {s : State} {x : RefusalCause} (hb : s.port.busy = false)
    (h : c.refusal s.latchOperands = some x) : runCommand c s = .next (refuseCommand c.valued s) := by
  rw [runCommand, if_neg (by rw [hb]; nofun), h]

/-- Test (1) of 60 R226 comes first, so it refuses with a session and without one. -/
theorem refusedWord_refusal (v : Bool) (s : State) : (refusedWord v).refusal s = some .reservedWord := rfl

theorem commandOfWord_of_error {w : Word} {e : DecodeError} (h : decode (.cmdw w) = .error e) :
    commandOfWord w = refusedWord (valuedWord w) := by
  rw [commandOfWord, show decodeCommand w = .error e from h]

/-- The opcodes of READ_IDCODE, SETUP_MEM, GET_REG and PEEK are those of the commands with a value result (10 R32,
30 R96). -/
theorem valuedWord_iff (w : Word) : valuedWord w = true ↔ (opField w).toNat ∈ [3, 4, 6, 8] := by
  obtain ⟨c, hc⟩ := commandSpec_commandOf w
  rw [valuedWord, hc]
  refine (valued_iff _ c hc).trans ?_
  unfold commandOf
  split <;> simp_all

/-- The call and the event `start` refuse such a word alike. -/
theorem hostMove_badWord {m : HostMove} (hm : m = .run ∨ m = .start) {s : State} {e : DecodeError}
    (hb : s.port.busy = false) (h : decode (.cmdw s.port.cmdw) = .error e) :
    hostMove m s = .next (refuseCommand (valuedWord s.port.cmdw) s) := by
  have hc := commandOfWord_of_error h
  have hr := refusedWord_refusal (valuedWord s.port.cmdw) s.latchOperands
  rcases hm with rfl | rfl
  · rw [hostMove, callCommand_eq, hc, runCommand_refused hb hr]; rfl
  · rw [hostMove, hc, startCommand_refused hb hr]; rfl

/-- What a refusal leaves (60 R226): the report, with SENTINEL in RESULT when the command has a value result. -/
theorem refuseCommand_eq (v : Bool) (s : State) :
    refuseCommand v s = { s with
      port := { reported .refused s.port with result := if v then Config.sentinel else s.port.result } } := rfl

/-- Settles O49: the word's command is the refused one, and its opcode field says whether it reads. -/
theorem badCommandWordsAreRefused : Obligations.BadCommandWordsAreRefused := by
  intro s m rest e hm hin hb hd
  rw [step_host hin, hostMove_badWord (s := { s with env.inputs := rest }) hm hb hd, refuseCommand_eq]
  simp only [valuedWord_iff]
  rfl

end Sys2Proof.Machine
end

section
/-! PROOFS. Two states that agree on the pins and the environment make the same transactions (10 R36, 42 R165 to R170):
what the port, the latched operands and the sequencer hold is not looked at. With it POKE is two SET_REGs (30 R100), which
settles O39. -/

namespace Sys2Proof.Machine

/-! ## Write accesses from the same pins and environment -/

/-- The states agree on what a transaction reads and on what is observed of it. -/
structure SameOutside (s t : State) : Prop where
  pins : s.pins = t.pins
  env : s.env = t.env

/-- The two results agree, and so do the states they leave. -/
structure SameEnd (p q : Res) : Prop where
  status : p.status = q.status
  outside : SameOutside p.state q.state

theorem SameOutside.symm {s t : State} (h : SameOutside s t) : SameOutside t s := ⟨h.pins.symm, h.env.symm⟩

theorem SameOutside.trans {s t u : State} (h : SameOutside s t) (g : SameOutside t u) : SameOutside s u :=
  ⟨h.pins.trans g.pins, h.env.trans g.env⟩

section

variable {s t : State}

/-- Calls, answers taken and the bookkeeping of the sequencer. -/
theorem SameOutside.worked (h : SameOutside s t) (cs : List Call) (a b : BitVec 3) (v w : Word) (m n k : Nat) :
    SameOutside (perform cs (acked a (shifted v m (take k s)))) (perform cs (acked b (shifted w n (take k t)))) := by
  obtain ⟨hp, he⟩ := h
  constructor <;> simp only [perform, emit, acked, shifted, take, hp, he]

theorem SameOutside.attempted (h : SameOutside s t) : SameOutside (attempted s) (attempted t) := ⟨h.pins, h.env⟩

theorem xferWrite_sameEnd (r : RegAddr) (v : Word) (h : SameOutside s t) :
    SameEnd (xferWrite r v s) (xferWrite r v t) := by
  have ha : nextAck s = nextAck t := by rw [nextAck, nextAck, h.env]
  rw [xferWrite_cases, xferWrite_cases, ha, h.env]
  split <;> exact ⟨rfl, h.worked ..⟩

theorem retry_sameEnd {xfer : State → Res} (hx : ∀ {s t}, SameOutside s t → SameEnd (xfer s) (xfer t)) (n : Nat)
    (h : SameOutside s t) : SameEnd (retry xfer n s) (retry xfer n t) := by
  induction n generalizing s t with
  | zero => exact ⟨rfl, h.pins, h.env⟩
  | succ n ih =>
    have hone := hx h.attempted
    rw [retry_succ, retry_succ, hone.status]
    split
    · exact ih hone.outside
    · exact hone

theorem accessWrite_sameEnd (r : RegAddr) (v : Word) (h : SameOutside s t) :
    SameEnd (accessWrite r v s) (accessWrite r v t) :=
  retry_sameEnd (xferWrite_sameEnd r v) _ ⟨h.pins, h.env⟩

/-- A write access stores nothing, and leaves nothing in BUF when it fails. -/
theorem microRun_write (r : RegAddr) (v : Word) (s : State) :
    (Micro.access (Access.write r v)).run s = ((accessWrite r v s).status, (accessWrite r v s).state) := by
  have hrun : (Access.write r v).run s = accessWrite r v s := rfl
  rw [Micro.run, hrun]
  split
  · next hok => rw [hok]; rfl
  · rfl

theorem runProgram_write_cons (r : RegAddr) (v : Word) (ms : List Micro) (s : State) :
    runProgram (.access (Access.write r v) :: ms) s =
      if (accessWrite r v s).status = .ok then runProgram ms (accessWrite r v s).state
      else ((accessWrite r v s).status, (accessWrite r v s).state) := by
  rw [runProgram_cons, microRun_write]

theorem runProgram_write (r : RegAddr) (v : Word) (s : State) :
    runProgram [.access (Access.write r v)] s = ((accessWrite r v s).status, (accessWrite r v s).state) := by
  rw [runProgram_write_cons]
  split
  · next hok => exact Prod.ext hok.symm rfl
  · rfl

/-- A write access keeps the session (10 R21). -/
theorem accessWrite_bound (r : RegAddr) (v : Word) (s : State) :
    (accessWrite r v s).state.pins.bound = s.pins.bound := by
  obtain ⟨-, -, -, -, -, hsession, -⟩ := microRun_cases (.access (Access.write r v)) s
  rw [microRun_write] at hsession
  exact (hsession rfl).bound

/-! ## POKE and SET_REG as write accesses -/

/-- A command whose last access came to r has ended in the state u (60 R227). -/
structure EndsAs (r : Res) (u : State) : Prop where
  outside : SameOutside r.state u
  busy : u.port.busy = false
  status : u.port.status = r.status.code
  success : u.port.success = r.status.isOk

theorem EndsAs.congr {p q : Res} {u : State} (h : SameEnd p q) (g : EndsAs q u) : EndsAs p u :=
  ⟨h.outside.trans g.outside, g.busy, h.status ▸ g.status, h.status ▸ g.success⟩

/-- In a session a command that needs one, and whose own test passes, ends as its program, run from the latched operands,
says (60 R226, R227). -/
theorem exec_endsAs {i : Instr} {c : Command} (h : commandSpec i = some c) (hi : c.isInit = false)
    (hown : c.own s.latchOperands = none) (hb : s.port.busy = false) (hs : s.pins.bound = true) {r : Res}
    (hr : runProgram (c.program s.latchOperands) s.latchOperands = (r.status, r.state)) :
    ∃ t, exec i s = .next t ∧ EndsAs r t := by
  have hrefusal : c.refusal s.latchOperands = none := (refusal_none_iff c _).2 ⟨hown, by rw [hi]; exact hs⟩
  rcases runCommand_cases c s hb with ⟨x, hx, -⟩ | ⟨-, e⟩
  · rw [hrefusal] at hx; cases hx
  · rw [hr] at e
    exact ⟨_, (exec_command i c h s).trans e, ⟨rfl, rfl⟩, rfl, rfl, rfl⟩

/-- SET_REG is the write access of its register (42 R172). -/
theorem setReg_endsAs {reg : BitVec 6} {r : RegAddr} (hreg : regOf reg = some r) (hb : s.port.busy = false)
    (hs : s.pins.bound = true) :
    ∃ t, exec (.setReg reg) s = .next t ∧ EndsAs (accessWrite r s.port.argData s.latchOperands) t := by
  refine exec_endsAs (c := setRegCommand reg) rfl rfl ?_ hb hs ?_
  · simp only [setRegCommand, regTest, hreg]; rfl
  · simp only [setRegCommand, setRegProgram, hreg]
    exact runProgram_write r s.port.argData s.latchOperands

/-- POKE is the write access of the address register and, when that succeeded, of the data register (43 R202). -/
theorem poke_endsAs (hb : s.port.busy = false) (hs : s.pins.bound = true) {r : Res}
    (hr : accessWrite Params.regTar s.port.argAddr s.latchOperands = r) :
    ∃ t, exec .poke s = .next t ∧
      EndsAs (if r.status = .ok then accessWrite Params.regDrw s.port.argData r.state else r) t := by
  refine exec_endsAs (c := pokeCommand) rfl rfl rfl hb hs ?_
  show runProgram [.access (Access.write Params.regTar s.port.argAddr),
    .access (Access.write Params.regDrw s.port.argData)] s.latchOperands = _
  rw [runProgram_write_cons, runProgram_write, hr]
  split <;> rfl

end

theorem isOk_iff (st : Status) : st.isOk = true ↔ st = .ok := beq_iff_eq

/-- Settles O39: the accesses of POKE and of the two SET_REGs are the same, from the same pins and environment. -/
theorem pokeIsTwoSetRegs : Obligations.PokeIsTwoSetRegs := by
  intro s t u hb hs ht hu
  obtain ⟨r, hr⟩ : ∃ r, accessWrite Params.regTar s.port.argAddr s.latchOperands = r := ⟨_, rfl⟩
  obtain ⟨t', ht', hpoke⟩ := poke_endsAs hb hs hr
  obtain rfl := Host.Outcome.next.inj (ht'.symm.trans ht)
  obtain ⟨u', hu', hset⟩ := setReg_endsAs (s := { s with port.argData := s.port.argAddr }) (reg := 0x24#6)
    (r := Params.regTar) (by decide) hb hs
  obtain rfl := Host.Outcome.next.inj (hu'.symm.trans hu)
  have hfirst := accessWrite_sameEnd Params.regTar s.port.argAddr (s := s.latchOperands)
    (t := State.latchOperands { s with port.argData := s.port.argAddr }) ⟨rfl, rfl⟩
  rw [hr] at hfirst
  replace hset := hset.congr hfirst
  rw [hset.success]
  refine ⟨fun hfail => ?_, fun hok => ?_⟩
  · rw [if_neg (mt (isOk_iff _).2 (by rw [hfail]; nofun))] at hpoke
    exact ⟨congrArg Env.trace (hpoke.outside.symm.trans hset.outside).env, hpoke.status.trans hset.status.symm⟩
  · rw [if_pos ((isOk_iff _).1 hok)] at hpoke
    have hbound : u'.pins.bound = true := by
      rw [← hset.outside.pins, ← hr, accessWrite_bound]; exact hs
    obtain ⟨v, hv, hdata⟩ := setReg_endsAs (s := { u' with port.argData := s.port.argData }) (reg := 0x2C#6)
      (r := Params.regDrw) (by decide) hset.busy hbound
    replace hdata := hdata.congr (accessWrite_sameEnd Params.regDrw s.port.argData (s := r.state)
      (t := State.latchOperands { u' with port.argData := s.port.argData }) ⟨hset.outside.pins, hset.outside.env⟩)
    have hend := hpoke.outside.symm.trans hdata.outside
    exact ⟨v, hv, congrArg Env.trace hend.env, hpoke.status.trans hdata.status.symm, hend.pins⟩

end Sys2Proof.Machine
end

section
/-! PROOFS. The micro-operations (40 R121 to R125): each is one call of the primitive level, and a call's expansion says
its pin events, its ticks, the bits it drives and the pins it leaves. They settle O8, O9, O10 and O11. -/

namespace Sys2Proof.Machine

/-! ## One call -/

theorem perform_call_pinTrace (c : Call) (s : State) : (perform [c] s).pinTrace = s.pinTrace ++ c.expand := by
  simp [State.pinTrace]

theorem perform_call_pins (c : Call) (s : State) : (perform [c] s).pins = c.pins s.pins := replay_calls [c] s.pins

theorem perform_call_ticks (c : Call) (s : State) :
    tickCount (perform [c] s).env.trace = tickCount s.env.trace + c.tickLength := by
  rw [perform_trace, tickCount_append, tickCount_reverse, tickCount_calls, Nat.add_comm]
  rfl

/-- The bits that a call drives are read off the pin events it adds to the trace (10 R24). -/
theorem drivenBits_perform_call (c : Call) (s : State) :
    drivenBits s.pins ((perform [c] s).pinTrace.drop s.pinTrace.length) = c.driven s.pins := by
  rw [perform_call_pinTrace, List.drop_left, drivenBits_expand]

@[simp] theorem shifted_pinTrace (w : Word) (n : Nat) (s : State) : (shifted w n s).pinTrace = s.pinTrace := rfl
@[simp] theorem take_pinTrace (n : Nat) (s : State) : (take n s).pinTrace = s.pinTrace := rfl

/-! ## The events of write and read, bit by bit -/

theorem expand_write (w : Word) (n : Nat) :
    (Call.write w n).expand = ((List.range n).flatMap fun i => .dio (w.getLsbD i) :: tickEvents) ++ [.dio false] := by
  rw [Call.expand, wireOf, List.flatMap_map]

/-- A read whose value was assembled from the samples shows just these samples (40 R123). -/
theorem expand_read_assemble (bs : List Bool) (h : bs.length ≤ 32) :
    (Call.read bs.length (assemble bs)).expand = bs.flatMap fun b => .sample b :: tickEvents := by
  rw [Call.expand, wireOf_assemble bs h]

/-- `read` against a script that holds all its samples: these are assembled and used up (40 R123). -/
theorem read_script {bs rest : List Bool} {s : State} (h : bs.length ≤ 32) (hs : s.env.samples = bs ++ rest) :
    read bs.length s =
      perform [.read bs.length (assemble bs)] (shifted (assemble bs) bs.length (take bs.length s)) := by
  rw [read_perform _ s h, answers_of_script _ _ _ hs]

/-- The clock level is all that n ticks write, and with n = 0 nothing is written (40 R121). -/
theorem clock_pins_eq (n : Nat) (p : Pins) :
    { p with clk := if n = 0 then p.clk else true } = if n = 0 then p else { p with clk := true } := by
  split <;> rfl

/-! ## The statements -/

/-- Settles O8: a clock is its ticks. -/
theorem clockMakesTicks : Obligations.ClockMakesTicks := by
  intro n s
  rw [clock_perform]
  refine ⟨perform_call_pinTrace _ s, ?_, perform_call_ticks _ s, rfl, rfl, rfl, rfl, rfl⟩
  rw [perform_call_pins]
  exact clock_pins_eq n s.pins

/-- Settles O9: the bits on the wire are the word's, bit 0 first; they are driven when the line is owned. -/
theorem writeSendsLowBitsFirst : Obligations.WriteSendsLowBitsFirst := by
  intro w n s _
  rw [write_perform]
  refine ⟨?_, perform_call_pins _ _, perform_call_ticks _ _, fun hout => ?_, rfl, rfl, rfl, rfl⟩
  · rw [perform_call_pinTrace, expand_write, List.append_assoc]
    rfl
  · have hdriven : Call.driven (.write w n) s.pins = wireOf w n := if_pos hout
    exact (drivenBits_perform_call (.write w n) (shifted w n s)).trans hdriven

/-- Settles O10: the value is the one assembled from the script's samples, and the trace shows these samples. -/
theorem readAssemblesLowBitsFirst : Obligations.ReadAssemblesLowBitsFirst := by
  intro bs rest s h hs
  rw [read_script h hs]
  refine ⟨fun j => assemble_getLsbD bs j h, ?_, ?_, ?_, rfl, rfl, rfl⟩
  · rw [perform_call_pinTrace, expand_read_assemble bs h]
    rfl
  · rw [perform_samples, shifted_env, take_samples, hs, List.drop_left]
  · rw [perform_call_pins]
    refine (clock_pins_eq bs.length s.pins).trans ?_
    simp only [List.length_eq_zero_iff]

/-- Settles O11: taking the line is the last event of its turnaround, releasing it the first. -/
theorem turnaroundOrder : Obligations.TurnaroundOrder := by
  intro s
  simp only [turn_perform]
  exact ⟨perform_call_pinTrace _ s, perform_call_pinTrace _ s, fun d => ⟨perform_call_pins _ s, rfl, rfl, rfl, rfl⟩⟩

end Sys2Proof.Machine
end

section
/-! PROOFS. What the pin-level trace says of the data line: the pins are what its events wrote, at every step (40 R120),
and a command's events keep the ownership rule (40 R128). They settle O59 and O43. -/

namespace Sys2Proof.Machine

/-! ## The pins and the trace -/

theorem SameWires.symm {p q : Pins} (h : SameWires p q) : SameWires q p :=
  ⟨h.dir.symm, h.dio.symm, h.clk.symm, h.clkDir.symm⟩

/-- The pins are what the trace, replayed from the power-on pins, wrote. -/
def FollowsTrace (s : State) : Prop := SameWires s.pins (replay Pins.atReset s.pinTrace)

theorem followsTrace_iff (s : State) :
    FollowsTrace s ↔ ∀ x : Pins, x = replay Pins.atReset s.pinTrace →
      s.pins.dir = x.dir ∧ s.pins.dio = x.dio ∧ s.pins.clk = x.clk ∧ s.pins.clkDir = x.clkDir := by
  constructor
  · rintro ⟨hdir, hdio, hclk, hclkDir⟩ x rfl
    exact ⟨hdir, hdio, hclk, hclkDir⟩
  · intro h
    obtain ⟨hdir, hdio, hclk, hclkDir⟩ := h _ rfl
    exact ⟨hdir, hdio, hclk, hclkDir⟩

/-- Power-on forgets the trace and brings the pins from which the replay starts (70 R250). -/
theorem followsTrace_powerOn (s : State) : FollowsTrace (powerOn s) := SameWires.refl _

theorem FollowsTrace.recorded {s t : State} (h : FollowsTrace s) (g : Recorded s t) : FollowsTrace t := by
  obtain ⟨cs, hcs⟩ := g
  rw [FollowsTrace, hcs.pinTrace, replay_append]
  exact hcs.wires.symm.trans (h.replay _)

/-- Settles O59: a step starts the trace anew with the power-on pins, or records what it writes on the pins. -/
theorem pinsFollowTheTrace : Obligations.PinsFollowTheTrace := by
  intro s t hs h
  rw [← followsTrace_iff] at hs ⊢
  rcases step_recorded h with ⟨rest, rfl⟩ | hrec
  · exact followsTrace_powerOn _
  · exact hs.recorded hrec

/-! ## Events that keep the ownership rule -/

/-- From s to t the engine made pin events that keep the ownership rule from direction d on and leave the line in
direction e (40 R120, R128). -/
def Owned (d e : Dir) (s t : State) : Prop :=
  ∃ es, t.pinTrace = s.pinTrace ++ es ∧ ∀ fs, ownsLine d (es ++ fs) = ownsLine e fs

theorem owned_of_silent (d : Dir) {s t : State} (h : t.env.trace = s.env.trace) : Owned d d s t :=
  ⟨[], by rw [State.pinTrace, h, List.append_nil]; rfl, fun _ => rfl⟩

theorem Owned.trans {d e f : Dir} {s t u : State} (h : Owned d e s t) (g : Owned e f t u) : Owned d f s u := by
  obtain ⟨es, het, heo⟩ := h
  obtain ⟨fs, hft, hfo⟩ := g
  exact ⟨es ++ fs, by rw [hft, het, List.append_assoc], fun gs => by rw [List.append_assoc, heo, hfo]⟩

/-- With nothing after them the events keep the rule. -/
theorem Owned.keepsRule {d e : Dir} {s t : State} (h : Owned d e s t) :
    ∃ es, t.pinTrace = s.pinTrace ++ es ∧ ownsLine d es = true := by
  obtain ⟨es, het, heo⟩ := h
  refine ⟨es, het, ?_⟩
  rw [← List.append_nil es, heo]
  rfl

theorem Worked.owned {ps : List Call} {d e : Dir} {s t : State} (h : Worked ps s t)
    (ho : ∀ fs, ownsLine d (ps.flatMap Call.expand ++ fs) = ownsLine e fs) : Owned d e s t :=
  ⟨ps.flatMap Call.expand, by simp [State.pinTrace, h.trace], ho⟩

/-- A call that may be made with the line in direction d. -/
theorem owned_perform_call {c : Call} {d : Dir} (hc : c.fits d = true) (s : State) :
    Owned d (c.dirAfter d) s (perform [c] s) :=
  (Worked.perform [c] s).owned fun fs => by rw [ownsLine_calls, hc]; rfl

theorem pad_owned (d : Dir) (s : State) : Owned d d s (pad s) := by
  rw [pad_perform]
  exact owned_perform_call rfl s

theorem write_owned (w : Word) (n : Nat) (s : State) : Owned .output .output s (write w n s) := by
  rw [write_perform]
  exact owned_perform_call (c := .write w n) rfl (shifted w n s)

theorem readAck_owned (s : State) : Owned .input .input s (readAck s) := by
  rw [readAck_perform]
  exact owned_perform_call (c := .read 3 (assemble (s.env.answers 3))) rfl _

/-! ## Statements and programs that keep the rule -/

/-- A statement that may be made with the line in direction d (40 R128). -/
def Micro.fits : Micro → Dir → Bool
  | .frame _, d | .write _ _, d | .access _, d => d == .output
  | .readAck, d => d == .input
  | .gpio e, d => (Call.gpio e).fits d
  | _, _ => true

/-- The direction of the data line after a statement. -/
def Micro.dirAfter : Micro → Dir → Dir
  | .turn d, _ => d
  | .gpio e, d => (Call.gpio e).dirAfter d
  | _, d => d

/-- From direction d every statement finds the line in a direction in which it may be made. -/
def fitsLine : Dir → List Micro → Bool
  | _, [] => true
  | d, m :: ms => m.fits d && fitsLine (m.dirAfter d) ms

theorem plain_owned {m : Micro} {d : Dir} (hm : m.fits d = true) (s : State) : Owned d (m.dirAfter d) s (m.plain s) := by
  cases m with
  | pad => exact pad_owned d s
  | frame f =>
    obtain rfl : d = .output := beq_iff_eq.1 hm
    exact ((pad_owned _ s).trans (write_owned _ _ _)).trans (pad_owned _ _)
  | write w n =>
    obtain rfl : d = .output := beq_iff_eq.1 hm
    exact write_owned w n s
  | readAck =>
    obtain rfl : d = .input := beq_iff_eq.1 hm
    exact readAck_owned s
  | turn e =>
    rw [Micro.plain, turn_perform]
    exact owned_perform_call rfl s
  | clock n =>
    rw [Micro.plain, clock_perform]
    exact owned_perform_call rfl s
  | gpio e =>
    rw [Micro.plain, gpio_perform]
    exact owned_perform_call hm s
  | setPins | bind | unbind | access => exact owned_of_silent d rfl

/-- An access takes the line owned and gives it back owned, whatever the samples (42 R166, R167, R170). -/
theorem accessRun_owned (a : Access) (s : State) : Owned .output .output s (a.run s).state := by
  obtain ⟨ps, t, ht, hw, _, _, _, hr⟩ := accessRun_cases a s
  rcases hr with ⟨_, e⟩ | ⟨_, e⟩ <;> rw [e]
  · exact hw.owned ht.owns
  · exact (hw.owned ht.owns).trans (owned_of_silent _ rfl)

theorem microRun_owned {m : Micro} {d : Dir} (hm : m.fits d = true) (s : State) :
    Owned d (m.dirAfter d) s (m.run s).2 := by
  cases m with
  | access a =>
    obtain rfl : d = .output := beq_iff_eq.1 hm
    obtain ⟨hstore, hspoil⟩ := store_or_spoil a (a.run s).value (a.run s).state
    rw [Micro.run]
    split
    · exact (accessRun_owned a s).trans (owned_of_silent _ hstore.trace)
    · exact (accessRun_owned a s).trans (owned_of_silent _ hspoil.trace)
  | _ => exact plain_owned hm s

/-- A program that ends early has made the events of its first statements only, which keep the rule by themselves. -/
theorem runProgram_owned {ms : List Micro} {d : Dir} (h : fitsLine d ms = true) (s : State) :
    ∃ e, Owned d e s (runProgram ms s).2 := by
  induction ms generalizing d s with
  | nil => exact ⟨d, owned_of_silent d rfl⟩
  | cons m ms ih =>
    obtain ⟨hm, hms⟩ := Bool.and_eq_true_iff.1 h
    have hone := microRun_owned hm s
    rw [runProgram_cons]
    split
    · obtain ⟨e, hrest⟩ := ih hms (m.run s).2
      exact ⟨e, hone.trans hrest⟩
    · exact ⟨_, hone⟩

/-! ## Every command's program keeps it -/

theorem fitsLine_accesses {ms : List Micro} (h : ms.all Micro.isAccess = true) : fitsLine .output ms = true := by
  induction ms with
  | nil => rfl
  | cons m ms ih =>
    obtain ⟨hm, hms⟩ := Bool.and_eq_true_iff.1 h
    cases m with
    | access a => exact ih hms
    | _ => cases hm

/-- INIT is left out: it writes the latch before it takes the line (41 R141, 92 D23). -/
theorem program_fitsLine {i : Instr} {c : Command} (h : commandSpec i = some c) (hi : i ≠ .init) (s : State) :
    fitsLine .output (c.program s) = true := by
  cases hlink : linkOnly i with
  | false => exact fitsLine_accesses (program_accesses i c h s hlink)
  | true =>
    cases i with
    | init => exact absurd rfl hi
    | reset | selectTarget | noop | disconnect => cases h; rfl
    | _ => cases hlink

/-- Settles O43: a refused command makes no event, and an accepted one runs a program that fits the owned line. -/
theorem commandsRespectTheLine : Obligations.CommandsRespectTheLine := by
  intro i w s t hw hi hb _ ht
  obtain ⟨c, hc⟩ := commandSpec_of_encode i w hw
  rw [exec_command i c hc] at ht
  rcases runCommand_cases c s hb with ⟨x, _, e⟩ | ⟨_, e⟩ <;> rw [e] at ht <;> cases ht
  · exact (owned_of_silent .output rfl).keepsRule
  · obtain ⟨d, hprogram⟩ := runProgram_owned (program_fitsLine hc hi s.latchOperands) s.latchOperands
    exact hprogram.keepsRule

end Sys2Proof.Machine
end

section
/-! PROOFS. Session and link control (41 R140 to R150): a link command makes its statements one after the other and ends
OK; which primitive calls these are says the trace, the pins, the ticks and what a peer hears. They settle O16 to O21. -/

namespace Sys2Proof.Machine

open Sys2Proof.Safety

/-! ## A link command -/

/-- A link command has no access to fail and no value result (41 R140, 10 R32). -/
theorem link_command {i : Instr} {c : Command} (hc : commandSpec i = some c) (hi : linkOnly i = true) (s : State) :
    (c.program s).all (fun m => !m.isAccess) = true ∧ c.valued = false := by
  cases i with
  | init | reset | selectTarget | noop | disconnect => cases hc; exact ⟨rfl, rfl⟩
  | _ => cases hi

/-- A link command that is started makes its statements one after the other and ends OK (41 R140, 60 R227). -/
theorem exec_link {i : Instr} {c : Command} {s u : State} (hc : commandSpec i = some c) (hi : linkOnly i = true)
    (hb : s.port.busy = false) (hown : c.own s.latchOperands = none) (hs : s.pins.bound = !c.isInit)
    (hu : (c.program s.latchOperands).foldl (fun s m => m.plain s) s.latchOperands = u) :
    exec i s = .next (endCommand false .ok u) := by
  obtain ⟨hplain, hvalued⟩ := link_command hc hi s.latchOperands
  have hrefusal : c.refusal s.latchOperands = none := (refusal_none_iff c _).2 ⟨hown, hs⟩
  rw [exec_command i c hc]
  rcases runCommand_cases c s hb with ⟨x, hx, -⟩ | ⟨-, e⟩
  · rw [hrefusal] at hx; cases hx
  · rw [e, runProgram_plain _ hplain, hvalued, hu]

/-- A link command from s has made the calls cs and ended OK in t. What it took from the environment and left on the pins is
not said here. -/
structure LinkEnd (cs : List Call) (s t : State) : Prop where
  port : t.port = reported .ok s.port
  calls : t.callsMade = s.callsMade ++ cs
  events : t.pinTrace = s.pinTrace ++ cs.flatMap Call.expand
  host : t.env.inputs = s.env.inputs
  pos : t.seq.pos = .idle

section

variable {cs : List Call} {s t u : State}

/-- Statements that wrote nothing of the port, and what the end of the command then reports (60 R227). -/
theorem linkEnd_of (hport : u.port = s.latchOperands.port) (hcalls : u.env.calls = cs.reverse ++ s.env.calls)
    (htrace : u.env.trace = (cs.flatMap Call.expand).reverse ++ s.env.trace) (hhost : u.env.inputs = s.env.inputs) :
    LinkEnd cs s (endCommand false .ok u) where
  port := by rw [endCommand, hport]; rfl
  calls := by simp [State.callsMade, hcalls]
  events := by simp [State.pinTrace, htrace]
  host := hhost
  pos := rfl

theorem Worked.linkEnd (h : Worked cs s.latchOperands u) : LinkEnd cs s (endCommand false .ok u) :=
  linkEnd_of h.port h.calls h.trace h.host

theorem LinkEnd.newCalls (h : LinkEnd cs s t) : t.callsMade.drop s.callsMade.length = cs := by
  rw [h.calls, List.drop_left]

theorem LinkEnd.newEvents (h : LinkEnd cs s t) : t.pinTrace.drop s.pinTrace.length = cs.flatMap Call.expand := by
  rw [h.events, List.drop_left]

theorem LinkEnd.ticks (h : LinkEnd cs s t) :
    tickCount t.env.trace = tickCount s.env.trace + (cs.map Call.tickLength).sum := by
  calc tickCount t.env.trace = tickCount t.pinTrace := (tickCount_reverse _).symm
    _ = tickCount s.pinTrace + tickCount (cs.flatMap Call.expand) := by rw [h.events, tickCount_append]
    _ = tickCount s.env.trace + (cs.map Call.tickLength).sum := by
      rw [tickCount_calls, State.pinTrace, tickCount_reverse]

end

/-! ## INIT -/

/-- The pin events of INIT (41 R141), in the order of 92 D23. -/
def initEvents (d c : PinId) : List PinEvent :=
  [.pinInit c, .clk true, .clkDir .output, .pinInit d, .dio false, .pull true false, .dir .output]

/-- The pins of a new session in the idle state (10 R27), the pull-down off (92 D22). -/
def newSession (d c : PinId) : Pins := ⟨true, d, c, .output, false, true, .output, true, false⟩

/-- INIT's statements: the pins are named, the collaborator is called seven times, the session is bound. -/
theorem init_statements (s : State) :
    (initProgram s).foldl (fun s m => m.plain s) s =
      (Micro.bind).plain (perform ((initEvents s.dataPinArg s.clockPinArg).map .gpio)
        ((Micro.setPins s.dataPinArg s.clockPinArg).plain s)) := by
  simp only [initProgram, List.foldl_cons, List.foldl_nil, Micro.plain, gpio_perform, perform_perform, initEvents,
    List.map_cons, List.map_nil, List.cons_append, List.nil_append]

/-- A call of the collaborator is its own event (60 R238). -/
theorem flatMap_expand_gpio (es : List PinEvent) : (es.map Call.gpio).flatMap Call.expand = es := by
  rw [List.flatMap_map]
  exact List.flatMap_singleton' es

/-- INIT without a session, with two pins. -/
theorem exec_init {s : State} {d c : PinId} (hb : s.port.busy = false) (hs : s.pins.bound = false)
    (hd : pinOf s.port.argAddr = d) (hc : pinOf s.port.argData = c) (hp : d ≠ c) :
    ∃ t, exec .init s = .next t ∧ LinkEnd ((initEvents d c).map .gpio) s t ∧ t.pins = newSession d c ∧
      t.env.samples = s.env.samples := by
  subst hd hc
  refine ⟨_, exec_link (c := initCommand) rfl rfl hb (if_neg hp) hs (init_statements _), ?_, ?_, rfl⟩
  · exact linkEnd_of rfl rfl rfl rfl
  · rfl

/-- Settles O16: the seven calls of the collaborator are their own events; what they do not write of the pins, the names
and the session, the other two statements do. -/
theorem initBindsTheSession : Obligations.InitBindsTheSession := by
  intro s hb hs hp
  obtain ⟨t, ht, hend, hpins, hsamples⟩ := exec_init hb hs rfl rfl hp
  refine ⟨t, ht, hend.port, hpins, ?_, hsamples, hend.host, hend.pos⟩
  rw [hend.events, flatMap_expand_gpio, initEvents]

/-! ## RESET -/

/-- The calls of RESET (41 R143): line reset, dormant wake, line reset, a pad between stages. -/
def resetCalls : List Call :=
  [.write Params.lineResetW0 32, .write Params.lineResetW1 32,
   .pad,
   .write Params.wakeHigh 8,
   .write Params.alert0 32, .write Params.alert1 32, .write Params.alert2 32, .write Params.alert3 32,
   .write Params.activation 16,
   .pad,
   .write Params.lineResetW0 32, .write Params.lineResetW1 32]

theorem reset_statements (s : State) :
    (resetProgram s).foldl (fun s m => m.plain s) s = perform resetCalls (shifted Params.lineResetW1 32 s) := by
  simp only [resetProgram, List.foldl_cons, List.foldl_nil, Micro.plain, write_perform, pad_perform, perform_perform,
    shifted_perform, shifted_shifted, resetCalls, List.cons_append, List.nil_append]

/-- The calls that send bits of their own or make no tick: all that RESET makes. -/
def Call.isSending : Call → Bool
  | .write _ _ | .pad => true
  | _ => false

/-- With the line low and the clock high, a write leaves them so, and a pad writes no pin (40 R122, R126). -/
theorem pins_sending {cs : List Call} (h : cs.all Call.isSending = true) {p : Pins} (hdio : p.dio = false)
    (hclk : p.clk = true) : cs.foldl (fun p c => c.pins p) p = p := by
  induction cs with
  | nil => rfl
  | cons c cs ih =>
    obtain ⟨hc, hcs⟩ := Bool.and_eq_true_iff.1 h
    have hp : c.pins p = p := by
      cases c with
      | write w n => rw [Call.pins, ← hdio, ← hclk, ite_self]
      | pad => rfl
      | _ => cases hc
    rw [List.foldl_cons, hp, ih hcs]

/-- The first write takes the line low and the clock high, where the other calls leave them. -/
theorem reset_pins (p : Pins) :
    resetCalls.foldl (fun p c => c.pins p) p = { p with dio := false, clk := true } :=
  pins_sending (cs := resetCalls.tail) rfl rfl rfl

/-- RESET in a session. -/
theorem exec_reset {s : State} (hb : s.port.busy = false) (hs : s.pins.bound = true) :
    ∃ t, exec .reset s = .next t ∧ LinkEnd resetCalls s t ∧ t.pins = { s.pins with dio := false, clk := true } ∧
      t.env.samples = s.env.samples := by
  have hw : Worked resetCalls s.latchOperands (perform resetCalls (shifted Params.lineResetW1 32 s.latchOperands)) :=
    (Worked.shifted _ _ _).trans (Worked.perform resetCalls _)
  refine ⟨_, exec_link (c := resetCommand) rfl rfl hb rfl hs (reset_statements _), hw.linkEnd, ?_, ?_⟩
  · rw [endCommand_pins, hw.pins, reset_pins, latchOperands_pins]
  · rw [endCommand_env, perform_samples, shifted_env, latchOperands_env]

/-- Settles O17: the ten writes and the two pads are all the calls there are. -/
theorem resetEmitsTheExactList : Obligations.ResetEmitsTheExactList := by
  intro s hb hs
  obtain ⟨t, ht, hend, hpins, hsamples⟩ := exec_reset hb hs
  exact ⟨t, ht, hend.calls, hpins, hend.port, hsamples, hend.host, hend.pos⟩

/-! ## RESET on the wire -/

/-- The bits that a sending call puts on the line (40 R122, 20 R57). -/
def Call.sent : Call → List Bool
  | .write w n => wireOf w n
  | _ => []

/-- On an owned line the engine drives what its writes send, one after the other (10 R24). -/
theorem drivenBits_sending {cs : List Call} (h : cs.all Call.isSending = true) {p : Pins} (hp : p.dir = .output) :
    drivenBits p (cs.flatMap Call.expand) = cs.flatMap Call.sent := by
  induction cs generalizing p with
  | nil => rfl
  | cons c cs ih =>
    obtain ⟨hc, hcs⟩ := Bool.and_eq_true_iff.1 h
    rw [List.flatMap_cons, List.flatMap_cons, drivenBits_append, drivenBits_expand, replay_expand]
    cases c with
    | write w n =>
      have hdriven : Call.driven (.write w n) p = wireOf w n := if_pos hp
      rw [hdriven, ih hcs (p := Call.pins (.write w n) p) hp, Call.sent]
    | pad => exact ih hcs hp
    | _ => cases hc

/-- 30 R89: 56 ones, then 8 zeros. -/
theorem lineReset_bits :
    wireOf Params.lineResetW0 32 ++ wireOf Params.lineResetW1 32 =
      List.replicate 56 true ++ List.replicate 8 false := rfl

/-- 30 R90: eight ones. -/
theorem wakeHigh_bits : wireOf Params.wakeHigh 8 = List.replicate 8 true := rfl

/-- 30 R90: the four words of the Selection Alert, bit 0 first, are one 128-bit number, most significant bit first. -/
theorem alert_bits :
    wireOf Params.alert0 32 ++ wireOf Params.alert1 32 ++ wireOf Params.alert2 32 ++ wireOf Params.alert3 32 =
      (List.range 128).map (0x49CF9046A9B4A16197F5BBC745703D98#128).getMsbD := by decide +kernel

/-- 30 R90: the activation code. -/
theorem activation_bits : wireOf Params.activation 16 =
    [false, false, false, false, false, true, false, true, true, false, false, false, true, true, true, true] := rfl

theorem reset_sent :
    resetCalls.flatMap Call.sent =
      List.replicate 56 true ++ List.replicate 8 false ++ List.replicate 8 true
        ++ ((List.range 128).map (0x49CF9046A9B4A16197F5BBC745703D98#128).getMsbD)
        ++ [false, false, false, false, false, true, false, true, true, false, false, false, true, true, true, true]
        ++ List.replicate 56 true ++ List.replicate 8 false := by
  rw [List.append_assoc _ (List.replicate 56 true), ← lineReset_bits, ← wakeHigh_bits, ← alert_bits,
    ← activation_bits]
  simp only [resetCalls, List.flatMap_cons, List.flatMap_nil, Call.sent, List.nil_append, List.append_nil,
    List.append_assoc]

/-- The peer does not hear pads (00 R6). -/
theorem follow_without_pads (cs : List Call) (p : MemPeer) : p.follow (cs.filter (· ≠ .pad)) = p.follow cs := by
  induction cs generalizing p with
  | nil => rfl
  | cons c cs ih =>
    by_cases hc : c = .pad
    · subst hc
      rw [List.filter_cons_of_neg (by simp), ih]
      rfl
    · rw [List.filter_cons_of_pos (by simpa using hc), MemPeer.follow, MemPeer.follow]
      simp only [ih]

/-- RESET's words are writes, none of them a parity bit. -/
theorem wakeWords_getElem {n : Nat} (hn : n < wakeWords.length) :
    ∃ w len, wakeWords[n]? = some (.write w len) ∧ (len = 8 ∨ len = 16 ∨ len = 32) := by
  have hwrites : ∀ c ∈ wakeWords, ∃ w len, c = .write w len ∧ (len = 8 ∨ len = 16 ∨ len = 32) := by
    simp [wakeWords]
  obtain ⟨w, len, hc, hlen⟩ := hwrites _ (List.getElem_mem hn)
  exact ⟨w, len, by rw [List.getElem?_eq_getElem hn, hc], hlen⟩

/-- A write of a frame's, the activation code's or a word's length brings the peer at most a request or a data word. -/
theorem act_wakeWord (p : MemPeer) (w : Word) {len : Nat} (hlen : len = 8 ∨ len = 16 ∨ len = 32) :
    ∃ rq d, p.act (.write w len) = some { p with request := rq, data := d } := by
  rcases hlen with rfl | rfl | rfl
  · exact ⟨requestOf w, p.data, rfl⟩
  · exact ⟨p.request, p.data, rfl⟩
  · exact ⟨p.request, w, rfl⟩

/-- A peer that has heard nothing of RESET counts the words it hears (10 R39). -/
theorem follow_wakeWords {p : MemPeer} (hp : p.heard = 0) {n : Nat} (hn : n < wakeWords.length) :
    ∃ rq d, p.follow (wakeWords.take n) = some { p with heard := n, request := rq, data := d } := by
  induction n with
  | zero =>
    have hsame : { p with heard := 0, request := p.request, data := p.data } = p := by rw [← hp]
    exact ⟨p.request, p.data, by rw [hsame]; rfl⟩
  | succ n ih =>
    obtain ⟨rq, d, hfollow⟩ := ih (by omega)
    obtain ⟨w, len, hw, hlen⟩ := wakeWords_getElem (n := n) (by omega)
    obtain ⟨rq', d', hact⟩ := act_wakeWord { p with heard := n + 1, request := rq, data := d } w hlen
    refine ⟨rq', d', ?_⟩
    rw [List.take_add_one, hw, follow_next hfollow, Option.toList_some, MemPeer.follow, MemPeer.see]
    simp only [MemPeer.hear, hw, if_true, hn.ne, if_false, hact, MemPeer.follow]

/-- With the last word, all ten heard in a row, the link comes up (91 N14; log 36). -/
theorem follow_reset {p : MemPeer} (hp : p.heard = 0) :
    p.follow resetCalls = some { p.wake with heard := 0, request := none, data := Params.lineResetW1 } := by
  obtain ⟨rq, d, hfollow⟩ := follow_wakeWords hp (n := 9) (by decide)
  have hwords : resetCalls.filter (· ≠ .pad) = wakeWords.take 9 ++ [.write Params.lineResetW1 32] := rfl
  rw [← follow_without_pads, hwords, follow_next hfollow]
  rfl

/-- Settles O18: the line is owned, so the bits of the writes are on it, and the peer hears the ten words in a row. -/
theorem resetOnTheWire : Obligations.ResetOnTheWire := by
  intro s t hb hs hd ht
  obtain ⟨t', ht', hend, -⟩ := exec_reset hb hs
  obtain rfl := Host.Outcome.next.inj (ht'.symm.trans ht)
  rw [hend.newEvents, hend.newCalls]
  refine ⟨(drivenBits_sending rfl hd).trans reset_sent, hend.ticks, fun p hp => ?_⟩
  exact ⟨_, follow_reset hp, rfl, rfl, fun _ => rfl⟩

/-! ## SELECT_TARGET -/

/-- The calls of SELECT_TARGET (41 R146): a write transaction of the target-select register that goes on whatever its
ACK. -/
def selectCalls (a : BitVec 3) (v : Word) : List Call :=
  writeCalls (req Params.regTargetsel false) (a.setWidth 32) v true

theorem selectCalls_eq (a : BitVec 3) (v : Word) :
    selectCalls a v =
      endedCalls Params.regTargetsel false a ++ [.write v 32, .pad, .write (levelWord (parity v)) 1, .pad] := rfl

/-- The statements are the phases of a write transaction (42 R166). -/
theorem selectTarget_statements (s : State) :
    (selectTargetProgram s).foldl (fun s m => m.plain s) s =
      perform (selectCalls (nextAck s) s.latch.data)
        (acked (nextAck s) (shifted (levelWord (parity s.latch.data)) 1 (take 3 s))) := by
  have hphases : (selectTargetProgram s).foldl (fun s m => m.plain s) s =
      sendParity s.latch.data (sendWord s.latch.data (takeLine (requestAck Params.regTargetsel false s))) := by
    simp only [selectTargetProgram, List.foldl_cons, List.foldl_nil, Micro.plain, requestAck, takeLine, sendWord,
      sendParity]
  rw [hphases, requestAck_perform, takeLine_perform, perform_perform, sendWord_perform, sendParity_perform, assemble_ack]
  simp only [shifted_perform, perform_perform, selectCalls, writeCalls, if_true, List.append_assoc]
  rfl

/-- SELECT_TARGET in a session, the three ACK samples in the script. -/
theorem exec_selectTarget {s : State} {a : BitVec 3} {rest : List Bool} (hb : s.port.busy = false)
    (hs : s.pins.bound = true) (ha : s.env.samples = ackAnswer a ++ rest) :
    ∃ t, exec .selectTarget s = .next t ∧ LinkEnd (selectCalls a s.port.argData) s t ∧ t.pins = restored s.pins ∧
      t.env.samples = rest := by
  have hack : nextAck s.latchOperands = a := nextAck_script _ a rest ha
  have hu := selectTarget_statements s.latchOperands
  rw [hack, latchOperands_data] at hu
  have hw : Worked (selectCalls a s.port.argData) s.latchOperands (perform (selectCalls a s.port.argData)
      (acked a (shifted (levelWord (parity s.port.argData)) 1 (take 3 s.latchOperands)))) :=
    (Worked.book ..).trans (Worked.perform (selectCalls a s.port.argData) _)
  refine ⟨_, exec_link (c := selectTargetCommand) rfl rfl hb rfl hs hu, hw.linkEnd, ?_, ?_⟩
  · rw [endCommand_pins, hw.pins, selectCalls, (transacted_write ..).pins, latchOperands_pins]
  · exact (congrArg (List.drop 3) ha).trans (List.drop_left' (ackAnswer_length a))

/-- The transaction of the target-select register goes on whatever the ACK (41 R146). -/
theorem acked_targetsel {p : MemPeer} (hp : p.request = some (Params.regTargetsel, false)) (a : Word) :
    ∃ x, p.acked a = { p with target := x } := by
  have hsel : selectsTarget Params.regTargetsel false = true := rfl
  simp only [MemPeer.acked, hp, hsel, if_true]
  split
  · exact ⟨p.target, by rw [← hp]⟩
  · split
    · exact ⟨p.target, by rw [← hp]⟩
    · exact ⟨.unknown, by rw [← hp]⟩

/-- Writing the target-select register while the link is up selects the target (10 R40, 42 R177; logs 36, 41). -/
theorem written_targetsel {p : MemPeer} (hp : p.link ≠ .dormant) :
    p.written Params.regTargetsel = p.relink (.selected p.data) := by
  rw [MemPeer.written, if_neg hp]
  rfl

/-- A peer whose link is up selects the target, whatever the ACK. -/
theorem follow_select {p : MemPeer} (hp : p.link ≠ .dormant) (a : BitVec 3) (v : Word) :
    p.follow (selectCalls a v) =
      some { p.relink (.selected v) with heard := 0, request := none, data := v } := by
  obtain ⟨x, hx⟩ := acked_targetsel (p := { p with heard := 0, request := some (Params.regTargetsel, false) }) rfl
    (a.setWidth 32)
  simp only [selectCalls_eq, endedCalls, List.cons_append, List.nil_append, MemPeer.follow, see_pad, see_frame, see_turn,
    see_ack, hx, see_data]
  rw [see_parity _ v Params.regTargetsel rfl rfl, written_targetsel]
  · rfl
  · exact hp

/-- Settles O19: the calls but for the value read, and what the peer makes of them, do not depend on the ACK. -/
theorem selectTargetIgnoresTheAck : Obligations.SelectTargetIgnoresTheAck := by
  intro s a rest hb hs ha
  obtain ⟨t, ht, hend, hpins, hsamples⟩ := exec_selectTarget hb hs ha
  refine ⟨t, ht, ⟨hend.calls, hsamples, hpins, hend.host, hend.pos⟩, hend.port, hend.ticks, fun p hp => ?_⟩
  rw [hend.newCalls]
  exact ⟨_, follow_select hp a s.port.argData, rfl, rfl, fun _ => rfl⟩

/-! ## NOOP -/

/-- NOOP in a session (41 R148). -/
theorem exec_noop {s : State} (hb : s.port.busy = false) (hs : s.pins.bound = true) :
    ∃ t, exec .noop s = .next t ∧ LinkEnd [.clock Params.noopTicks] s t ∧ t.pins = { s.pins with clk := true } ∧
      t.env.samples = s.env.samples := by
  have hw := Worked.perform [.clock Params.noopTicks] s.latchOperands
  exact ⟨_, exec_link (c := noopCommand) rfl rfl hb rfl hs (clock_perform _ _), hw.linkEnd, hw.pins, rfl⟩

/-- Settles O20: the only call is a clock of eight ticks. -/
theorem noopMakesEightTicks : Obligations.NoopMakesEightTicks := by
  intro s hb hs
  obtain ⟨t, ht, hend, hpins, hsamples⟩ := exec_noop hb hs
  refine ⟨t, ht, ?_, hpins, hend.port, hsamples, hend.host, hend.pos⟩
  rw [hend.newEvents]
  rfl

/-! ## DISCONNECT -/

/-- The calls of DISCONNECT (41 R150): the data pin is released first (92 D23). -/
def disconnectCalls : List Call := [.gpio (.dir .input), .gpio (.clkDir .input)]

theorem disconnect_statements (s : State) :
    (disconnectCommand.program s).foldl (fun s m => m.plain s) s = unbind (perform disconnectCalls s) := by
  simp only [disconnectCommand, List.foldl_cons, List.foldl_nil, Micro.plain, gpio_perform, perform_perform,
    disconnectCalls, List.cons_append, List.nil_append]

/-- Settles O21: the two directions are the only events, and the end of the session makes none. -/
theorem disconnectReleasesBothPins : Obligations.DisconnectReleasesBothPins := by
  intro s hb hs
  have hend : LinkEnd disconnectCalls s (endCommand false .ok (unbind (perform disconnectCalls s.latchOperands))) :=
    linkEnd_of rfl rfl rfl rfl
  exact ⟨_, exec_link (c := disconnectCommand) rfl rfl hb rfl hs (disconnect_statements _), hend.events,
    rfl, rfl, rfl, rfl, rfl, rfl, rfl, hend.port, rfl, hend.host, hend.pos⟩

end Sys2Proof.Machine
end

section
/-! PROOFS. Parity, the ACK decoder and the read check (42 R160, R162, R164): parity is linear, so one flipped bit of a
data phase is seen and two are not. They settle O6 and O7. -/

namespace Sys2Proof.Machine

/-! ## Parity -/

/-- Parity is the number of ones modulo 2 (42 R160). -/
theorem parity_iff_length_filter {n : Nat} (v : BitVec n) :
    parity v = true ↔ ((List.range n).filter v.getLsbD).length % 2 = 1 := by
  rw [parity, popcount, List.countP_eq_length_filter, beq_iff_eq]

/-- Bit by bit, the number of ones of an exclusive or is odd when just one of the two numbers is. -/
theorem countP_xor_odd (p q : Nat → Bool) (l : List Nat) :
    (l.countP (fun i => p i ^^ q i) % 2 == 1) = ((l.countP p % 2 == 1) ^^ (l.countP q % 2 == 1)) := by
  induction l with
  | nil => rfl
  | cons i l ih =>
    have hodd : ∀ m : Nat, ((m + 1) % 2 == 1) = !(m % 2 == 1) := fun m => by
      rcases Nat.mod_two_eq_zero_or_one m with h | h <;> simp [Nat.add_mod, h]
    cases hp : p i <;> cases hq : q i <;> simp [hp, hq, hodd, ih]

/-- Parity is linear. -/
theorem parity_xor {n : Nat} (v w : BitVec n) : parity (v ^^^ w) = (parity v ^^ parity w) := by
  simp only [parity, popcount, BitVec.getLsbD_xor]
  exact countP_xor_odd _ _ _

theorem parity_oneBit {i : Nat} (hi : i < 32) : parity (1#32 <<< i) = true := by
  revert i
  decide

/-- One flipped data bit flips the parity. -/
theorem parity_flip (d : Word) {i : Nat} (hi : i < 32) : parity (d ^^^ (1#32 <<< i)) = !parity d := by
  rw [parity_xor, parity_oneBit hi, Bool.xor_true]

/-! ## The read check -/

theorem checkRead_ok_iff (d : Word) (p : Bool) : checkRead d p = .ok ↔ p = parity d := by
  rw [checkRead]
  split <;> simp [*]

theorem checkRead_protocolError_iff (d : Word) (p : Bool) : checkRead d p = .protocolError ↔ p = !parity d := by
  rw [checkRead]
  split
  · next h => simp [h]
  · next h => simpa using Bool.eq_not.2 h

/-! ## The statements -/

/-- Settles O6: a flipped bit of the data flips the parity, a flipped parity bit is compared with it. -/
theorem parityDetectsOneFlippedBit : Obligations.ParityDetectsOneFlippedBit := by
  refine ⟨fun n v _ => parity_iff_length_filter v, by decide, by decide, by decide, by decide, by decide, by decide,
    fun d p i hi h => ?_, fun d p i j hi hj _ h => ?_⟩ <;> obtain rfl := (checkRead_ok_iff d p).1 h
  · rw [checkRead_protocolError_iff, checkRead_protocolError_iff, parity_flip d hi, Bool.not_not]
    exact ⟨rfl, rfl⟩
  · rw [checkRead_ok_iff, checkRead_ok_iff, parity_flip _ hj, parity_flip d hi, Bool.not_not]
    exact ⟨rfl, rfl⟩

/-- Settles O7: the decoder is evaluated on the eight ACKs. -/
theorem ackDecoderIsTotal : Obligations.AckDecoderIsTotal := by
  unfold Obligations.AckDecoderIsTotal
  decide

end Sys2Proof.Machine
end

section
/-! PROOFS. One transaction and the retried access against a scripted peer (42 R165 to R171): the statuses, the calls
and the ticks, the pins taken back, and S.attempt. They settle O12, O13 and O14. -/

namespace Sys2Proof.Machine

open Sys2Proof.Safety

/-! ## What is observed of transactions -/

section

variable {B k : Nat} {ps : List Call} {s t : State} {r : RegAddr} {a : BitVec 3} {p : Bool} {rest : List Bool}

theorem Worked.callsMade (h : Worked ps s t) : t.callsMade = s.callsMade ++ ps := by
  simp [State.callsMade, h.calls]

theorem Worked.newEvents (h : Worked ps s t) : t.pinTrace.drop s.pinTrace.length = ps.flatMap Call.expand := by
  simp [State.pinTrace, h.trace]

theorem Worked.tickCount_eq (h : Worked ps s t) :
    tickCount t.env.trace = tickCount s.env.trace + (ps.map Call.tickLength).sum := by
  rw [h.trace, tickCount_append, tickCount_reverse, tickCount_calls, Nat.add_comm]

/-- Whole transactions take the line back, low and the clock high (42 R166, R167). -/
theorem Worked.pins_restored (h : Worked ps s t) (hps : Transacted B ps) : t.pins = restored s.pins :=
  h.pins.trans (hps.pins _)

theorem ticks_endedCalls (r : RegAddr) (rnw : Bool) (a : BitVec 3) :
    ((endedCalls r rnw a).map Call.tickLength).sum = 13 := rfl

theorem ticks_writeOkCalls (r : RegAddr) (v : Word) : ((writeOkCalls r v).map Call.tickLength).sum = 46 := rfl

theorem ticks_readCallsOf (r : RegAddr) (d : Word) (p : Bool) :
    ((readCallsOf r d p).map Call.tickLength).sum = 46 := rfl

theorem ticks_waitCalls (r : RegAddr) (rnw : Bool) (k : Nat) :
    ((waitCalls r rnw k).map Call.tickLength).sum = 13 * k := by
  induction k with
  | zero => rfl
  | succ k ih =>
    rw [waitCalls_eq, waitPadded_succ, List.map_append, List.sum_append, ← waitCalls_eq, ih]
    exact (Nat.add_comm 13 _).trans (Nat.mul_succ 13 k).symm

theorem ticks_waitCalls_append (r : RegAddr) (rnw : Bool) (k : Nat) (ps : List Call) :
    ((waitCalls r rnw k ++ ps).map Call.tickLength).sum = 13 * k + (ps.map Call.tickLength).sum := by
  rw [List.map_append, List.sum_append, ticks_waitCalls]

/-! ## Transactions -/

/-- A write transaction leaves the ACK in S.ack, and the word index alone (42 R165). -/
theorem xferWrite_ack (r : RegAddr) (v : Word) (s : State) :
    (xferWrite r v s).state.seq.ack = nextAck s ∧ (xferWrite r v s).state.seq.idx = s.seq.idx := by
  rw [xferWrite_cases]
  split <;> exact ⟨rfl, rfl⟩

theorem xferWrite_attempt (r : RegAddr) (v : Word) (s : State) :
    (xferWrite r v s).state.seq.attempt = s.seq.attempt := by
  rw [xferWrite_cases]
  split <;> rfl

theorem xferRead_attempt (r : RegAddr) (s : State) : (xferRead r s).state.seq.attempt = s.seq.attempt := by
  rw [xferRead_cases]
  dsimp only
  split
  · split <;> rfl
  · rfl

/-- A write transaction that is answered a (42 R166). -/
theorem xferWrite_answered (r : RegAddr) (v : Word) (h : s.env.samples = ackAnswer a ++ rest) :
    (xferWrite r v s).status = ackStatus a ∧
      Worked (if a = 1#3 then writeOkCalls r v else endedCalls r false a) s (xferWrite r v s).state ∧
      (xferWrite r v s).state.env.samples = rest := by
  obtain ⟨hst, -, hw⟩ := xferWrite_worked r v s
  rw [nextAck_script s a rest h] at hst hw
  exact ⟨hst, hw, by rw [xferWrite_samples, h]; exact List.drop_left' (ackAnswer_length a)⟩

/-- A read transaction that is answered with an ACK other than OK (42 R167). -/
theorem xferRead_notOk (r : RegAddr) (ha : a ≠ 1#3) (h : s.env.samples = ackAnswer a ++ rest) :
    (xferRead r s).status = ackStatus a ∧ (xferRead r s).value = Config.sentinel ∧
      Worked (endedCalls r true a) s (xferRead r s).state ∧ (xferRead r s).state.env.samples = rest := by
  obtain ⟨hst, hval, hw⟩ := xferRead_worked r s
  have hsamples := xferRead_samples r s
  rw [nextAck_script s a rest h, if_neg ha] at hst hw hsamples
  rw [hst, if_neg (mt (ackStatus_ok a).1 ha)] at hval
  exact ⟨hst, hval, hw, by rw [hsamples, h]; exact List.drop_left' (ackAnswer_length a)⟩

/-- A read transaction that is answered OK, with data and a parity bit (42 R167, R168). -/
theorem xferRead_data (r : RegAddr) {d : Word} (h : s.env.samples = readAnswer d p ++ rest) :
    (xferRead r s).status = checkRead d p ∧
      (xferRead r s).value = (if p = parity d then d else Config.sentinel) ∧
      Worked (readCallsOf r d p) s (xferRead r s).state ∧ (xferRead r s).state.env.samples = rest := by
  obtain ⟨hst, hval, hw⟩ := xferRead_worked r s
  have hsamples := xferRead_samples r s
  have hack : nextAck s = 1#3 :=
    nextAck_script s 1#3 (wireOf d 32 ++ [p] ++ rest) (by rw [h, readAnswer]; simp only [List.append_assoc])
  have hlevel : (levelWord p).getLsbD 0 = p := by cases p <;> rfl
  rw [hack, if_pos rfl, nextData_script s d p rest h, nextPar_script s d p rest h] at hw
  rw [hack, if_pos rfl, nextData_script s d p rest h, nextPar_script s d p rest h, hlevel] at hst
  rw [nextData_script s d p rest h, hst] at hval
  rw [hack, if_pos rfl] at hsamples
  simp only [checkRead_ok_iff] at hval
  exact ⟨hst, hval, hw, by rw [hsamples, h]; exact List.drop_left' (readAnswer_length d p)⟩

theorem transacted_answered (r : RegAddr) (v : Word) (a : BitVec 3) :
    Transacted 46 (if a = 1#3 then writeOkCalls r v else endedCalls r false a) := by
  split
  · exact transacted_write _ _ _
  · exact (transacted_ended _ _).mono (by omega)

/-! ## S.attempt -/

/-- After k attempts answered WAIT, fewer than the bound, the one that decides is the attempt k + 1 (log 20). -/
theorem retry_attempt {xfer : State → Res}
    (hwait : ∀ (s : State) (rest : List Bool), s.env.samples = ackAnswer 2#3 ++ rest →
      (xfer s).status = .wait ∧ Worked ps s (xfer s).state ∧ (xfer s).state.env.samples = rest)
    (hattempt : ∀ s, (xfer s).state.seq.attempt = s.seq.attempt)
    (hlast : ∀ s : State, s.env.samples = rest → (xfer s).status ≠ .wait) {n : Nat} (hk : k < n)
    (h : s.env.samples = waitAnswers k ++ rest) : (retry xfer n s).state.seq.attempt = s.seq.attempt + (k + 1) := by
  induction k generalizing n s with
  | zero =>
    obtain ⟨n, rfl⟩ : ∃ m, n = m + 1 := ⟨n - 1, by omega⟩
    rw [retry_succ, if_neg (hlast (attempted s) h), hattempt]
    rfl
  | succ k ih =>
    obtain ⟨n, rfl⟩ : ∃ m, n = m + 1 := ⟨n - 1, by omega⟩
    rw [waitAnswers_succ, List.append_assoc] at h
    obtain ⟨hst, -, hrest⟩ := hwait (attempted s) _ h
    rw [retry_succ, if_pos hst, ih (by omega) hrest, hattempt]
    show s.seq.attempt + 1 + (k + 1) = _
    omega

theorem accessWrite_attempt (r : RegAddr) (v : Word) (hk : k < Config.waitRetryBound) (ha : a ≠ 2#3)
    (h : s.env.samples = waitAnswers k ++ ackAnswer a ++ rest) : (accessWrite r v s).state.seq.attempt = k + 1 := by
  rw [List.append_assoc] at h
  have hlast : ∀ s : State, s.env.samples = ackAnswer a ++ rest → (xferWrite r v s).status ≠ .wait := by
    intro s hs
    obtain ⟨hst, -⟩ := xferWrite_answered r v hs
    rw [hst]
    exact mt (ackStatus_wait a).1 ha
  rw [accessWrite,
    retry_attempt (s := { s with seq.attempt := 0 }) (xferWrite_wait r v) (xferWrite_attempt r v) hlast hk h]
  exact Nat.zero_add _

/-- Likewise for a read, whatever it is answered at last but WAIT. -/
theorem accessRead_attempt (r : RegAddr) (hk : k < Config.waitRetryBound)
    (hlast : ∀ s : State, s.env.samples = rest → (xferRead r s).status ≠ .wait)
    (h : s.env.samples = waitAnswers k ++ rest) : (accessRead r s).state.seq.attempt = k + 1 := by
  rw [accessRead,
    retry_attempt (s := { s with seq.attempt := 0 }) (xferRead_wait r) (xferRead_attempt r) hlast hk h]
  exact Nat.zero_add _

end

/-! ## Accesses that stall -/

/-- An access of which every attempt is answered WAIT (42 R171). -/
theorem retry_stalled {xfer : State → Res} {r : RegAddr} {rnw : Bool}
    (hx : ∀ (s : State) (rest : List Bool), s.env.samples = ackAnswer 2#3 ++ rest →
      (xfer s).status = .wait ∧ Worked (endedCalls r rnw 2#3) s (xfer s).state ∧ (xfer s).state.env.samples = rest)
    {s : State} {rest : List Bool} (h : s.env.samples = waitAnswers Config.waitRetryBound ++ rest) {res : Res}
    (hres : retry xfer Config.waitRetryBound { s with seq.attempt := 0 } = res) :
    res.status = .stalled ∧ res.value = Config.sentinel ∧
      res.state.callsMade = s.callsMade ++ waitCalls r rnw Config.waitRetryBound ∧
      tickCount res.state.env.trace = tickCount s.env.trace + 13 * Config.waitRetryBound ∧
      res.state.port = { s.port with diagStalled := true } ∧ res.state.env.samples = rest := by
  obtain ⟨t, hw, hsamples, he⟩ := access_script_stalled xfer _ hx { s with seq.attempt := 0 } rest h
  obtain rfl := he.symm.trans hres
  refine ⟨rfl, rfl, hw.callsMade, ?_, by rw [hw.port], hsamples⟩
  rw [← ticks_waitCalls r rnw]
  exact hw.tickCount_eq

/-- WAIT never leaves an access (42 R170): an access of a list is one, whatever becomes of its value. -/
theorem access_status_ne_wait (r : RegAddr) (v : Word) (s : State) :
    (accessWrite r v s).status ≠ .wait ∧ (accessRead r s).status ≠ .wait := by
  obtain ⟨_, _, _, _, hwrite, _⟩ := accessRun_cases (Access.write r v) s
  obtain ⟨_, _, _, _, hread, _⟩ := accessRun_cases (Access.read r .drop) s
  exact ⟨hwrite, hread⟩

/-! ## The statements -/

/-- Settles O12: the ACK is the script's, and it decides which calls are made. -/
theorem writeTransaction : Obligations.WriteTransaction := by
  intro r v a rest s h
  obtain ⟨hst, hw, hsamples⟩ := xferWrite_answered r v h
  obtain ⟨hack, hidx⟩ := xferWrite_ack r v s
  refine ⟨hst, hw.callsMade, ?_, hw.pins_restored (transacted_answered r v a), hack.trans (nextAck_script s a rest h),
    hsamples, hw.port, hw.latch, hw.host, hw.pos, xferWrite_attempt r v s, hidx, hw.held⟩
  rw [hw.tickCount_eq]
  split
  · rw [ticks_writeOkCalls]
  · rw [ticks_endedCalls]

/-- Settles O13: the ACK, the data and the parity bit are the script's. -/
theorem readTransaction : Obligations.ReadTransaction := by
  refine ⟨fun r d p rest s h => ?_, fun r a rest s ha h => ?_⟩
  · obtain ⟨hst, hval, hw, hsamples⟩ := xferRead_data r h
    exact ⟨hst, hval, hw.callsMade, hw.tickCount_eq, hw.pins_restored (transacted_read _ _ _ _), hsamples, hw.port,
      hw.latch⟩
  · obtain ⟨hst, hval, hw, hsamples⟩ := xferRead_notOk r ha h
    exact ⟨hst, hval, hw.callsMade, hw.tickCount_eq, hw.pins_restored (transacted_ended _ _), hsamples, hw.port,
      hw.latch⟩

/-- Settles O14: the attempts answered WAIT, then the one that decides, or STALLED. -/
theorem retriedAccess : Obligations.RetriedAccess := by
  refine ⟨fun r v s k a rest hk ha h => ?_, fun r s k a rest hk ha ho h => ?_, fun r s k d p rest hk h => ?_,
    fun r v s rest h => ?_, access_status_ne_wait⟩
  · have hattempt := accessWrite_attempt r v hk ha h
    obtain ⟨t, hw, hsamples, he⟩ := accessWrite_script r v s k a rest hk ha h
    rw [he] at hattempt ⊢
    exact ⟨rfl, by rw [List.append_assoc]; exact hw.callsMade, hattempt, hw.port, hsamples⟩
  · have hlast : ∀ s : State, s.env.samples = ackAnswer a ++ rest → (xferRead r s).status ≠ .wait := by
      intro s hs
      obtain ⟨hst, -⟩ := xferRead_notOk r ho hs
      rw [hst]
      exact mt (ackStatus_wait a).1 ha
    have hattempt := accessRead_attempt r hk hlast (by rw [h, List.append_assoc])
    obtain ⟨t, hw, hsamples, he⟩ := accessRead_script_bad r s k a rest hk ha ho h
    rw [he] at hattempt ⊢
    exact ⟨rfl, rfl, by rw [List.append_assoc]; exact hw.callsMade, hattempt, hw.port, hsamples⟩
  · have hlast : ∀ s : State, s.env.samples = readAnswer d p ++ rest → (xferRead r s).status ≠ .wait := by
      intro s hs
      obtain ⟨hst, -⟩ := xferRead_data r hs
      rw [hst]
      rcases checkRead_cases d p with e | e <;> rw [e] <;> nofun
    have hattempt := accessRead_attempt r hk hlast (by rw [h, List.append_assoc])
    obtain ⟨t, hw, hsamples, he⟩ := accessRead_script r s k d p rest hk h
    rw [he] at hattempt ⊢
    exact ⟨rfl, by simp only [checkRead_ok_iff]; rfl, by rw [List.append_assoc]; exact hw.callsMade, hattempt, hw.port,
      hsamples⟩
  · obtain ⟨hst, -, hwrite⟩ := retry_stalled (xferWrite_wait r v) h rfl
    exact ⟨⟨hst, hwrite⟩, retry_stalled (xferRead_wait r) h rfl⟩

end Sys2Proof.Machine
end

section
/-! PROOFS. GET_REG, SET_REG and READ_IDCODE (42 R170 to R178): each is one access, which is answered OK after some
WAITs or fails in one of the ways of 60 R221. They settle O22 to O27 and O29. -/

namespace Sys2Proof.Machine

open Sys2Proof.Safety

/-! ## The calls of an access -/

theorem transacted_waitsOnly (f : Byte) (k : Nat) : Transacted (13 * (k + 1)) (waitPadded f (k + 1)) := by
  have hlast : waitPadded f (k + 1) = waitPadded f k ++ endedPadded f 2#3 := by
    rw [waitPadded, List.replicate_succ', List.flatten_append, List.flatten_singleton, waitPadded]
  rw [hlast]
  exact transacted_waits f k (transacted_ended f 2#3)

/-- An access that is answered OK takes the line and gives it back (42 R166, R167). -/
theorem transacted_exchange (e : Exchange) : Transacted e.ticks e.calls := by
  obtain ⟨r, value, k, d⟩ := e
  cases value with
  | some v => exact transacted_waits _ k (transacted_write _ _ _)
  | none => exact transacted_waits _ k (transacted_read _ _ _ _)

theorem ticks_exchange (e : Exchange) : (e.calls.map Call.tickLength).sum = e.ticks := by
  obtain ⟨r, value, k, d⟩ := e
  cases value with
  | some v => exact ticks_waitCalls_append r false k (writeOkCalls r v)
  | none => exact ticks_waitCalls_append r true k (readOkCalls r d)

/-- So does one that fails. -/
theorem transacted_failure (f : Failure) (r : RegAddr) (value : Option Word) :
    Transacted f.ticks (f.calls r value) := by
  cases f with
  | stalled => exact transacted_waitsOnly _ 31
  | badAck k a => exact transacted_waits _ k (transacted_ended _ a)
  | badParity k d => exact transacted_waits _ k (transacted_read _ _ _ _)

theorem ticks_failure (f : Failure) (r : RegAddr) (value : Option Word) :
    ((f.calls r value).map Call.tickLength).sum = f.ticks := by
  cases f with
  | stalled => exact ticks_waitCalls r value.isNone Config.waitRetryBound
  | badAck k a => exact ticks_waitCalls_append r value.isNone k (endedCalls r value.isNone a)
  | badParity k d => exact ticks_waitCalls_append r true k (readCallsOf r d (!parity d))

/-! ## A command of one access -/

/-- The one access of GET_REG and READ_IDCODE (no value) and of SET_REG (42 R172, R174). -/
def registerAccess (r : RegAddr) (value : Option Word) : Access :=
  ⟨r, value, if value.isNone then .hold else .drop, none, none⟩

/-- The state that the command of a register access ends in, when it is started in s (60 R227). -/
def registerEnd (r : RegAddr) (value : Option Word) (s : State) : State :=
  let e := (Micro.access (registerAccess r value)).run s.latchOperands
  endCommand value.isNone e.1 e.2

theorem runProgram_singleton (m : Micro) (s : State) : runProgram [m] s = m.run s := by
  rw [runProgram_cons]
  split
  · next h => exact Prod.ext h.symm rfl
  · rfl

section

variable {s t u : State} {reg : BitVec 6} {r : RegAddr} {value : Option Word} {rest : List Bool}

/-- A command of one register access is started in a session when its own test passes (60 R226). -/
theorem exec_register {i : Instr} {c : Command} (h : commandSpec i = some c) (hi : c.isInit = false)
    (hb : s.port.busy = false) (hs : s.pins.bound = true) (hown : c.own s.latchOperands = none)
    (hv : c.valued = value.isNone) (hp : c.program s.latchOperands = [.access (registerAccess r value)]) :
    exec i s = .next (registerEnd r value s) := by
  have hrefusal : c.refusal s.latchOperands = none := (refusal_none_iff c _).2 ⟨hown, by rw [hi]; exact hs⟩
  rw [exec_command i c h]
  rcases runCommand_cases c s hb with ⟨x, hx, -⟩ | ⟨-, e⟩
  · rw [hrefusal] at hx; cases hx
  · rw [e, hp, hv, runProgram_singleton]; rfl

theorem regTest_none (hreg : regOf reg = some r) : regTest reg = none := by rw [regTest, hreg]; rfl

theorem exec_getReg (hreg : regOf reg = some r) (hb : s.port.busy = false) (hs : s.pins.bound = true) :
    exec (.getReg reg) s = .next (registerEnd r none s) :=
  exec_register (c := getRegCommand reg) rfl rfl hb hs (regTest_none hreg) rfl
    (by simp only [getRegCommand, getRegProgram, hreg]; rfl)

theorem exec_setReg (hreg : regOf reg = some r) (hb : s.port.busy = false) (hs : s.pins.bound = true) :
    exec (.setReg reg) s = .next (registerEnd r (some s.port.argData) s) :=
  exec_register (c := setRegCommand reg) rfl rfl hb hs (regTest_none hreg) rfl
    (by simp only [setRegCommand, setRegProgram, hreg]; rfl)

/-- READ_IDCODE is the command of GET_REG with the register of its role (42 R176; log 6). -/
theorem readIdcodeCommand_eq : readIdcodeCommand = getRegCommand 0x00#6 := rfl

theorem exec_readIdcode_eq (s : State) : exec .readIdcode s = exec (.getReg 0x00#6) s := by
  rw [exec_command .readIdcode readIdcodeCommand rfl, exec_command (.getReg 0x00#6) _ rfl, readIdcodeCommand_eq]

/-- The value of a read is held, a write has none (42 R172, R174). -/
theorem store_registerAccess (r : RegAddr) (value : Option Word) (d : Word) (s : State) :
    (registerAccess r value).store d s = { s with seq.held := if value.isNone then d else s.seq.held } := by
  cases value <;> rfl

/-- What is seen of a command that made whole transactions from the latched state on and then ended, in u; what it did
to the port and the sequencer is not looked at. -/
theorem Worked.made {B n : Nat} {ps : List Call} (h : Worked ps s.latchOperands t) (hps : Transacted B ps)
    (hn : (ps.map Call.tickLength).sum = n) (hrest : t.env.samples = rest) (hpins : u.pins = t.pins)
    (henv : u.env = t.env) (hpos : u.seq.pos = .idle) :
    Made s u ps rest ∧ tickCount u.env.trace = tickCount s.env.trace + n := by
  rw [henv]
  refine ⟨⟨?_, by rw [henv, hrest], hpins.trans (h.pins_restored hps), ?_, hpos⟩, hn ▸ h.tickCount_eq⟩
  · rw [State.callsMade, henv]
    exact h.callsMade
  · rw [henv]
    exact h.host

/-- A register access answered OK after fewer WAITs than the bound (42 R170 to R174): the data of a read is the
command's value. -/
theorem registerEnd_ok {k : Nat} (hk : k < Config.waitRetryBound) (d : Word)
    (hs : s.env.samples = Exchange.answers ⟨r, value, k, d⟩ ++ rest) :
    Made s (registerEnd r value s) (Exchange.calls ⟨r, value, k, d⟩) rest ∧
      (registerEnd r value s).port =
        { reported .ok s.port with result := if value.isNone then d else s.port.result } ∧
      tickCount (registerEnd r value s).env.trace = tickCount s.env.trace + (13 * k + 46) := by
  obtain ⟨t, hw, hrest, hrun⟩ := access_ok (registerAccess r value) ⟨r, value, k, d⟩ s.latchOperands rest rfl hk hs
  rw [store_registerAccess] at hrun
  rw [registerEnd, hrun]
  refine and_left_comm.1 ⟨?_, hw.made (transacted_exchange _) (ticks_exchange _) hrest rfl rfl rfl⟩
  simp only [endCommand, hw.port]
  cases value <;> rfl

/-- A register access that fails (42 R169 to R171, 60 R221): a read gives SENTINEL. -/
theorem registerEnd_fails (f : Failure) (hf : f.possible value) (hs : s.env.samples = f.answers ++ rest) :
    Made s (registerEnd r value s) (f.calls r value) rest ∧
      (registerEnd r value s).port =
        { reported f.status s.port with
          result := if value.isNone then Config.sentinel else s.port.result
          diagStalled := s.port.diagStalled || f == .stalled } ∧
      tickCount (registerEnd r value s).env.trace = tickCount s.env.trace + f.ticks := by
  obtain ⟨t, hw, hrest, hne, hrun⟩ := access_fails (registerAccess r value) f s.latchOperands rest hf hs
  have hspoil (u : State) : (registerAccess r value).spoil u = u := rfl
  rw [hspoil] at hrun
  rw [registerEnd, hrun]
  refine and_left_comm.1 ⟨?_, hw.made (transacted_failure f r value) (ticks_failure f r value) hrest rfl rfl rfl⟩
  simp only [endCommand, reportStatus, hne, if_false, hw.port]
  rfl

end

/-! ## The statements -/

/-- Settles O22: k WAITs and a good read. -/
theorem getRegDeliversTheData : Obligations.GetRegDeliversTheData := by
  intro s reg r k d rest hb hs hreg hk h
  exact ⟨_, exec_getReg hreg hb hs, registerEnd_ok hk d h⟩

/-- Settles O23: k WAITs and a good write. -/
theorem setRegSendsTheValue : Obligations.SetRegSendsTheValue := by
  intro s reg r k rest hb hs hreg hk h
  exact ⟨_, exec_setReg hreg hb hs, registerEnd_ok hk 0#32 h⟩

/-- Settles O24: the two commands are one, and O22 says what it delivers. -/
theorem readIdcodeIsGetRegOfItsRegister : Obligations.ReadIdcodeIsGetRegOfItsRegister := by
  refine ⟨exec_readIdcode_eq, fun s k d rest hb hs hk h => ?_⟩
  obtain ⟨t, ht, hmade, hport, -⟩ := getRegDeliversTheData s 0x00#6 Params.dp0 k d rest hb hs rfl hk h
  exact ⟨t, (exec_readIdcode_eq s).trans ht, hmade, hport⟩

/-- Settles O25: the access of either command is answered WAIT to the bound. -/
theorem stalledAfterTheBound : Obligations.StalledAfterTheBound := by
  intro s reg r rest hb hs hreg h
  have hstalled (value : Option Word) := registerEnd_fails (r := r) (value := value) .stalled trivial h
  simp only [beq_self_eq_true, Bool.or_true] at hstalled
  exact ⟨⟨_, exec_getReg hreg hb hs, hstalled none⟩, ⟨_, exec_setReg hreg hb hs, hstalled (some s.port.argData)⟩⟩

/-- Settles O26: k WAITs and the bad ACK. -/
theorem badAckEndsTheCommand : Obligations.BadAckEndsTheCommand := by
  intro s reg r k a rest hb hs hreg hk ho hw h
  have hbad (value : Option Word) := registerEnd_fails (r := r) (value := value) (.badAck k a) ⟨hk, ho, hw⟩ h
  have hdiag : (Failure.badAck k a == .stalled) = false := rfl
  simp only [hdiag, Bool.or_false] at hbad
  exact ⟨⟨_, exec_getReg hreg hb hs, hbad none⟩, ⟨_, exec_setReg hreg hb hs, hbad (some s.port.argData)⟩⟩

/-- Settles O27: k WAITs and the read with the wrong parity bit. -/
theorem parityMismatchIsProtocolError : Obligations.ParityMismatchIsProtocolError := by
  intro s reg r k d rest hb hs hreg hk h
  have hbad := registerEnd_fails (r := r) (.badParity k d) ⟨hk, rfl⟩ h
  have hdiag : (Failure.badParity k d == .stalled) = false := rfl
  simp only [hdiag, Bool.or_false] at hbad
  exact ⟨_, exec_getReg hreg hb hs, hbad⟩

/-! ## The round trip -/

theorem drivenBits_calls (c : Call) (cs : List Call) (p : Pins) :
    drivenBits p ((c :: cs).flatMap Call.expand) = c.driven p ++ drivenBits (c.pins p) (cs.flatMap Call.expand) := by
  rw [List.flatMap_cons, drivenBits_append, drivenBits_expand, replay_expand]

/-- In a write transaction with an OK ACK the engine drives the request frame, the value and its parity bit (10 R24,
42 R166). -/
theorem drivenBits_writeOk (r : RegAddr) (v : Word) {p : Pins} (hp : p.dir = .output) :
    drivenBits p ((writeOkCalls r v).flatMap Call.expand) =
      wireOf (frameOf r false) 8 ++ wireOf v 32 ++ wireOf (levelWord (parity v)) 1 := by
  simp only [writeOkCalls, endedCalls, List.cons_append, List.nil_append, drivenBits_calls, Call.driven, Call.pins, hp,
    if_true, List.flatMap_nil, drivenBits, List.append_nil, List.append_assoc]
  rfl

/-- The data bits of the write are those of its value, in the order of their arrival. -/
theorem drivenData_writeOk (r : RegAddr) (v : Word) {p : Pins} (hp : p.dir = .output) :
    ((drivenBits p ((writeOkCalls r v).flatMap Call.expand)).drop 8).take 32 = wireOf v 32 := by
  rw [drivenBits_writeOk r v hp, List.append_assoc, List.drop_left' (wireOf_length _ 8),
    List.take_left' (wireOf_length v 32)]

/-- The pin events of a command are those of the calls it made (00 R6). -/
theorem newEvents_of_made {i : Instr} {s t : State} {cs : List Call} {rest : List Bool} (h : Made s t cs rest)
    (ht : exec i s = .next t) : t.pinTrace.drop s.pinTrace.length = cs.flatMap Call.expand := by
  obtain ⟨ds, hrec⟩ := exec_recorded ht
  obtain rfl := List.append_cancel_left (h.calls.symm.trans hrec.callsMade)
  rw [hrec.pinTrace, List.drop_left]

/-- A read that is answered OK with the bits of a value and their parity, in their order on the wire (30 R85). -/
theorem getReg_wire {s : State} {reg : BitVec 6} {r : RegAddr} {v : Word} {rest : List Bool} (hreg : regOf reg = some r)
    (hb : s.port.busy = false) (hs : s.pins.bound = true)
    (h : s.env.samples = ackAnswer 1#3 ++ wireOf v 32 ++ [parity v] ++ rest) :
    ∃ u, exec (.getReg reg) s = .next u ∧
      u.port.result = v ∧ u.port.success = true ∧ u.port.status = Status.code .ok := by
  obtain ⟨-, hport, -⟩ := registerEnd_ok (r := r) (value := none) (k := 0) (by decide) v h
  rw [exec_getReg hreg hb hs]
  exact ⟨_, rfl, by rw [hport]; rfl, by rw [hport]; rfl, by rw [hport]; rfl⟩

/-- Settles O29: what the peer stored assembles to the value, so the read that follows is a good read of it. -/
theorem registerRoundTrip : Obligations.RegisterRoundTrip := by
  intro s t reg r rest rest' stored hin hreg hs ht hstored
  obtain ⟨hb, -, hline⟩ := hin
  have hbound : s.pins.bound = true := congrArg Line.bound hline
  obtain rfl := Host.Outcome.next.inj ((exec_setReg hreg hb hbound).symm.trans ht)
  obtain ⟨hmade, hport, -⟩ := registerEnd_ok (r := r) (value := some s.port.argData) (k := 0) (by decide) 0#32 hs
  obtain rfl : stored = wireOf s.port.argData 32 := by
    rw [hstored, newEvents_of_made hmade ht]
    exact drivenData_writeOk r s.port.argData (congrArg Line.dir hline)
  rw [assemble_wireOf]
  refine getReg_wire hreg ?_ ?_ rfl
  · rw [hport]; rfl
  · rw [hmade.pins]; exact hbound

end Sys2Proof.Machine
end

section
/-! PROOFS. Every command, frame and ACK (42 R179 to R183, 60 R222): a failed read gives SENTINEL, every command ends
within its ticks, a frame is sent, an ACK decides the branch, and only the host can stop the machine. They settle O28,
O40, O46, O47 and O60. -/

namespace Sys2Proof.Machine

open Sys2Proof.Safety

/-! ## Failed reads -/

theorem code_eq_ok (st : Status) : st.code = Status.code .ok ↔ st = .ok := by
  cases st <;> decide

/-- A command with a value result that does not end OK reports SENTINEL (42 R169, 60 R226, R227). -/
theorem runCommand_sentinel {c : Command} {s t : State} (hv : c.valued = true) (hb : s.port.busy = false)
    (ht : runCommand c s = .next t) (hst : t.port.status ≠ Status.code .ok) : t.port.result = Config.sentinel := by
  rcases runCommand_cases c s hb with ⟨x, -, e⟩ | ⟨-, e⟩ <;> rw [e] at ht <;> cases ht
  · rw [refuseCommand_eq, hv]
    rfl
  · rw [endCommand_status, Ne, code_eq_ok] at hst
    rw [endCommand_result, if_pos hv, if_neg hst]

theorem accessRead_sentinel (r : RegAddr) (s : State) (h : (accessRead r s).status ≠ .ok) :
    (accessRead r s).value = Config.sentinel := by
  obtain ⟨_, _, _, _, _, _, hvalue, _⟩ := accessRun_cases (Access.read r .drop) s
  exact hvalue h

/-- 32 ones have an even number of ones (42 R160, R169). -/
theorem readAnswer_ones : readAnswer 0xFFFFFFFF#32 false = ackAnswer 1#3 ++ List.replicate 32 true ++ [false] := rfl

/-- Settles O28: SENTINEL at every layer, and a good read of 32 ones. -/
theorem failedReadsGiveTheSentinel : Obligations.FailedReadsGiveTheSentinel := by
  refine ⟨fun r s h => ?_, accessRead_sentinel, fun i s t hi hb ht hst => ?_, fun r s rest h => ?_⟩
  · obtain ⟨-, hvalue, -⟩ := xferRead_worked r s
    rw [hvalue, if_neg h]
    rfl
  · obtain ⟨c, hc⟩ : ∃ c, commandSpec i = some c := by
      rcases hi with rfl | rfl | rfl | ⟨reg, rfl⟩ <;> exact ⟨_, rfl⟩
    rw [exec_command i c hc] at ht
    exact runCommand_sentinel ((valued_iff i c hc).2 hi) hb ht hst
  · rw [← readAnswer_ones] at h
    obtain ⟨hst, hvalue, -⟩ := xferRead_data r h
    have hparity : false = parity 0xFFFFFFFF#32 := by decide
    exact ⟨hst.trans ((checkRead_ok_iff _ _).2 hparity), hvalue.trans (if_pos hparity)⟩

/-! ## Every command ends -/

/-- Settles O40: a refused command ends at once, an accepted one with its program's status and within its program's
ticks. -/
theorem everyCommandEnds : Obligations.EveryCommandEnds := by
  intro i w s he hb hpos
  obtain ⟨c, hc⟩ := commandSpec_of_encode i w he
  rw [exec_command i c hc]
  rcases runCommand_cases c s hb with ⟨x, -, e⟩ | ⟨-, e⟩
  · exact ⟨_, .refused, e, ⟨rfl, rfl, rfl, rfl, hpos⟩, nofun, Nat.le_add_right ..⟩
  · obtain ⟨hwait, -⟩ := runProgram_status (c.program s.latchOperands) s.latchOperands
    obtain ⟨-, -, hticks, -⟩ := runProgram_cases (c.program s.latchOperands) s.latchOperands
    exact ⟨_, _, e, ⟨rfl, rfl, rfl, rfl, rfl⟩, hwait,
      hticks.trans (Nat.add_le_add_left (program_ticks i c hc s.latchOperands) _)⟩

/-! ## Frames and ACKs -/

/-- The rows of the request format send their word (30 R83; log 17). -/
theorem exec_of_encode_req8 {i : Instr} {f : Byte} (h : encode i = .req8 f) (s : State) :
    exec i s = sendRequest f s := by
  cases i with
  | reqDp0W | reqDp4W | reqDp8W | reqDpCW | reqDp0R | reqDp4R | reqDp8R | reqDpCR
  | reqAp0W | reqAp4W | reqAp8W | reqApCW | reqAp0R | reqAp4R | reqAp8R | reqApCR
  | req => cases h; rfl
  | _ => cases h

/-- The rows of the ACK format classify their value (30 R84; log 17). -/
theorem exec_of_encode_ack3 {i : Instr} {a : BitVec 3} (h : encode i = .ack3 a) (s : State) :
    exec i s = takeAck a s := by
  cases i with
  | ackOk | ackWait | ackFault | ackInvalid0 | ackInvalid3 | ackInvalid5 | ackInvalid6 | ackInvalid7 => cases h; rfl
  | _ => cases h

/-- A frame goes out bit 0 first. -/
theorem wireOf_frame (f : Byte) : wireOf (f.setWidth 32) 8 = (List.range 8).map f.getLsbD := by
  refine List.map_congr_left fun i hi => ?_
  have hlt : i < 32 := Nat.lt_trans (List.mem_range.1 hi) (by decide)
  simp [hlt]

/-- The bits that the engine drives while it sends a frame on the owned line (42 R165). -/
theorem drivenBits_frame (f : Byte) {p : Pins} (hp : p.dir = .output) :
    drivenBits p ([.pad, .write (f.setWidth 32) 8, .pad].flatMap Call.expand) = (List.range 8).map f.getLsbD := by
  simp only [drivenBits_calls, Call.driven, Call.pins, hp, if_true, List.flatMap_nil, drivenBits, List.nil_append,
    List.append_nil]
  exact wireOf_frame f

theorem sendFrame_worked (f : Byte) (s : State) : Worked [.pad, .write (f.setWidth 32) 8, .pad] s (sendFrame f s) := by
  rw [sendFrame_perform]
  exact (Worked.shifted _ _ s).trans (Worked.perform _ _)

/-- Sending a frame takes no answer and leaves the sequencer alone but for the shift register and its bit counter. -/
theorem sendFrame_keeps (f : Byte) (s : State) :
    (sendFrame f s).env.samples = s.env.samples ∧ (sendFrame f s).seq.ack = s.seq.ack ∧
      (sendFrame f s).seq.attempt = s.seq.attempt ∧ (sendFrame f s).seq.idx = s.seq.idx := by
  rw [sendFrame_perform]
  exact ⟨rfl, rfl, rfl, rfl⟩

/-- Settles O46: a frame is a write of eight bits between two pads. -/
theorem requestFramesAreSent : Obligations.RequestFramesAreSent := by
  intro i f s h
  have hw := sendFrame_worked f s
  obtain ⟨hsamples, hack, hattempt, hidx⟩ := sendFrame_keeps f s
  refine ⟨_, exec_of_encode_req8 h s, hw.callsMade, fun hd => ?_, hw.tickCount_eq, hw.pins, fun k hk => ?_,
    fun k hk => ?_, hw.port, hw.latch, hsamples, hw.host, hack, hattempt, hidx, hw.held⟩
  · exact (congrArg (drivenBits s.pins) hw.newEvents).trans (drivenBits_frame f hd)
  · rw [hk]; rfl
  · rw [hk]; rfl

/-- Settles O47: the position after the classification, by the status of the ACK. -/
theorem acksDecideTheBranch : Obligations.AcksDecideTheBranch := by
  intro i a s h
  refine ⟨_, exec_of_encode_ack3 h s, rfl, fun k hk => ?_, fun k hk => ?_, rfl⟩
  · rw [hk, afterAck_read]
    by_cases ha : a = 1#3
    · rw [if_pos ((ackStatus_ok a).2 ha), if_pos ha]
    · rw [if_neg (mt (ackStatus_ok a).1 ha), if_neg ha, ackStatus, if_neg ha]
  · rw [hk, afterAck_write]
    rfl

/-! ## What can stop the machine -/

theorem runCommand_next (c : Command) (s : State) : ∃ t, runCommand c s = .next t := by
  by_cases hb : s.port.busy = true
  · exact ⟨s, runCommand_busy c hb⟩
  · rcases runCommand_cases c s (by simpa using hb) with ⟨x, -, e⟩ | ⟨-, e⟩ <;> exact ⟨_, e⟩

/-- Every instruction has a meaning, in every state (42 R181). -/
theorem exec_next (i : Instr) (s : State) : ∃ t, exec i s = .next t := by
  rcases exec_cases i s with ⟨c, -, e⟩ | ⟨f, e⟩ | ⟨a, e⟩ <;> rw [e]
  · exact runCommand_next c s
  · exact ⟨_, rfl⟩
  · exact ⟨_, rfl⟩

/-- One position is a step, or the word at a request position is no frame (30 R94; log 18). -/
theorem engineStep_cases (s : State) : (∃ t, engineStep s = .next t) ∨ engineStep s = .fault .frameNotProducible := by
  unfold engineStep
  split
  · exact .inl ⟨_, rfl⟩
  · split
    · exact .inl (exec_next _ _)
    · exact .inr rfl

/-- With the invariant the word at a request position is the frame of a statement (42 R179). -/
theorem engineStep_next {s : State} (hi : Inv s) (hb : s.port.busy = true) : ∃ t, engineStep s = .next t := by
  have hpos := hi.position hb
  unfold PositionOk at hpos
  cases hp : s.seq.pos with
  | idle | stmt => exact ⟨_, engineStep_advance (by rw [wireCode, hp])⟩
  | frame k =>
    rw [hp] at hpos
    obtain ⟨f, -, hs, hf, -⟩ := hpos
    exact ⟨_, engineStep_frame (.inr ⟨k, hp⟩) hs hf⟩
  | xfer k ph =>
    rw [hp] at hpos
    obtain ⟨a, -, hfits, -⟩ := hpos
    cases ph with
    | req => exact ⟨_, engineStep_frame (.inl ⟨k, hp⟩) hfits (req_fixedBits a.reg a.rnw)⟩
    | decode => exact ⟨_, engineStep_ack hp⟩
    | _ => exact ⟨_, engineStep_advance (by rw [wireCode, hp])⟩

/-- The moves that the spec does not give the host: to write CMDW or BUF while BUSY (10 R28, R35; log 13), or an
entry that BUF does not have (log 14). -/
def Forbidden (s : State) : HostMove → Prop
  | .writeCmdw _ => s.port.busy = true
  | .writeBuf i _ => s.port.busy = true ∨ Config.bufDepth ≤ i
  | _ => False

/-- What a move of the host can come to: a next state, or a fault, of the host itself or at a position of the running
command. -/
theorem hostMove_cases (m : HostMove) (s : State) :
    (∃ t, hostMove m s = .next t) ∨
      ∃ f, hostMove m s = .fault f ∧ (Forbidden s m ∨ s.port.busy = true ∧ engineStep s = .fault f) := by
  cases m with
  | wait =>
    rw [hostMove]
    split
    · next hb => exact (engineStep_cases s).imp id fun e => ⟨_, e, .inr ⟨hb, e⟩⟩
    · exact .inl ⟨s, rfl⟩
  | run =>
    rw [hostMove, callCommand_eq]
    exact .inl (runCommand_next _ s)
  | start | writeArgAddr | writeArgData | writeArgCount | clearDiag => exact .inl ⟨_, rfl⟩
  | writeCmdw w =>
    rw [hostMove]
    split
    · next hb => exact .inr ⟨_, rfl, .inl hb⟩
    · exact .inl ⟨_, rfl⟩
  | writeBuf i w =>
    rw [hostMove]
    split
    · next hb => exact .inr ⟨_, rfl, .inl (.inl hb)⟩
    · split
      · exact .inl ⟨_, rfl⟩
      · next hi => exact .inr ⟨_, rfl, .inl (.inr (Nat.le_of_not_lt hi))⟩

theorem hostMove_not_refused (m : HostMove) (s : State) (r : Refusal) : hostMove m s ≠ .refused r := by
  rcases hostMove_cases m s with ⟨t, e⟩ | ⟨f, e, -⟩ <;> rw [e] <;> nofun

/-- From a state with the invariant only a forbidden move is a fault. -/
theorem forbidden_of_fault {m : HostMove} {s : State} {f : Fault} (hi : Inv s) (h : hostMove m s = .fault f) :
    Forbidden s m := by
  rcases hostMove_cases m s with ⟨t, e⟩ | ⟨g, -, hm | ⟨hb, e⟩⟩
  · rw [e] at h; cases h
  · exact hm
  · obtain ⟨t, ht⟩ := engineStep_next hi hb
    rw [ht] at e; cases e

/-- Settles O60: a step is a power-on or a move of the host; with no input to come it is that of a host that waits. -/
theorem onlyTheHostCanStopTheMachine : Obligations.OnlyTheHostCanStopTheMachine := by
  refine ⟨fun s r h => ?_, fun s f hi h => ?_⟩ <;> unfold step at h <;> split at h
  · exact hostMove_not_refused .wait s r h
  · exact hostMove_not_refused _ _ r h
  · cases h
  · exact (forbidden_of_fault (m := .wait) hi h).elim
  · next m rest hin =>
    have hm := forbidden_of_fault (s := { s with env.inputs := rest })
      (inv_congr hi rfl rfl rfl rfl (fun _ => rfl) rfl rfl rfl) h
    refine ⟨rest, ?_⟩
    cases m with
    | writeCmdw w => exact .inl ⟨w, hin, hm⟩
    | writeBuf i w => exact .inr ⟨i, w, hin, hm⟩
    | _ => exact hm.elim
  · cases h

end Sys2Proof.Machine
end

section
/-! PROOFS. The memory commands against a scripted peer (43 R190 to R205): their accesses are made one after the other
and answered OK, up to the first that fails, and PEEK_MANY puts into BUF what they bring. They settle O15, O30 to O33 and
O35. -/

namespace Sys2Proof.Machine

open Sys2Proof.Safety

/-- Settles O15: the statements before m decide to go on, and m decides to stop. -/
theorem firstFailureEndsTheSequence : Obligations.FirstFailureEndsTheSequence := by
  intro ms rest m s s1 s2 st hms hm hst
  rw [runProgram_append, hms, if_pos rfl, runProgram_cons, hm, if_neg hst]

/-! ## What is seen of accesses -/

/-- From s to t the engine made the calls ps; what became of the port and the sequencer is not said. -/
structure Traced (ps : List Call) (s t : State) : Prop where
  host : t.env.inputs = s.env.inputs
  pins : t.pins = ps.foldl (fun p c => c.pins p) s.pins
  calls : t.env.calls = ps.reverse ++ s.env.calls
  trace : t.env.trace = (ps.flatMap Call.expand).reverse ++ s.env.trace

section

variable {ps qs : List Call} {s t u : State} {rest : List Bool} {l : List Access} {ds : List Word} {es : List Exchange}
  {B : Nat}

theorem Worked.traced (h : Worked ps s t) : Traced ps s t := ⟨h.host, h.pins, h.calls, h.trace⟩

theorem Exchanged.traced (h : Exchanged l ds ps s t) : Traced ps s t := ⟨h.host, h.pins, h.calls, h.trace⟩

theorem Traced.trans (h : Traced ps s t) (g : Traced qs t u) : Traced (ps ++ qs) s u where
  host := g.host.trans h.host
  pins := by rw [g.pins, h.pins, List.foldl_append]
  calls := by rw [g.calls, h.calls, List.reverse_append, List.append_assoc]
  trace := by rw [g.trace, h.trace, List.flatMap_append, List.reverse_append, List.append_assoc]

/-- What storing a value, or a failure, leaves behind is no matter. -/
theorem Traced.stored (h : Traced ps s t) (g : Stored t u) : Traced ps s u :=
  ⟨g.inside.host.trans h.host, g.pins.trans h.pins, g.calls.trans h.calls, g.trace.trans h.trace⟩

/-- What is seen of a command that made whole transactions and then ended. -/
theorem Traced.made (h : Traced ps s.latchOperands t) (hps : Transacted B ps) (hrest : t.env.samples = rest)
    (v : Bool) (st : Status) :
    Made s (endCommand v st t) ps rest ∧
      tickCount (endCommand v st t).env.trace = tickCount s.env.trace + (ps.map Call.tickLength).sum := by
  have hw : Worked ps s.latchOperands { s.latchOperands with pins := t.pins, env := t.env } :=
    ⟨rfl, rfl, rfl, rfl, h.host, h.pins, h.calls, h.trace⟩
  exact hw.made hps rfl hrest rfl rfl rfl

/-- Accesses answered OK before whole transactions (42 R166, R167). -/
theorem transacted_exchanges_append (es : List Exchange) (h : Transacted B ps) :
    Transacted ((es.map Exchange.ticks).sum + B) (es.flatMap Exchange.calls ++ ps) := by
  induction es with
  | nil => exact h.mono (by simp)
  | cons e es ih =>
    rw [List.flatMap_cons, List.append_assoc]
    exact ((transacted_exchange e).append ih).mono (by simp [Nat.add_assoc])

theorem transacted_exchanges (h : es ≠ []) : Transacted (es.map Exchange.ticks).sum (es.flatMap Exchange.calls) := by
  obtain rfl | ⟨es, e, rfl⟩ := es.eq_nil_or_concat
  · exact absurd rfl h
  · simpa using transacted_exchanges_append es (transacted_exchange e)

theorem ticks_exchanges (es : List Exchange) :
    ((es.flatMap Exchange.calls).map Call.tickLength).sum = (es.map Exchange.ticks).sum := by
  induction es with
  | nil => rfl
  | cons e es ih => rw [List.flatMap_cons, List.map_append, List.sum_append, ih, ticks_exchange]; rfl

end

/-! ## A memory command and its accesses -/

theorem accesses_injective {l m : List Access} (h : l.map Micro.access = m.map Micro.access) : l = m :=
  List.map_injective_iff.2 (fun _ _ e => Micro.access.inj e) h

/-- The register and the value of an access. -/
def Access.key (a : Access) : RegAddr × Option Word := (a.reg, a.value)

/-- The instructions with a list of accesses (43 R191 to R204). -/
def isMemory : Instr → Bool
  | .setupMem | .peek | .peekMany | .poke | .pokeMany => true
  | _ => false

section

variable {i : Instr} {c : Command} {s t u : State} {st : Status} {l l1 l2 : List Access} {a : Access} {f : Failure}
  {es : List Exchange} {rest : List Bool} {ds : List Word} {ps : List Call}

theorem isMemory_of_accessList {p : Port} (h : accessList p i ≠ []) : isMemory i = true := by
  cases i with
  | setupMem | peek | peekMany | poke | pokeMany => rfl
  | _ => exact absurd rfl h

theorem accessList_ne_nil (p : Port) (h : isMemory i = true) : accessList p i ≠ [] := by
  cases i with
  | setupMem | peek | peekMany | poke | pokeMany => exact List.cons_ne_nil _ _
  | _ => cases h

theorem commandSpec_of_memory (h : isMemory i = true) : ∃ c, commandSpec i = some c := by
  cases i with
  | setupMem | peek | peekMany | poke | pokeMany => exact ⟨_, rfl⟩
  | _ => cases h

/-- Of these only SETUP_MEM and PEEK have a value result (10 R32). -/
theorem memory_valued (h : commandSpec i = some c) (hi : isMemory i = true) :
    c.valued = true ↔ i = .setupMem ∨ i = .peek := by
  rw [valued_iff i c h]
  cases i with
  | setupMem | peek | peekMany | poke | pokeMany => simp
  | _ => cases hi

/-- In a session a memory command is started unless its count exceeds BUF (60 R226), and ends as its program says (60
R227). -/
theorem exec_memory (h : commandSpec i = some c) (hi : isMemory i = true) (hb : s.port.busy = false)
    (hs : s.pins.bound = true) (hn : i = .peekMany ∨ i = .pokeMany → s.port.argCount ≤ Config.bufDepth)
    (hrun : runProgram (c.program s.latchOperands) s.latchOperands = (st, t)) :
    exec i s = .next (endCommand c.valued st t) := by
  have hinit : c.isInit = false := by
    rw [Bool.eq_false_iff, Ne, isInit_iff i c h]
    rintro rfl
    cases hi
  have hown : c.own s.latchOperands = none := by
    refine (own_none_iff i c h s).2 ⟨⟨?_, ?_, ?_⟩, ?_, ?_, hn⟩
    · rintro rfl; cases hi
    · rintro rfl; cases hi
    · rintro rfl; cases hi
    · rintro rfl; cases hi
    · rintro reg (rfl | rfl) <;> cases hi
  have hrefusal : c.refusal s.latchOperands = none := (refusal_none_iff c _).2 ⟨hown, by rw [hinit]; exact hs⟩
  rw [exec_command i c h]
  rcases runCommand_cases c s hb with ⟨x, hx, -⟩ | ⟨-, e⟩
  · rw [hrefusal] at hx; cases hx
  · rw [e, hrun]

/-- A memory command other than PEEK_MANY leaves BUF alone (10 R35). -/
theorem memory_keepsBuf (h : commandSpec i = some c)
    (hrun : runProgram (c.program s.latchOperands) s.latchOperands = (st, t)) (hi : i ≠ .peekMany) :
    t.port.buf = s.port.buf := by
  obtain ⟨-, -, -, -, hbuf⟩ := runProgram_cases (c.program s.latchOperands) s.latchOperands
  rw [hrun] at hbuf
  exact hbuf (program_keepsBuf i c h _ hi)

/-- What program_accessList says of the list of accesses that the program is. -/
theorem memory_accesses (h : commandSpec i = some c) (hi : isMemory i = true)
    (hn : i = .peekMany ∨ i = .pokeMany → s.port.argCount ≤ Config.bufDepth)
    (hp : c.program s.latchOperands = l.map Micro.access) :
    l.map Access.key = accessList s.port i ∧ (∀ a ∈ l, a.dropsWrites) ∧ FreesLast l := by
  obtain ⟨m, hm, hrest⟩ := program_accessList i c h s (accessList_ne_nil _ hi) hn
  obtain rfl := accesses_injective (hp.symm.trans hm)
  exact hrest

/-- The port of a memory command that succeeded. -/
theorem Exchanged.port_ok (hx : Exchanged l ds ps s.latchOperands t) (v : Bool) :
    (endCommand v .ok t).port =
      { reported .ok s.port with result := if v then t.seq.held else s.port.result, buf := t.port.buf } := by
  simp only [endCommand, reportStatus, if_true]
  rw [hx.port]
  rfl

/-- A memory command of which every access is answered OK after fewer WAITs than the bound. -/
theorem exec_answered (h : commandSpec i = some c) (hi : isMemory i = true) (hb : s.port.busy = false)
    (hs : s.pins.bound = true) (hn : i = .peekMany ∨ i = .pokeMany → s.port.argCount ≤ Config.bufDepth)
    (hp : c.program s.latchOperands = l.map Micro.access) (he : es.map Exchange.access = accessList s.port i)
    (ha : AnswersOk es s.env.samples rest) :
    ∃ t, exec i s = .next t ∧ Made s t (es.flatMap Exchange.calls) rest ∧
      t.port =
        { reported .ok s.port with
          result :=
            if c.valued then (l.zip (es.map Exchange.data)).foldl (fun h x => x.1.sink.inHeld x.2 h) s.seq.held
            else s.port.result
          buf := t.port.buf } ∧
      (i ≠ .peekMany → t.port.buf = s.port.buf) ∧
      (∃ n, t.port.buf = (l.zip (es.map Exchange.data)).foldl (fun b x => x.1.sink.inBuf n x.2 b) s.port.buf) ∧
      tickCount t.env.trace = tickCount s.env.trace + (es.map Exchange.ticks).sum := by
  obtain ⟨hkey, hdrop, hfree⟩ := memory_accesses h hi hn hp
  obtain ⟨t, hx, hrest, hrun⟩ := runProgram_exchanges l es [] s.latchOperands rest (he.trans hkey.symm) hdrop hfree ha
  rw [List.append_nil, ← hp, runProgram] at hrun
  have hne : es ≠ [] := by
    rintro rfl
    exact accessList_ne_nil _ hi he.symm
  obtain ⟨hmade, hticks⟩ := hx.traced.made (transacted_exchanges hne) hrest c.valued .ok
  rw [ticks_exchanges] at hticks
  have hport := hx.port_ok c.valued
  rw [hx.held] at hport
  have hbuf := memory_keepsBuf h hrun
  exact ⟨_, exec_memory h hi hb hs hn hrun, hmade, hport, hbuf, hx.buf, hticks⟩

/-- Accesses that hold no value leave the held one alone. -/
theorem held_kept (hl : ∀ a ∈ l, a.sink ≠ .hold) (ds : List Word) (x : Word) :
    (l.zip ds).foldl (fun h x => x.1.sink.inHeld x.2 h) x = x := by
  induction l generalizing ds with
  | nil => rfl
  | cons a l ih =>
    cases ds with
    | nil => rfl
    | cons d ds =>
      have ha : a.sink.inHeld d x = x := by
        have hne := hl a (List.mem_cons_self ..)
        cases hs : a.sink with
        | hold => exact absurd hs hne
        | drop | buf | last => rfl
      rw [List.zip_cons_cons, List.foldl_cons, ha]
      exact ih (fun b hb => hl b (List.mem_cons_of_mem _ hb)) ds

/-- The value that is reported is that of the last access that holds its value (log 24). -/
theorem held_of_last (hsink : a.sink = .hold) (hl2 : ∀ b ∈ l2, b.sink ≠ .hold) {d : Word} (x : Word)
    (hd : ds[l1.length]? = some d) :
    ((l1 ++ a :: l2).zip ds).foldl (fun h x => x.1.sink.inHeld x.2 h) x = d := by
  induction l1 generalizing ds x with
  | nil =>
    cases ds with
    | nil => cases hd
    | cons e ds =>
      obtain rfl := Option.some.inj hd
      rw [List.nil_append, List.zip_cons_cons, List.foldl_cons, hsink]
      exact held_kept hl2 ds _
  | cons b l1 ih =>
    cases ds with
    | nil => cases hd
    | cons e ds => exact ih _ hd

/-- SETUP_MEM and PEEK: every access answered OK, and the value that one of them holds. -/
theorem exec_answered_valued (h : commandSpec i = some c) (hi : i = .setupMem ∨ i = .peek) (hb : s.port.busy = false)
    (hs : s.pins.bound = true) (hp : c.program s.latchOperands = (l1 ++ a :: l2).map Micro.access)
    (hsink : a.sink = .hold) (hl2 : ∀ b ∈ l2, b.sink ≠ .hold) (he : es.map Exchange.access = accessList s.port i)
    (ha : AnswersOk es s.env.samples rest) {d : Word} (hd : es[l1.length]?.map Exchange.data = some d) :
    ∃ t, exec i s = .next t ∧ Made s t (es.flatMap Exchange.calls) rest ∧
      t.port = { reported .ok s.port with result := d } ∧
      tickCount t.env.trace = tickCount s.env.trace + (es.map Exchange.ticks).sum := by
  have hmem : isMemory i = true := by rcases hi with rfl | rfl <;> rfl
  have hnot : i ≠ .peekMany ∧ i ≠ .pokeMany := by rcases hi with rfl | rfl <;> exact ⟨nofun, nofun⟩
  obtain ⟨t, ht, hmade, hport, hbuf, -, hticks⟩ := exec_answered h hmem hb hs
    (fun hor => (hor.elim hnot.1 hnot.2).elim) hp he ha
  rw [if_pos ((memory_valued h hmem).2 hi), held_of_last hsink hl2 _ (by rw [List.getElem?_map]; exact hd),
    hbuf hnot.1] at hport
  exact ⟨t, ht, hmade, hport, hticks⟩

/-- POKE and POKE_MANY: every access answered OK. -/
theorem exec_answered_poke (hi : i = .poke ∨ i = .pokeMany) (hb : s.port.busy = false) (hs : s.pins.bound = true)
    (hn : i = .pokeMany → s.port.argCount ≤ Config.bufDepth) (he : es.map Exchange.access = accessList s.port i)
    (ha : AnswersOk es s.env.samples rest) :
    ∃ t, exec i s = .next t ∧ Made s t (es.flatMap Exchange.calls) rest ∧ t.port = reported .ok s.port ∧
      tickCount t.env.trace = tickCount s.env.trace + (es.map Exchange.ticks).sum := by
  have hmem : isMemory i = true := by rcases hi with rfl | rfl <;> rfl
  have hnot : i ≠ .peekMany ∧ ¬ (i = .setupMem ∨ i = .peek) := by rcases hi with rfl | rfl <;> simp
  have hcount : i = .peekMany ∨ i = .pokeMany → s.port.argCount ≤ Config.bufDepth :=
    fun hor => hor.elim (fun h => absurd h hnot.1) hn
  obtain ⟨c, h⟩ := commandSpec_of_memory hmem
  obtain ⟨l, hp, -⟩ := program_accessList i c h s (accessList_ne_nil _ hmem) hcount
  obtain ⟨t, ht, hmade, hport, hbuf, -, hticks⟩ := exec_answered h hmem hb hs hcount hp he ha
  rw [if_neg (mt (memory_valued h hmem).1 hnot.2), hbuf hnot.1] at hport
  exact ⟨t, ht, hmade, hport, hticks⟩

end

/-- Settles O30: the value is held by the seventh access. -/
theorem setupMemMakesTenAccesses : Obligations.SetupMemMakesTenAccesses := by
  intro s es idr rest hb hs he ha hidr
  exact exec_answered_valued (l1 := [_, _, _, _, _, _]) (l2 := [_, _, _]) rfl (.inl rfl) hb hs rfl rfl
    (by simp [Access.write]) he ha hidr

/-- Settles O31: the value is held by the third access. -/
theorem peekReadsThroughTheResultBuffer : Obligations.PeekReadsThroughTheResultBuffer := by
  intro s es d rest hb hs he ha hd
  exact exec_answered_valued (l1 := [_, _]) (l2 := []) rfl (.inr rfl) hb hs rfl rfl nofun he ha hd

/-- Settles O33: POKE is two write accesses. -/
theorem pokeWritesAddressThenValue : Obligations.PokeWritesAddressThenValue := by
  intro s es rest hb hs he ha
  exact exec_answered_poke (.inl rfl) hb hs nofun he ha

end Sys2Proof.Machine
end

section
/-! PROOFS. What PEEK_MANY puts into BUF (43 R198, R199): where each of its accesses puts its word, what they leave
together when all are answered OK, and what they leave when one fails. They settle O32. -/

namespace Sys2Proof.Machine

open Sys2Proof.Safety

/-! ## The accesses -/

/-- The accesses of PEEK_MANY before the drain: the address, the prime, and n reads of the data register (43 R198). -/
def fetches (addr : Word) (n : Nat) : List Access :=
  ⟨Params.regTar, some addr, .drop, some 0, some 0⟩ :: ⟨Params.regDrw, none, .drop, some 0, some 0⟩ ::
    (List.range n).map fun i => ⟨Params.regDrw, none, .buf i, some i, some i⟩

/-- The drain, which delivers word n (43 R198). -/
def drain (n : Nat) : Access := ⟨Params.regRdbuff, none, .last n, some n, some n⟩

/-- The accesses of PEEK_MANY (43 R198). -/
def peekManyAccesses (addr : Word) : Nat → List Access
  | 0 => [⟨Params.regTar, some addr, .drop, some 0, some 0⟩]
  | n + 1 => fetches addr n ++ [drain n]

theorem peekManyProgram_eq (s : State) :
    peekManyProgram s = (peekManyAccesses s.latch.addr s.latch.count).map Micro.access := by
  unfold peekManyProgram
  cases s.latch.count with
  | zero => rfl
  | succ n => simp [peekManyAccesses, fetches, drain, fetchWord]

theorem fetches_length (addr : Word) (n : Nat) : (fetches addr n).length = n + 2 := by simp [fetches]

theorem peekManyAccesses_length (addr : Word) (n : Nat) :
    (peekManyAccesses addr n).length = if n = 0 then 1 else n + 2 := by
  cases n with
  | zero => rfl
  | succ n => simp [peekManyAccesses, fetches_length]

/-- Where the word of access k goes, if it is not the drain: those of the address write and the prime nowhere. -/
def fetchSink : Nat → Sink
  | 0 | 1 => .drop
  | k + 2 => .buf k

section

variable {addr : Word} {n k i : Nat} {l l1 l2 : List Access} {a : Access} {ds : List Word}
  {b : Vector Word Config.bufDepth}

theorem fetches_getElem? (h : (fetches addr n)[k]? = some a) :
    a.fetching = some (k - 2) ∧ a.idx = some (k - 2) ∧ a.sink = fetchSink k := by
  rcases k with _ | _ | k
  · obtain rfl := Option.some.inj h; exact ⟨rfl, rfl, rfl⟩
  · obtain rfl := Option.some.inj h; exact ⟨rfl, rfl, rfl⟩
  · obtain ⟨i, hi, rfl⟩ : ∃ i, (List.range n)[k]? = some i ∧ _ :=
      Option.map_eq_some_iff.1 (List.getElem?_map.symm.trans h)
    obtain ⟨-, rfl⟩ := List.getElem?_eq_some_iff.1 hi
    rw [List.getElem_range]
    exact ⟨rfl, rfl, rfl⟩

/-- The entry that access k fetches, and S.idx, is k - 2, and 0 for the address write and the prime (43 R198). -/
theorem peekManyAccesses_getElem? (h : (peekManyAccesses addr n)[k]? = some a) :
    a.fetching = some (k - 2) ∧ a.idx = some (k - 2) ∧ (k < n + 1 → a.sink = fetchSink k) := by
  cases n with
  | zero =>
    cases k with
    | zero => obtain rfl := Option.some.inj h; exact ⟨rfl, rfl, fun _ => rfl⟩
    | succ k => cases h
  | succ n =>
    rcases Nat.lt_or_ge k (n + 2) with hk | hk
    · rw [peekManyAccesses, List.getElem?_append_left (by rwa [fetches_length])] at h
      obtain ⟨hfetching, hidx, hsink⟩ := fetches_getElem? h
      exact ⟨hfetching, hidx, fun _ => hsink⟩
    · have hlt := (List.getElem?_eq_some_iff.1 h).1
      rw [peekManyAccesses_length, if_neg (Nat.succ_ne_zero n)] at hlt
      obtain rfl : k = n + 2 := by omega
      rw [peekManyAccesses, ← fetches_length addr n, List.getElem?_concat_length] at h
      obtain rfl := Option.some.inj h
      exact ⟨rfl, rfl, fun hlt => absurd hlt (by omega)⟩

/-- One access for the address, one for each word, and for n >= 1 the prime. -/
theorem before_length_le (h : peekManyAccesses addr n = l1 ++ a :: l2) :
    l1.length ≤ n + 1 ∧ (n = 0 → l1.length = 0) := by
  have hlen := congrArg List.length h
  rw [peekManyAccesses_length, List.length_append, List.length_cons] at hlen
  split at hlen <;> omega

/-- Each word has its access. -/
theorem peekManyAccesses_reach (h : ds.length = (peekManyAccesses addr n).length) (hi : i < n) : i + 2 < ds.length := by
  rw [peekManyAccesses_length, if_neg (Nat.ne_zero_of_lt hi)] at h
  omega

/-! ## What they leave in BUF -/

/-- Accesses that fetch one entry after another, from number m on. -/
theorem fetched_entries (m : Nat) (f : Nat) (hl : ∀ k a, l[k]? = some a → a.sink = fetchSink (m + k))
    (hds : ds.length = l.length) (hn : m + l.length ≤ Config.bufDepth + 2) (j : Nat) :
    ((l.zip ds).foldl (fun b x => x.1.sink.inBuf f x.2 b) b)[j]? =
      if m ≤ j + 2 ∧ j + 2 < m + l.length then ds[j + 2 - m]? else b[j]? := by
  induction l generalizing m ds b with
  | nil => rw [if_neg (by rw [List.length_nil]; omega)]; rfl
  | cons a l ih =>
    cases ds with
    | nil => cases hds
    | cons d ds =>
      simp only [List.length_cons] at hds hn ⊢
      rw [List.zip_cons_cons, List.foldl_cons,
        ih (m + 1) (fun k a h => (hl (k + 1) a h).trans (by congr 1; omega)) (by omega) (by omega)]
      have hb : (a.sink.inBuf f d b)[j]? = if m = j + 2 then some d else b[j]? := by
        rw [hl 0 a rfl, Nat.add_zero]
        rcases m with _ | _ | m
        · rfl
        · rfl
        · show (b.setIfInBounds m d)[j]? = _
          rw [Vector.getElem?_setIfInBounds]
          by_cases hj : m = j
          · rw [if_pos hj, if_pos (by omega), if_pos (by omega)]
          · rw [if_neg hj, if_neg (by omega)]
      rw [hb]
      by_cases hm : m = j + 2
      · rw [if_neg (by omega), if_pos hm, if_pos (by omega), hm, Nat.sub_self]; rfl
      · by_cases hj : m + 1 ≤ j + 2 ∧ j + 2 < m + 1 + l.length
        · rw [if_pos hj, if_pos (by omega), show j + 2 - m = (j + 2 - (m + 1)) + 1 by omega]; rfl
        · rw [if_neg hj, if_neg hm, if_neg (by omega)]

/-- Accesses of PEEK_MANY before one that is not answered OK, or before the drain: the words from the third on are
delivered (43 R198). -/
theorem delivered_entries (h : peekManyAccesses addr n = l1 ++ a :: l2) (hds : ds.length = l1.length)
    (hn : n ≤ Config.bufDepth) (f j : Nat) :
    ((l1.zip ds).foldl (fun b x => x.1.sink.inBuf f x.2 b) b)[j]? =
      if j + 2 < l1.length then ds[j + 2]? else b[j]? := by
  obtain ⟨hlen, -⟩ := before_length_le h
  have hsink : ∀ k a, l1[k]? = some a → a.sink = fetchSink (0 + k) := by
    intro k x hk
    have hlt : k < l1.length := (List.getElem?_eq_some_iff.1 hk).1
    rw [Nat.zero_add]
    refine (peekManyAccesses_getElem? (addr := addr) (n := n) (k := k) ?_).2.2 (by omega)
    rw [h, List.getElem?_append_left hlt, hk]
  rw [fetched_entries 0 f hsink hds (by omega)]
  simp

/-- The access that fails, or the drain, is about the entry after the ones delivered. -/
theorem fetching_of_split (h : peekManyAccesses addr n = l1 ++ a :: l2) :
    a.fetching = some (l1.length - 2) ∧ a.idx = some (l1.length - 2) := by
  obtain ⟨hfetching, hidx, -⟩ := peekManyAccesses_getElem? (addr := addr) (n := n) (k := l1.length) (a := a)
    (by rw [h]; simp)
  exact ⟨hfetching, hidx⟩

/-- The drain writes its entry, and those after it become unspecified (43 R199, 10 R35). -/
theorem inBuf_last (f : Nat) (d : Word) (b : Vector Word Config.bufDepth) (hi : i < Config.bufDepth) :
    ((Sink.last i).inBuf f d b)[i]? = some d ∧ (∀ j, j < i → ((Sink.last i).inBuf f d b)[j]? = b[j]?) ∧
      ∀ j, i < j → j < Config.bufDepth → ((Sink.last i).inBuf f d b)[j]? = some (Config.freeEntry (f + j)) :=
  freed_entries i d { State.reset with port.buf := b, env.fresh := f } hi

/-- PEEK_MANY of n words that succeeds (43 R199): BUF[i] is word i, and the entries from n on are free values (10 R35); for
n = 0 BUF is untouched. -/
theorem peekMany_fills {f : Nat} (hds : ds.length = (peekManyAccesses addr n).length) (hn : n ≤ Config.bufDepth)
    {b' : Vector Word Config.bufDepth}
    (hb : b' = ((peekManyAccesses addr n).zip ds).foldl (fun b x => x.1.sink.inBuf f x.2 b) b) :
    (∀ i, i < n → b'[i]? = ds[i + 2]?) ∧ (n = 0 → b' = b) ∧
      ∀ i, 0 < n → n ≤ i → i < Config.bufDepth → ∃ k, b'[i]? = some (Config.freeEntry k) := by
  cases n with
  | zero =>
    obtain ⟨d, rfl⟩ := List.length_eq_one_iff.1 hds
    exact ⟨nofun, fun _ => hb, nofun⟩
  | succ n =>
    obtain rfl | ⟨ds, d, rfl⟩ := List.eq_nil_or_concat ds
    · exact absurd (peekManyAccesses_reach hds (Nat.succ_pos n)) (Nat.not_lt_zero _)
    rw [List.concat_eq_append] at hb hds ⊢
    have hlen : ds.length = (fetches addr n).length := by simpa [peekManyAccesses] using hds
    have hbefore := delivered_entries (b := b) (addr := addr) (n := n + 1) rfl hlen hn f
    rw [fetches_length] at hlen hbefore
    rw [peekManyAccesses, List.zip_append (hlen.trans (fetches_length addr n).symm).symm, List.foldl_append] at hb
    obtain ⟨hat, hbelow, habove⟩ := inBuf_last f d
      (((fetches addr n).zip ds).foldl (fun b x => x.1.sink.inBuf f x.2 b) b) (i := n) (by omega)
    replace hb : b' = (Sink.last n).inBuf f d _ := hb
    rw [← hb] at hat hbelow habove
    refine ⟨fun i hi => ?_, nofun, fun i _ hi hd => ⟨_, habove i hi hd⟩⟩
    obtain hi | rfl := Nat.lt_or_eq_of_le (Nat.le_of_lt_succ hi)
    · rw [hbelow i hi, hbefore, if_pos (by omega), List.getElem?_append_left (by omega)]
    · rw [hat, ← hlen, List.getElem?_concat_length]

/-- PEEK_MANY that fails (43 R199): the entries below the one being fetched hold the words delivered, that one SENTINEL
if there is a word to fetch, and every other entry is a free value (10 R35, 92 D19). -/
theorem peekMany_spoils (h : peekManyAccesses addr n = l1 ++ a :: l2) (hds : ds.length = l1.length)
    (hn : n ≤ Config.bufDepth) {f : Nat} {u : State} (hu : u.latch.count = n)
    (hb : u.port.buf = (l1.zip ds).foldl (fun b x => x.1.sink.inBuf f x.2 b) b) :
    (0 < n → (a.spoil u).port.buf[l1.length - 2]? = some Config.sentinel) ∧
      (∀ j, j < l1.length - 2 → (a.spoil u).port.buf[j]? = ds[j + 2]?) ∧
      ∀ j, l1.length - 2 < j ∨ n = 0 → j < Config.bufDepth →
        ∃ k, (a.spoil u).port.buf[j]? = some (Config.freeEntry k) := by
  obtain ⟨hfetching, -⟩ := fetching_of_split h
  obtain ⟨hle, hzero⟩ := before_length_le h
  rcases Nat.eq_zero_or_pos n with hn0 | hpos
  · rw [hzero hn0] at hfetching ⊢
    exact ⟨fun hpos => absurd hn0 (Nat.ne_of_gt hpos), nofun,
      fun j _ hd => ⟨_, spoil_none a u hfetching (hu.trans hn0) j hd⟩⟩
  · obtain ⟨hat, hbelow, habove⟩ := spoil_entries a (l1.length - 2) u hfetching (by omega) (by omega)
    refine ⟨fun _ => hat, fun j hj => ?_, fun j hj hd => ⟨_, habove j (hj.resolve_right (by omega)) hd⟩⟩
    rw [hbelow j hj, hb, delivered_entries h hds hn, if_pos (by omega)]

end

/-- Settles O32: every access is answered OK, and BUF is filled with what they brought. -/
theorem peekManyFillsTheBuffer : Obligations.PeekManyFillsTheBuffer := by
  intro s es rest hb hs hn he ha
  have hp := peekManyProgram_eq s.latchOperands
  obtain ⟨t, ht, hmade, hport, -, ⟨f, hbuf⟩, hticks⟩ :=
    exec_answered (i := .peekMany) rfl rfl hb hs (fun _ => hn) hp he ha
  obtain ⟨hkey, -⟩ := memory_accesses (i := .peekMany) rfl rfl (fun _ => hn) hp
  have hlen := congrArg List.length (he.trans hkey.symm)
  obtain ⟨hwords, hnone, hfree⟩ := peekMany_fills (by simpa using hlen) hn hbuf
  exact ⟨t, ht, hmade, fun i hi => (hwords i hi).trans List.getElem?_map, hnone, hfree, hport, hticks⟩

end Sys2Proof.Machine
end

section
/-! PROOFS. A memory command that fails (43 R190, R192, R199, R205, 60 R221, R227): the accesses before the one that
fails, that one, and nothing after it. They settle O35. -/

namespace Sys2Proof.Machine

open Sys2Proof.Safety

/-- The diagnostic after a failure (10 R34). -/
def diagnosed (f : Failure) (s : State) : State :=
  { s with port.diagStalled := s.port.diagStalled || f == .stalled }

theorem spoil_stored (a : Access) (s : State) : Stored s (a.spoil s) := (store_or_spoil a Config.sentinel s).2

/-- No failure is a success (60 R221). -/
theorem failure_status_ne_ok {f : Failure} {value : Option Word} (h : f.possible value) : f.status ≠ .ok := by
  cases f with
  | stalled | badParity => nofun
  | badAck k a => rw [Failure.status]; split <;> nofun

/-- A list of accesses of which the one after l1 fails as f says, started in s (43 R190): the state v is what it leaves. -/
structure FailedAt (l1 : List Access) (a : Access) (es : List Exchange) (f : Failure) (s v : State) : Prop where
  accesses : es.map Exchange.access = l1.map Access.key
  possible : f.possible a.value
  /-- t is the state before the access that fails, u the one after its calls -/
  ends : ∃ t u, Exchanged l1 (es.map Exchange.data) (es.flatMap Exchange.calls) s t ∧
    (Micro.access a).run t = (f.status, v) ∧ Worked (f.calls a.reg a.value) t u ∧ v = a.spoil (diagnosed f u)

section

variable {i : Instr} {c : Command} {s t v : State} {l1 l2 : List Access} {a : Access} {f : Failure}
  {es : List Exchange} {rest : List Bool}

theorem FreesLast.before (h : FreesLast (l1 ++ a :: l2)) : ∀ b ∈ l1, ∀ i, b.sink ≠ .last i := by
  intro b hb
  refine h b ?_
  rw [List.dropLast_append_of_ne_nil (List.cons_ne_nil a l2)]
  exact List.mem_append_left _ hb

theorem freesLast_of_none {l : List Access} (h : ∀ b ∈ l, ∀ i, b.sink ≠ .last i) : FreesLast l :=
  fun b hb => h b (List.dropLast_subset _ hb)

/-- The accesses before the one that fails leave a command's registers as they were but for BUF; so does that one but for
the diagnostic (60 R221). -/
theorem FailedAt.port (h : FailedAt l1 a es f s.latchOperands v) (valued : Bool) :
    (endCommand valued f.status v).port =
      { reported f.status s.port with
        result := if valued then Config.sentinel else s.port.result
        diagStalled := s.port.diagStalled || f == .stalled
        buf := v.port.buf } := by
  obtain ⟨t, u, hx, -, hw, rfl⟩ := h.ends
  have hdiag : (diagnosed f u).port = { t.port with diagStalled := t.port.diagStalled || f == .stalled } := by
    rw [← hw.port]; rfl
  have hin := (spoil_stored a (diagnosed f u)).inside.port
  rw [(spoil_stored a (diagnosed f u)).diag, hdiag, hx.port] at hin
  simp only [endCommand, reportStatus, if_neg (failure_status_ne_ok h.possible)]
  rw [hin]
  rfl

theorem FailedAt.traced (h : FailedAt l1 a es f s v) :
    Traced (es.flatMap Exchange.calls ++ f.calls a.reg a.value) s v := by
  obtain ⟨t, u, hx, -, hw, rfl⟩ := h.ends
  have hdiag : Traced (f.calls a.reg a.value) t (diagnosed f u) := ⟨hw.host, hw.pins, hw.calls, hw.trace⟩
  exact (hx.traced.trans hdiag).stored (spoil_stored a _)

/-- What is seen of a command that ends so. -/
theorem FailedAt.made (h : FailedAt l1 a es f s.latchOperands v) (valued : Bool) :
    Made s (endCommand valued f.status v) (es.flatMap Exchange.calls ++ f.calls a.reg a.value) v.env.samples ∧
      tickCount (endCommand valued f.status v).env.trace =
        tickCount s.env.trace + (es.map Exchange.ticks).sum + f.ticks := by
  obtain ⟨hmade, hticks⟩ := h.traced.made
    (transacted_exchanges_append es (transacted_failure f a.reg a.value)) rfl valued f.status
  refine ⟨hmade, ?_⟩
  rw [hticks, List.map_append, List.sum_append, ticks_exchanges, ticks_failure, Nat.add_assoc]

/-- PEEK_MANY that ends so: the words delivered, SENTINEL, and free values (43 R198, R199). -/
theorem FailedAt.peekMany (h : FailedAt l1 a es f s.latchOperands v)
    (hl : peekManyAccesses s.port.argAddr s.port.argCount = l1 ++ a :: l2) (hn : s.port.argCount ≤ Config.bufDepth) :
    (0 < s.port.argCount → v.port.buf[es.length - 2]? = some Config.sentinel) ∧
      (∀ j, j < es.length - 2 → v.port.buf[j]? = es[j + 2]?.map Exchange.data) ∧
      ∀ j, es.length - 2 < j ∨ s.port.argCount = 0 → j < Config.bufDepth →
        ∃ k, v.port.buf[j]? = some (Config.freeEntry k) := by
  obtain ⟨t, u, hx, -, hw, rfl⟩ := h.ends
  have hlen : es.length = l1.length := by simpa using congrArg List.length h.accesses
  obtain ⟨n, hbuf⟩ := hx.buf
  rw [← hw.port] at hbuf
  rw [hlen]
  simp only [← List.getElem?_map]
  exact peekMany_spoils (u := diagnosed f u) hl (by simpa using hlen) hn
    ((congrArg Latch.count (hw.latch.trans hx.latch)).trans rfl) hbuf

/-- A list of accesses against a scripted peer that answers those of l1 OK and lets the next one fail. -/
theorem runProgram_fails (he : es.map Exchange.access = l1.map Access.key) (hdrop : ∀ a ∈ l1, a.dropsWrites)
    (hfree : ∀ b ∈ l1, ∀ i, b.sink ≠ .last i) (hf : f.possible a.value)
    (ha : AnswersOk es s.env.samples (f.answers ++ rest)) :
    ∃ v, FailedAt l1 a es f s v ∧ v.env.samples = rest ∧
      runProgram ((l1 ++ a :: l2).map Micro.access) s = (f.status, v) := by
  obtain ⟨t, hx, hsamples, hrun⟩ := runProgram_exchanges l1 es ((a :: l2).map Micro.access) s _ he hdrop
    (freesLast_of_none hfree) ha
  obtain ⟨u, hw, hrest, hne, hfail⟩ := access_fails a f t rest hf hsamples
  refine ⟨_, ⟨he, hf, t, u, hx, hfail, hw, rfl⟩, (spoil_stored a (diagnosed f u)).samples.trans hrest, ?_⟩
  rw [List.map_append, hrun, List.map_cons, runProgram_cons, hfail, if_neg hne]

/-- A list of accesses, split at the access that the statements name. -/
theorem split_accesses {l : List Access} {keys post : List (RegAddr × Option Word)} {k : RegAddr × Option Word}
    (h : l.map Access.key = keys ++ k :: post) :
    ∃ (l1 l2 : List Access) (a : Access), l = l1 ++ a :: l2 ∧ l1.map Access.key = keys ∧ a.key = k := by
  obtain ⟨l1, l2, rfl, h1, h2⟩ := List.map_eq_append_iff.1 h
  obtain ⟨a, l2, rfl, ha, -⟩ := List.map_eq_cons_iff.1 h2
  exact ⟨l1, l2, a, rfl, h1, ha⟩

/-- A memory command against a scripted peer, up to its first access that fails. -/
theorem exec_fails {r : RegAddr} {value : Option Word} {post : List (RegAddr × Option Word)}
    (h : commandSpec i = some c) (hi : isMemory i = true) (hb : s.port.busy = false) (hs : s.pins.bound = true)
    (hn : i = .peekMany ∨ i = .pokeMany → s.port.argCount ≤ Config.bufDepth)
    (hlist : accessList s.port i = es.map Exchange.access ++ (r, value) :: post) (hf : f.possible value)
    (ha : AnswersOk es s.env.samples (f.answers ++ rest)) :
    ∃ (l1 l2 : List Access) (a : Access) (v : State),
      c.program s.latchOperands = (l1 ++ a :: l2).map Micro.access ∧ a.key = (r, value) ∧
      FailedAt l1 a es f s.latchOperands v ∧ v.env.samples = rest ∧
      exec i s = .next (endCommand c.valued f.status v) ∧ (i ≠ .peekMany → v.port.buf = s.port.buf) := by
  obtain ⟨l, hp, hkey, hdrop, hfree⟩ := program_accessList i c h s (accessList_ne_nil _ hi) hn
  obtain ⟨l1, l2, a, rfl, he, hak⟩ := split_accesses (hkey.trans hlist)
  have hvalue : a.value = value := congrArg Prod.snd hak
  obtain ⟨v, hfailed, hsamples, hrun⟩ := runProgram_fails (a := a) (l2 := l2) (s := s.latchOperands) he.symm
    (fun b hb => hdrop b (List.mem_append_left _ hb)) hfree.before (hvalue ▸ hf) ha
  rw [← hp] at hrun
  exact ⟨l1, l2, a, v, hp, hak, hfailed, hsamples, exec_memory h hi hb hs hn hrun, memory_keepsBuf h hrun⟩

end

/-- Settles O35: the accesses before the one that fails are answered OK, and it fails. -/
theorem memoryCommandStopsAtTheFirstFailure : Obligations.MemoryCommandStopsAtTheFirstFailure := by
  intro i s es r value post f rest hb hs hn hlist hf ha
  have hi : isMemory i = true := isMemory_of_accessList (by rw [hlist]; simp)
  obtain ⟨c, h⟩ := commandSpec_of_memory hi
  obtain ⟨l1, l2, a, v, hp, hak, hfailed, rfl, ht, hkeeps⟩ := exec_fails h hi hb hs hn hlist hf ha
  obtain ⟨rfl, rfl⟩ := Prod.mk.inj hak
  obtain ⟨hmade, hticks⟩ := hfailed.made c.valued
  have hport := hfailed.port c.valued
  simp only [memory_valued h hi] at hport
  refine ⟨_, ht, hmade, hport, hkeeps, ?_, hticks⟩
  rintro rfl
  cases h
  exact hfailed.peekMany (accesses_injective ((peekManyProgram_eq _).symm.trans hp)) (hn (.inl rfl))

end Sys2Proof.Machine
end

section
/-! PROOFS. The memory commands whatever the samples (42 R169 to R171, 43 R190): every list of accesses is answered OK
one after the other, or up to one that fails in one of the ways of 60 R221; what the calls say of the words read and what
S.idx says of the access that failed. They settle O36. -/

namespace Sys2Proof.Machine

open Sys2Proof.Safety

/-! ## One access -/

/-- The diagnostic is set exactly by an access that stalled (10 R34). -/
theorem diagnosed_other {f : Failure} (h : (f == .stalled) = false) (t : State) : diagnosed f t = t := by
  simp only [diagnosed, h, Bool.or_false]

theorem diagnosed_stalled (t : State) : diagnosed .stalled t = { t with port.diagStalled := true } := by
  simp only [diagnosed, beq_self_eq_true, Bool.or_true]

theorem status_badAck {k : Nat} {x : BitVec 3} (h1 : x ≠ 1#3) (h2 : x ≠ 2#3) :
    (Failure.badAck k x).status = ackStatus x := by
  simp [ackStatus, Failure.status, h1, h2]

/-- An access is answered OK after some WAITs, or it fails (42 R169 to R171, 60 R221). -/
theorem accessRun_ends (a : Access) (s : State) :
    (∃ (e : Exchange) (t : State), e.access = a.key ∧ e.waits < Config.waitRetryBound ∧ Worked e.calls s t ∧
      a.run s = ⟨.ok, if a.value.isNone then e.data else Config.sentinel, t⟩) ∨
    ∃ (f : Failure) (t : State), f.possible a.value ∧ Worked (f.calls a.reg a.value) s t ∧
      a.run s = ⟨f.status, Config.sentinel, diagnosed f t⟩ := by
  have hbegin : Worked [] s (a.begin s) := ⟨rfl, rfl, rfl, rfl, rfl, rfl, rfl, rfl⟩
  rw [Access.run, Access.key]
  cases a.value with
  | some v =>
    rcases accessWrite_cases a.reg v (a.begin s) with ⟨k, x, t, hk, h2, hw, he⟩ | ⟨t, hw, he⟩
    · by_cases h1 : x = 1#3
      · subst h1
        exact .inl ⟨⟨a.reg, some v, k, 0#32⟩, t, rfl, hk, hbegin.trans hw, he⟩
      · rw [if_neg h1] at hw
        refine .inr ⟨.badAck k x, t, ⟨hk, h1, h2⟩, hbegin.trans hw, ?_⟩
        rw [status_badAck h1 h2, diagnosed_other rfl]
        exact he
    · exact .inr ⟨.stalled, t, trivial, hbegin.trans hw, by rw [diagnosed_stalled]; exact he⟩
  | none =>
    rcases accessRead_cases a.reg (a.begin s) with
      ⟨k, x, t, hk, h2, h1, hw, he⟩ | ⟨k, d, p, t, hk, hw, he⟩ | ⟨t, hw, he⟩
    · refine .inr ⟨.badAck k x, t, ⟨hk, h1, h2⟩, hbegin.trans hw, ?_⟩
      rw [status_badAck h1 h2, diagnosed_other rfl]
      exact he
    · by_cases hp : p = parity d
      · subst hp
        rw [(checkRead_ok_iff _ _).2 rfl] at he
        exact .inl ⟨⟨a.reg, none, k, d⟩, t, rfl, hk, hbegin.trans hw, he⟩
      · have hc : checkRead d p = .protocolError :=
          (checkRead_cases d p).resolve_left (mt (checkRead_ok_iff _ _).1 hp)
        obtain rfl : p = !parity d := Bool.eq_not_of_ne hp
        rw [hc] at he
        exact .inr ⟨.badParity k d, t, ⟨hk, rfl⟩, hbegin.trans hw, by rw [diagnosed_other rfl]; exact he⟩
    · exact .inr ⟨.stalled, t, trivial, hbegin.trans hw, by rw [diagnosed_stalled]; exact he⟩

/-! ## A list of accesses -/

section

variable {i : Instr} {c : Command} {s t u v : State} {l l1 l2 : List Access} {a b : Access} {f : Failure} {e : Exchange}
  {es : List Exchange} {ds : List Word} {ps : List Call}

theorem Exchanged.refl (s : State) : Exchanged [] [] [] s s := ⟨rfl, ⟨0, rfl⟩, rfl, rfl, rfl, rfl, rfl, rfl, rfl⟩

/-- An access answered OK before others. -/
theorem Exchanged.cons (hfree : FreesLast (a :: l)) (hw : Worked e.calls s t)
    (hx : Exchanged l ds ps (a.store e.data t) u) : Exchanged (a :: l) (e.data :: ds) (e.calls ++ ps) s u := by
  have htraced := (hw.traced.stored (store_or_spoil a e.data t).1).trans hx.traced
  obtain ⟨hin, -, -, -, -, hdiag⟩ := (store_or_spoil a e.data t).1
  have hbuf : ∀ n, (∀ i, a.sink ≠ .last i) ∨ n = t.env.fresh →
      (a.store e.data t).port.buf = a.sink.inBuf n e.data s.port.buf := by
    intro n hn
    rw [← hw.port]
    cases hs : a.sink with
    | drop | hold | buf => rw [Access.store, hs]; rfl
    | last i =>
      obtain rfl := hn.resolve_left fun h => h i hs
      rw [Access.store, hs]; rfl
  refine ⟨?_, ?_, ?_, ?_, ?_, htraced.host, htraced.pins, htraced.calls, htraced.trace⟩
  · rw [hx.port, hin.port, hdiag, hw.port]
  · obtain ⟨n, hn⟩ := hx.buf
    cases l with
    | nil => exact ⟨t.env.fresh, hn.trans (hbuf _ (.inr rfl))⟩
    | cons b l => exact ⟨n, by rw [hn, hbuf n (.inl (hfree a (List.mem_cons_self ..)))]; rfl⟩
  · have hheld : (a.store e.data t).seq.held = a.sink.inHeld e.data s.seq.held := by
      rw [← hw.held]
      cases hs : a.sink <;> rw [Access.store, hs] <;> rfl
    rw [hx.held, hheld]; rfl
  · rw [hx.latch, hin.latch, hw.latch]
  · rw [hx.pos, hin.pos, hw.pos]

/-- A list of accesses, whatever the samples: all are answered OK, or one fails and nothing is made after it (43 R190,
60 R228). -/
theorem runProgram_ends (hdrop : ∀ a ∈ l, a.dropsWrites) (hfree : FreesLast l) (s : State) :
    (∃ (es : List Exchange) (t : State), es.map Exchange.access = l.map Access.key ∧
      Exchanged l (es.map Exchange.data) (es.flatMap Exchange.calls) s t ∧
      runProgram (l.map Micro.access) s = (.ok, t)) ∨
    ∃ (l1 l2 : List Access) (a : Access) (es : List Exchange) (f : Failure) (v : State),
      l = l1 ++ a :: l2 ∧ FailedAt l1 a es f s v ∧ runProgram (l.map Micro.access) s = (f.status, v) := by
  induction l generalizing s with
  | nil => exact .inl ⟨[], s, rfl, Exchanged.refl s, rfl⟩
  | cons a l ih =>
    have hcons : runProgram ((a :: l).map Micro.access) s = _ := runProgram_cons (.access a) (l.map Micro.access) s
    rcases accessRun_ends a s with ⟨e, t, he, -, hw, hrun⟩ | ⟨f, t, hf, hw, hrun⟩
    · have hstore : a.store (if a.value.isNone then e.data else Config.sentinel) t = a.store e.data t := by
        cases hv : a.value with
        | none => rfl
        | some w =>
          have hsink : a.sink = .drop := hdrop a (List.mem_cons_self ..) (by rw [hv]; nofun)
          rw [Access.store, Access.store, hsink]
      simp only [Micro.run, hrun, hstore, if_true] at hcons
      rw [hcons]
      have hdrop' := fun b hb => hdrop b (List.mem_cons_of_mem _ hb)
      have hfree' : FreesLast l := fun b hb => hfree b (by
        cases l with
        | nil => cases hb
        | cons c l => exact List.mem_cons_of_mem _ hb)
      rcases ih hdrop' hfree' (a.store e.data t) with
        ⟨es, u, hes, hx, hr⟩ | ⟨l1, l2, x, es, f, v, rfl, hfailed, hr⟩
      · refine .inl ⟨e :: es, u, ?_, hx.cons hfree hw, hr⟩
        rw [List.map_cons, he, hes]; rfl
      · obtain ⟨hes, hf, w, u, hx, hends⟩ := hfailed
        refine .inr ⟨a :: l1, l2, x, e :: es, f, v, rfl, ⟨?_, hf, w, u, ?_, hends⟩, hr⟩
        · rw [List.map_cons, he, hes]; rfl
        · refine hx.cons (freesLast_of_none ?_) hw
          exact FreesLast.before (a := x) (l2 := l2) hfree
    · have hfail : (Micro.access a).run s = (f.status, a.spoil (diagnosed f t)) := by
        simp only [Micro.run, hrun, if_neg (failure_status_ne_ok hf)]
      rw [hfail, if_neg (failure_status_ne_ok hf)] at hcons
      exact .inr ⟨[], l, a, [], f, _, rfl, ⟨rfl, hf, s, t, Exchanged.refl s, hfail, hw, rfl⟩, hcons⟩

/-- A memory command in a session, whatever the samples. -/
theorem exec_memory_ends (h : commandSpec i = some c) (hi : isMemory i = true) (hb : s.port.busy = false)
    (hs : s.pins.bound = true) (hn : i = .peekMany ∨ i = .pokeMany → s.port.argCount ≤ Config.bufDepth)
    (hp : c.program s.latchOperands = l.map Micro.access) (ht : exec i s = .next t) :
    (∃ (es : List Exchange) (u : State), es.map Exchange.access = accessList s.port i ∧
      Exchanged l (es.map Exchange.data) (es.flatMap Exchange.calls) s.latchOperands u ∧
      t = endCommand c.valued .ok u) ∨
    ∃ (l1 l2 : List Access) (a : Access) (es : List Exchange) (f : Failure) (v : State),
      l = l1 ++ a :: l2 ∧ FailedAt l1 a es f s.latchOperands v ∧ t = endCommand c.valued f.status v := by
  obtain ⟨hkey, hdrop, hfree⟩ := memory_accesses h hi hn hp
  rcases runProgram_ends hdrop hfree s.latchOperands with
    ⟨es, u, hes, hx, hrun⟩ | ⟨l1, l2, a, es, f, v, hl, hfailed, hrun⟩
  all_goals
    rw [← hp] at hrun
    obtain rfl := Host.Outcome.next.inj (ht.symm.trans (exec_memory h hi hb hs hn hrun))
  · exact .inl ⟨es, u, hes.trans hkey, hx, rfl⟩
  · exact .inr ⟨l1, l2, a, es, f, v, hl, hfailed, rfl⟩

/-! ## The word index -/

theorem xferRead_idx (r : RegAddr) (s : State) : (xferRead r s).state.seq.idx = s.seq.idx := by
  rw [xferRead_cases]
  dsimp only
  split
  · split <;> rfl
  · rfl

theorem retry_idx {xfer : State → Res} (hx : ∀ s, (xfer s).state.seq.idx = s.seq.idx) (n : Nat) (s : State) :
    (retry xfer n s).state.seq.idx = s.seq.idx := by
  induction n generalizing s with
  | zero => rfl
  | succ n ih =>
    rw [retry_succ]
    split
    · rw [ih, hx]; rfl
    · rw [hx]; rfl

theorem accessRun_write {a : Access} {w : Word} (h : a.value = some w) (s : State) :
    a.run s = accessWrite a.reg w (a.begin s) := by rw [Access.run, h]

theorem accessRun_read {a : Access} (h : a.value = none) (s : State) : a.run s = accessRead a.reg (a.begin s) := by
  rw [Access.run, h]

/-- S.idx is written when an access begins, and by nothing else in it (43 R198). -/
theorem access_idx (a : Access) (s : State) : (a.run s).state.seq.idx = a.idx.getD s.seq.idx := by
  cases h : a.value with
  | some v =>
    rw [accessRun_write h, accessWrite, retry_idx fun s => (xferWrite_ack a.reg v s).2]
    rfl
  | none =>
    rw [accessRun_read h, accessRead, retry_idx (xferRead_idx a.reg)]
    rfl

theorem spoil_seq (a : Access) (s : State) : (a.spoil s).seq = s.seq := by
  unfold Access.spoil
  split
  · rfl
  · split <;> rfl

/-- A failed access leaves S.idx as it began. -/
theorem FailedAt.idx (h : FailedAt l1 a es f s v) {n : Nat} (hn : a.idx = some n) : v.seq.idx = n := by
  obtain ⟨t, u, -, hrun, -⟩ := h.ends
  have hne : (a.run t).status ≠ .ok := by
    intro hok
    simp only [Micro.run, hok, if_true] at hrun
    exact failure_status_ne_ok h.possible (congrArg Prod.fst hrun).symm
  simp only [Micro.run, if_neg hne] at hrun
  obtain rfl : a.spoil (a.run t).state = v := congrArg Prod.snd hrun
  rw [spoil_seq, access_idx, hn, Option.getD_some]

/-! ## The words read -/

theorem wordsRead_cons {x : Call} (h : ∀ w, x ≠ .read 32 w) (cs : List Call) : wordsRead (x :: cs) = wordsRead cs := by
  rw [wordsRead]
  intro w b cs' hx
  exact absurd hx (h w)

/-- Calls that read no data word bring none. -/
theorem wordsRead_append {ps : List Call} (h : ∀ w, Call.read 32 w ∉ ps) (cs : List Call) :
    wordsRead (ps ++ cs) = wordsRead cs := by
  induction ps with
  | nil => rfl
  | cons x ps ih =>
    rw [List.cons_append, wordsRead_cons fun w hx => h w (hx ▸ List.mem_cons_self ..)]
    exact ih fun w hw => h w (List.mem_cons_of_mem _ hw)

theorem wordsRead_ended (r : RegAddr) (rnw : Bool) (x : BitVec 3) (cs : List Call) :
    wordsRead (endedCalls r rnw x ++ cs) = wordsRead cs := wordsRead_append (by simp [endedCalls]) cs

theorem wordsRead_waits (r : RegAddr) (rnw : Bool) (k : Nat) (cs : List Call) :
    wordsRead (waitCalls r rnw k ++ cs) = wordsRead cs := by
  induction k with
  | zero => rfl
  | succ k ih =>
    rw [waitCalls_eq, waitPadded_succ, List.append_assoc]
    exact (wordsRead_ended r rnw 2#3 _).trans ih

theorem wordsRead_writeOk (r : RegAddr) (w : Word) (cs : List Call) :
    wordsRead (writeOkCalls r w ++ cs) = wordsRead cs := wordsRead_append (by simp [writeOkCalls, endedCalls]) cs

theorem levelWord_inj (a b : Bool) : levelWord a = levelWord b ↔ a = b := by
  revert a b
  decide

/-- A read with the right parity brings its data, one with the wrong parity nothing (42 R164). -/
theorem wordsRead_read (r : RegAddr) (d : Word) (p : Bool) (cs : List Call) :
    wordsRead (readCallsOf r d p ++ cs) = if p = parity d then d :: wordsRead cs else wordsRead cs := by
  have hsplit : readCallsOf r d p ++ cs = prefixCalls (req r true) 1#32 ++
      Call.read 32 d :: Call.read 1 (levelWord p) :: Call.turn .output :: Call.pad :: cs := rfl
  rw [hsplit, wordsRead_append (by simp [prefixCalls]), wordsRead]
  simp only [levelWord_inj]
  rw [wordsRead_cons (by simp), wordsRead_cons (by simp)]

theorem wordsRead_exchange (e : Exchange) (cs : List Call) :
    wordsRead (e.calls ++ cs) = if e.value.isNone then e.data :: wordsRead cs else wordsRead cs := by
  obtain ⟨r, value, k, d⟩ := e
  cases value with
  | some w =>
    exact (congrArg wordsRead (List.append_assoc ..)).trans
      ((wordsRead_waits r false k _).trans (wordsRead_writeOk r w cs))
  | none =>
    refine (congrArg wordsRead (List.append_assoc ..)).trans ((wordsRead_waits r true k _).trans ?_)
    exact (wordsRead_read r d (parity d) cs).trans (if_pos rfl)

/-- A failed access brings no word. -/
theorem wordsRead_failure (f : Failure) (r : RegAddr) (value : Option Word) : wordsRead (f.calls r value) = [] := by
  rw [← List.append_nil (f.calls r value)]
  cases f with
  | stalled => exact wordsRead_waits r value.isNone _ []
  | badAck k x =>
    exact (congrArg wordsRead (List.append_assoc ..)).trans
      ((wordsRead_waits r value.isNone k _).trans (wordsRead_ended r value.isNone x []))
  | badParity k d =>
    refine (congrArg wordsRead (List.append_assoc ..)).trans ((wordsRead_waits r true k _).trans ?_)
    exact (wordsRead_read r d (!parity d) []).trans (if_neg (by simp))

theorem wordsRead_reads (h : ∀ e ∈ es, e.value = none) (cs : List Call) :
    wordsRead (es.flatMap Exchange.calls ++ cs) = es.map Exchange.data ++ wordsRead cs := by
  induction es with
  | nil => rfl
  | cons e es ih =>
    rw [List.flatMap_cons, List.append_assoc, wordsRead_exchange, h e (List.mem_cons_self ..),
      ih fun x hx => h x (List.mem_cons_of_mem _ hx)]
    rfl

end

/-! ## PEEK_MANY -/

/-- The accesses of PEEK_MANY: the first a write, the others reads (43 R198). -/
theorem peekMany_values (addr : Word) (n : Nat) :
    ∃ l, peekManyAccesses addr n = ⟨Params.regTar, some addr, .drop, some 0, some 0⟩ :: l ∧
      ∀ a ∈ l, a.value = none := by
  cases n with
  | zero => exact ⟨[], rfl, nofun⟩
  | succ n => exact ⟨_, rfl, by simp +contextual [drain, or_imp]⟩

/-- The words read are the data of its accesses but for the first. -/
theorem wordsRead_peekMany {addr : Word} {n : Nat} {l1 l2 : List Access} {es : List Exchange} {cs : List Call}
    (hl : peekManyAccesses addr n = l1 ++ l2) (hes : es.map Exchange.access = l1.map Access.key)
    (hcs : wordsRead cs = []) :
    wordsRead (es.flatMap Exchange.calls ++ cs) = (es.map Exchange.data).tail := by
  obtain ⟨l, hcons, hvalues⟩ := peekMany_values addr n
  rw [hl] at hcons
  cases es with
  | nil => exact hcs
  | cons e es =>
    obtain ⟨a, l1, rfl, ha, htail⟩ := List.map_eq_cons_iff.1 hes.symm
    obtain ⟨rfl, rfl⟩ := List.cons.inj hcons
    have hvalue : e.value = some addr := congrArg Prod.snd ha.symm
    have hreads : ∀ x ∈ es, x.value = none := by
      intro x hx
      obtain ⟨b, hb, hbx⟩ := List.mem_map.1 (htail ▸ List.mem_map_of_mem hx : x.access ∈ l1.map Access.key)
      exact (congrArg Prod.snd hbx).symm.trans (hvalues b (List.mem_append_left _ hb))
    rw [List.flatMap_cons, List.append_assoc, wordsRead_exchange, hvalue, wordsRead_reads hreads, hcs]
    exact List.append_nil _

/-- The calls of a command are those of its accesses. -/
theorem Traced.newCalls {ps : List Call} {s t : State} (h : Traced ps s.latchOperands t) (v : Bool) (st : Status) :
    (endCommand v st t).callsMade.drop s.callsMade.length = ps := by
  simp [State.callsMade, h.calls]

/-- Settles O36: the accesses are all answered OK, or up to the one that fails, and the words read are the data of the
reads. -/
theorem peekManyKeepsInsideItsRange : Obligations.PeekManyKeepsInsideItsRange := by
  intro s t ds hb hs hn ht hds
  have hp := peekManyProgram_eq s.latchOperands
  rcases exec_memory_ends (i := .peekMany) rfl rfl hb hs (fun _ => hn) hp ht with
    ⟨es, u, hes, hx, rfl⟩ | ⟨l1, l2, a, es, f, v, hl, hfailed, rfl⟩
  · obtain ⟨hkey, -⟩ := memory_accesses (i := .peekMany) rfl rfl (fun _ => hn) hp
    have hlen := congrArg List.length (hes.trans hkey.symm)
    obtain ⟨n, hbuf⟩ := hx.buf
    obtain ⟨hwords, hnone, hfree⟩ := peekMany_fills (by simpa using hlen) hn hbuf
    refine ⟨fun _ => ⟨fun i hi => ?_, hnone, hfree⟩, fun hst => absurd rfl hst⟩
    have hdata : ds = (es.map Exchange.data).tail := by
      have hwordsRead := wordsRead_peekMany (List.append_nil _).symm (hes.trans hkey.symm) (cs := []) rfl
      rw [hds, hx.traced.newCalls, ← hwordsRead, List.append_nil]
    have hlt : i + 2 < (es.map Exchange.data).length := peekManyAccesses_reach (by simpa using hlen) hi
    exact ⟨_, by rw [hdata, List.getElem?_tail, List.getElem?_eq_getElem hlt],
      (hwords i hi).trans (List.getElem?_eq_getElem hlt)⟩
  · have hdata : ds = (es.map Exchange.data).tail := by
      rw [hds, hfailed.traced.newCalls]
      exact wordsRead_peekMany hl hfailed.accesses (wordsRead_failure f _ _)
    have hlen : es.length = l1.length := by simpa using congrArg List.length hfailed.accesses
    have hidx : (endCommand peekManyCommand.valued f.status v).seq.idx = es.length - 2 :=
      hlen ▸ hfailed.idx (fetching_of_split hl).2
    obtain ⟨hat, hbelow, hfree⟩ := hfailed.peekMany hl hn
    refine ⟨fun hst => absurd ((code_eq_ok _).1 hst) (failure_status_ne_ok hfailed.possible), fun _ => ?_⟩
    rw [hidx]
    refine ⟨by rw [hdata, List.length_tail, List.length_map]; omega, fun hpos => ⟨?_, hat hpos⟩, fun i hi => ?_, hfree⟩
    · have hle : l1.length ≤ s.port.argCount + 1 := (before_length_le hl).1
      omega
    · have hlt : i + 2 < (es.map Exchange.data).length := by rw [List.length_map]; omega
      refine ⟨_, by rw [hdata, List.getElem?_tail, List.getElem?_eq_getElem hlt], ?_⟩
      rw [← List.getElem?_eq_getElem hlt, List.getElem?_map]
      exact hbelow i hi

end Sys2Proof.Machine
end

section
/-! PROOFS. Accesses at a peer (10 R39 to R46, 20 R56, R58, R62): what the answers of a memory access port on a ready link
can have been, and what the writes of POKE_MANY do to it, up to the one that fails (43 R204, R205). They settle O34. -/

namespace Sys2Proof.Machine

open Sys2Proof.Safety

/-! ## What the answers can have been -/

section

variable {p q : MemPeer} {k n : Nat} {c : Component} {g : Regs} {r : RegAddr} {reg : PeerReg} {d w a : Word}
  {e : Exchange} {es : List Exchange}

theorem serves_of_active (hl : p.link = .ready) (ha : p.active = some k) : p.Serves k (p.parts k) p.now :=
  ⟨hl, ha, rfl, by rw [MemPeer.now, ha, Option.map_some, Option.getD_some]⟩

theorem serves_of_component (hl : p.link = .ready) (hc : p.component = some c) : ∃ k, p.Serves k c p.now := by
  obtain ⟨k, ha, rfl⟩ := Option.map_eq_some_iff.1 hc
  exact ⟨k, serves_of_active hl ha⟩

/-- A peer that has heard a list of calls has heard the first ones. -/
theorem follow_split {cs ds : List Call} (h : p.follow (cs ++ ds) = some q) :
    ∃ p1, p.follow cs = some p1 ∧ p1.follow ds = some q := by
  rw [follow_append] at h
  exact Option.bind_eq_some_iff.1 h

/-- The first access of a list, and the others. -/
theorem follow_first {key : RegAddr × Option Word} {keys : List (RegAddr × Option Word)}
    (hlist : es.map Exchange.access = key :: keys) (hq : p.follow (es.flatMap Exchange.calls) = some q) :
    ∃ e fs p1, es = e :: fs ∧ e.access = key ∧ fs.map Exchange.access = keys ∧ p.follow e.calls = some p1 ∧
      p1.follow (fs.flatMap Exchange.calls) = some q := by
  obtain ⟨e, fs, rfl, he, hfs⟩ := List.map_eq_cons_iff.1 hlist
  rw [List.flatMap_cons] at hq
  obtain ⟨p1, h1, h2⟩ := follow_split hq
  exact ⟨e, fs, p1, rfl, he, hfs, h1, h2⟩

/-- A write answered OK of a register of the component that answers. -/
theorem MemPeer.Serves.wrote {g' : Regs} (h : p.Serves k c g) (he : e.access = (r, some w))
    (hq : p.follow e.calls = some q) (hs : selectsTarget r false = false) (hr : c.shown g.select r false = some reg)
    (hg : g.settle.write c reg w = some g') : q.Serves k c g' := by
  obtain ⟨r', v, n, d⟩ := e
  obtain ⟨rfl, rfl⟩ := Prod.mk.inj he
  obtain ⟨q', hq', hserves⟩ := h.followWrite r' w n d reg g' hs hr hg
  obtain rfl := Option.some.inj (hq.symm.trans hq')
  exact hserves

/-- A read access that a peer has answered OK brought a word that the peer may send. -/
theorem MemPeer.Serves.carried (h : p.Serves k c g) (he : e.access = (r, none)) (hq : p.follow e.calls = some q) :
    (p.carries r).all (e.data == ·) = true := by
  obtain ⟨r', v, n, d⟩ := e
  obtain ⟨rfl, rfl⟩ := Prod.mk.inj he
  obtain ⟨p1, hp1, h1⟩ := h.waits r' true n (Bool.and_false _)
  replace hq : p1.follow (readOkCalls r' d) = some q := (follow_next hp1).symm.trans hq
  rw [follow_readOk] at hq
  split at hq
  · next hs => rwa [h.carries, ← h1.carries]
  · cases hq

/-- An AP read answered OK: the word is the posted one, if that is known (20 R58). -/
theorem MemPeer.Serves.readAp (h : p.Serves k c g) (he : e.access = (r, none)) (hq : p.follow e.calls = some q)
    (ha : r.sel = .ap) (hr : c.shown g.select r true = some reg) :
    g.posted.all (e.data == ·) = true ∧ q.Serves k c (g.settle.read c reg) := by
  have hposted := h.carried he hq
  rw [h.carries, if_pos (.inl ha)] at hposted
  obtain ⟨r', v, n, d⟩ := e
  obtain ⟨rfl, rfl⟩ := Prod.mk.inj he
  obtain ⟨q', hq', hs⟩ := h.followReadAp r' n d reg _ ha hr hposted rfl
  obtain rfl := Option.some.inj (hq.symm.trans hq')
  exact ⟨hposted, hs⟩

/-- A DP read answered OK (20 R58). -/
theorem MemPeer.Serves.readDp (h : p.Serves k c g) (he : e.access = (r, none)) (hq : p.follow e.calls = some q)
    (hd : r.sel = .dp) : q.Serves k c g.settle := by
  have hcarried := h.carried he hq
  obtain ⟨r', v, n, d⟩ := e
  obtain ⟨rfl, rfl⟩ := Prod.mk.inj he
  replace hd : r'.sel = .dp := hd
  rw [h.carries] at hcarried
  obtain ⟨q', hq', hs⟩ := h.followReadDp r' n d hd (by simpa [hd] using hcarried)
  obtain rfl := Option.some.inj (hq.symm.trans hq')
  exact hs

/-- A read of RDBUFF answered OK: the word is the posted one, if that is known (20 R58, R62). -/
theorem MemPeer.Serves.readRdbuff (h : p.Serves k c g) (he : e.access = (r, none)) (hq : p.follow e.calls = some q)
    (hr : c.shown g.select r true = some .rdbuff) : g.posted.all (e.data == ·) = true := by
  have hposted := h.carried he hq
  rwa [h.carries, if_pos (.inr hr)] at hposted

theorem settle_of_none (h : g.pending = none) : g.settle = g := by rw [Regs.settle, h]

/-- A word that matches what is known is the known word. -/
theorem eq_of_all {o : Option Word} (h : o.all (d == ·) = true) (ho : o = some w) : d = w := by
  rw [ho] at h
  exact beq_iff_eq.1 h

/-! ## POKE_MANY -/

/-- The address write and then writes of the data register, answered OK (43 R204). -/
theorem MemPeer.Serves.followPokeMany (h : p.Serves k c g) (ha : a.extractLsb' 0 2 = 0#2) (hn : 4 * n ≤ 2 ^ 32)
    {ws : List Word} (hlen : ws.length ≤ n)
    (hlist : es.map Exchange.access = (Params.ap4, some a) :: ws.map fun w => (Params.apC, some w))
    (hc : g.csw = some Config.cswWord) (htar : c.shown g.select Params.ap4 false = some .tar)
    (hdrw : c.shown g.select Params.apC false = some .drw)
    (hends : ∀ i, i < ws.length → c.ends (a + BitVec.ofNat 32 (4 * i)) = false) :
    ∃ q g', p.follow (es.flatMap Exchange.calls) = some q ∧ q.Serves k c g' ∧ g'.csw = g.csw ∧ g'.select = g.select ∧
      g'.tar = some (a + BitVec.ofNat 32 (4 * ws.length)) ∧
      (∀ i, i < ws.length → g'.settle.mem (a + BitVec.ofNat 32 (4 * i)) = ws[i]?) ∧
      ∀ b, (∀ i, i < ws.length → b ≠ a + BitVec.ofNat 32 (4 * i)) → g'.settle.mem b = g.settle.mem b := by
  obtain ⟨⟨er, ev, wt, d⟩, es, rfl, he, hes⟩ := List.map_eq_cons_iff.1 hlist
  obtain ⟨rfl, rfl⟩ := Prod.mk.inj he
  have hlen' : es.length = ws.length := by simpa using congrArg List.length hes
  obtain ⟨p1, f1, s1⟩ := h.followWrite Params.ap4 a wt d .tar { g.settle with tar := some a } rfl htar rfl
  obtain ⟨q, g', f2, s2, h1, h2, h3, h4, h5⟩ := s1.followWords n ha hn es ws 0 (by omega) hes
    ((settle_csw g).trans hc) (by rw [settle_select]; exact hdrw) (by simp) (fun i _ hi => hends i (by omega))
  have hmem : ({ g.settle with tar := some a } : Regs).settle.mem = g.settle.mem := by
    rw [settle_of_none (g := { g.settle with tar := some a }) (settle_pending g)]
  simp only [hlen', Nat.zero_add] at h3 h4 h5
  exact ⟨q, g', (follow_next f1).trans f2, s2, by rw [h1, settle_csw], by rw [h2, settle_select], h3, h4,
    fun b hb => (h5 b fun i _ hi => hb i hi).trans (congrFun hmem b)⟩

/-- A write of the data register that fails (43 R205, 60 R229): no other word is touched, and after FAULT not that one
either (95 V109). -/
theorem MemPeer.Serves.followFailedDrw {f : Failure} (h : p.Serves k c g)
    (hdrw : c.shown g.select Params.apC false = some .drw) (ha : g.address = some a) (hf : f.possible (some w)) :
    ∃ q, p.follow (f.calls Params.apC (some w)) = some q ∧
      ∀ b, (f.status ≠ .fault → b ≠ a) → (q.regs k).settle.mem b = g.settle.mem b := by
  obtain ⟨q, hq, hstalled, hbad⟩ := h.followFailedWrite Params.apC w f .drw rfl hdrw hf
  refine ⟨q, hq, fun b hb => ?_⟩
  cases f with
  | stalled => rw [(hstalled rfl).regs]
  | badParity j d => exact absurd hf.2 nofun
  | badAck j x =>
    have hne : (x == 4#3) = false → b ≠ a := fun hx => hb (by
      rw [Failure.status, if_neg (by simpa using hx)]; nofun)
    obtain ⟨g', hg', hmem⟩ := failedWrite_keeps (x == 4#3) ha hne
    rw [(hbad j x g' rfl hg').2, flagged_settle_mem, hmem]

end

theorem buf_take_getElem? {s : State} {n i : Nat} (hi : i < n) :
    (s.port.buf.toList.take n)[i]? = s.port.buf[i]? := by
  rw [List.getElem?_take_of_lt hi]
  simp

/-- The accesses of POKE_MANY before the write of a word w: the address, and the words before w (43 R204). -/
theorem pokeMany_words {port : Port} {es : List Exchange} {w : Word} {post : List (RegAddr × Option Word)}
    (hlist : accessList port .pokeMany = es.map Exchange.access ++ (Params.apC, some w) :: post) :
    ∃ ws vs : List Word,
      es.map Exchange.access = (Params.ap4, some port.argAddr) :: ws.map (fun w => (Params.apC, some w)) ∧
      port.buf.toList.take port.argCount = ws ++ w :: vs := by
  cases es with
  | nil => cases hlist
  | cons e es =>
    obtain ⟨he, hlist⟩ := List.cons.inj hlist
    obtain ⟨ws, vs, hws, h1, h2⟩ := List.map_eq_append_iff.1 hlist
    obtain ⟨x, vs, rfl, hx, -⟩ := List.map_eq_cons_iff.1 h2
    obtain rfl := Option.some.inj (Prod.mk.inj hx).2
    exact ⟨ws, vs, by rw [h1, he]; rfl, hws⟩

/-- Settles O34: with every access answered OK it is a list of write accesses; when the write of a word fails, the peer has
heard the address and the words before it, and then that write. -/
theorem pokeManyWritesTheBuffer : Obligations.PokeManyWritesTheBuffer := by
  refine ⟨fun s es rest hb hs hn he ha => exec_answered_poke (.inr rfl) hb hs (fun _ => hn) he ha, ?_⟩
  intro s es w post f rest p n hb hs hn hspace haligned hlist hf ha hlink hactive hcsw htar hdrw hends
  obtain ⟨l1, l2, a, v, hp, hak, hfailed, -, ht, -⟩ :=
    exec_fails (i := .pokeMany) rfl rfl hb hs (fun _ => hn) hlist hf ha
  obtain ⟨hreg, hvalue⟩ := Prod.mk.inj hak
  have hserves := serves_of_active hlink hactive
  rw [hserves.shown] at htar hdrw
  obtain ⟨ws, post', hes, hws⟩ := pokeMany_words hlist
  have hlen : es.length = ws.length + 1 := by simpa using congrArg List.length hes
  have hcount : ws.length < s.port.argCount := by
    have htake := congrArg List.length hws
    rw [List.length_take, List.length_append, List.length_cons] at htake
    omega
  obtain ⟨p1, g1, f1, s1, h1, h2, h3, h4, h5⟩ := hserves.followPokeMany haligned hspace (Nat.le_of_lt hcount) hes hcsw
    htar hdrw (fun i hi => hends i (by omega))
  obtain ⟨q, f2, hmem⟩ := s1.followFailedDrw (by rwa [h2])
    (address_aligned h3 (h1.trans hcsw) (offset_aligned ws.length haligned)) hf
  refine ⟨_, q, ht, rfl, ?_, fun i hi => ?_, fun hfault b hb => ?_⟩
  · rw [hfailed.traced.newCalls, hreg, hvalue]
    exact (follow_next f1).trans f2
  · have hi : i < ws.length := by omega
    rw [hmem _ fun _ => offset_ne _ hspace (by omega) hcount (by omega), h4 i hi,
      ← buf_take_getElem? (n := s.port.argCount) (by omega), hws, List.getElem?_append_left hi]
  · rw [hmem b fun hne => absurd hfault hne, h5 b fun i hi => hb i (by omega), hserves.regs]

end Sys2Proof.Machine
end

section
/-! PROOFS. Memory commands that succeed at a peer (43 R191, R207): POKE_MANY and PEEK_MANY of the same words, and
SETUP_MEM. They settle O37 and O38. -/

namespace Sys2Proof.Machine

open Sys2Proof.Safety

/-! ## A command that succeeded -/

section

variable {i : Instr} {c : Command} {s t : State}

/-- A command that is not refused has passed its tests (60 R226 (6)). -/
theorem count_of_ok (h : commandSpec i = some c) (hb : s.port.busy = false) (ht : exec i s = .next t)
    (hok : t.port.status = Status.code .ok) : i = .peekMany ∨ i = .pokeMany → s.port.argCount ≤ Config.bufDepth := by
  rw [exec_command i c h] at ht
  rcases runCommand_cases c s hb with ⟨x, -, e⟩ | ⟨hrefusal, -⟩
  · rw [e] at ht
    cases ht
    exact absurd ((code_eq_ok .refused).1 hok) nofun
  · obtain ⟨hown, -⟩ := (refusal_none_iff c _).1 hrefusal
    exact ((own_none_iff i c h s).1 hown).2.2.2

/-- A memory command that succeeded had every access answered OK. -/
theorem exec_memory_ok (h : commandSpec i = some c) (hi : isMemory i = true) (hb : s.port.busy = false)
    (hs : s.pins.bound = true) (ht : exec i s = .next t) (hok : t.port.status = Status.code .ok) :
    ∃ (l : List Access) (es : List Exchange) (u : State), c.program s.latchOperands = l.map Micro.access ∧
      es.map Exchange.access = accessList s.port i ∧ es.map Exchange.access = l.map Access.key ∧
      Exchanged l (es.map Exchange.data) (es.flatMap Exchange.calls) s.latchOperands u ∧
      t.callsMade.drop s.callsMade.length = es.flatMap Exchange.calls ∧ t = endCommand c.valued .ok u := by
  have hn := count_of_ok h hb ht hok
  obtain ⟨l, hp, -⟩ := program_accessList i c h s (accessList_ne_nil _ hi) hn
  obtain ⟨hkey, -⟩ := memory_accesses h hi hn hp
  rcases exec_memory_ends h hi hb hs hn hp ht with ⟨es, u, hes, hx, rfl⟩ | ⟨l1, l2, a, es, f, v, -, hfailed, rfl⟩
  · exact ⟨l, es, u, hp, hes, hes.trans hkey.symm, hx, hx.traced.newCalls c.valued .ok, rfl⟩
  · exact absurd ((code_eq_ok _).1 hok) (failure_status_ne_ok hfailed.possible)

/-- PEEK_MANY that succeeded: BUF[i] is the word of its access i + 2 (43 R198). -/
theorem peekMany_ok (hb : s.port.busy = false) (hs : s.pins.bound = true) (ht : exec .peekMany s = .next t)
    (hok : t.port.status = Status.code .ok) :
    ∃ es : List Exchange, es.map Exchange.access = accessList s.port .peekMany ∧
      t.callsMade.drop s.callsMade.length = es.flatMap Exchange.calls ∧
      ∀ i, i < s.port.argCount → t.port.buf[i]? = es[i + 2]?.map Exchange.data := by
  have hn := count_of_ok (i := .peekMany) rfl hb ht hok (.inl rfl)
  obtain ⟨l, es, u, hp, hlist, hkey, hx, hcalls, rfl⟩ := exec_memory_ok (i := .peekMany) rfl rfl hb hs ht hok
  obtain rfl := accesses_injective ((peekManyProgram_eq _).symm.trans hp)
  obtain ⟨n, hbuf⟩ := hx.buf
  obtain ⟨hwords, -⟩ := peekMany_fills (by simpa using congrArg List.length hkey) hn hbuf
  exact ⟨es, hlist, hcalls, fun i hi => (hwords i hi).trans List.getElem?_map⟩

end

/-! ## Reads of the data register -/

/-- What read number j of the data register brings, the first at word m of those from address a on (20 R58): what was
posted before, and then the words. -/
def fetchedWord (g : Regs) (a : Word) (m : Nat) : Nat → Option Word
  | 0 => g.posted
  | j + 1 => g.mem (a + BitVec.ofNat 32 (4 * (m + j)))

theorem fetchedWord_next (g : Regs) (a : Word) (m : Nat) (t : Option Word) (j : Nat) :
    fetchedWord { g with posted := g.mem (a + BitVec.ofNat 32 (4 * m)), tar := t } a (m + 1) j =
      fetchedWord g a m (j + 1) := by
  cases j with
  | zero => rfl
  | succ j => rw [fetchedWord, fetchedWord, Nat.add_assoc, Nat.add_comm 1]

section

variable {p q : MemPeer} {k n : Nat} {c : Component} {g : Regs} {a : Word} {es : List Exchange}

/-- Reads of the data register at TAR and on, answered OK (10 R43, 20 R58, R62): what they bring, and what they leave
posted. -/
theorem MemPeer.Serves.readWords (ha : a.extractLsb' 0 2 = 0#2) (m : Nat) (h : p.Serves k c g)
    (hes : ∀ e ∈ es, e.access = (Params.apC, none)) (hpending : g.pending = none) (hc : g.csw = some Config.cswWord)
    (hr : c.shown g.select Params.apC true = some .drw) (ht : g.tar = some (a + BitVec.ofNat 32 (4 * m)))
    (hends : ∀ i, m ≤ i → i < m + es.length → c.ends (a + BitVec.ofNat 32 (4 * i)) = false)
    (hq : p.follow (es.flatMap Exchange.calls) = some q) :
    ∃ g', q.Serves k c g' ∧ g'.select = g.select ∧ g'.tar = some (a + BitVec.ofNat 32 (4 * (m + es.length))) ∧
      g'.posted = fetchedWord g a m es.length ∧
      ∀ j e, es[j]? = some e → (fetchedWord g a m j).all (e.data == ·) = true := by
  induction es generalizing p g m with
  | nil =>
    obtain rfl := Option.some.inj hq
    exact ⟨g, h, rfl, ht, rfl, nofun⟩
  | cons e es ih =>
    rw [List.flatMap_cons] at hq
    obtain ⟨p1, f1, f2⟩ := follow_split hq
    obtain ⟨hd, s1⟩ := h.readAp (hes e (List.mem_cons_self ..)) f1 rfl hr
    rw [settle_of_none hpending] at s1
    simp only [Regs.read, fetch_aligned c ht hc (offset_aligned m ha),
      advanced_within (hends m (Nat.le_refl _) (by simp)), offset_succ] at s1
    obtain ⟨g', hserves, hselect, htar, hposted, hwords⟩ := ih (m + 1) s1 (fun e he => hes e (List.mem_cons_of_mem _ he))
      hpending hc hr rfl (fun i hi hj => hends i (by omega) (by simp; omega)) f2
    rw [fetchedWord_next] at hposted
    refine ⟨g', hserves, hselect, ?_, hposted, fun j e he => ?_⟩
    · rw [htar, List.length_cons, Nat.add_assoc, Nat.add_comm 1]
    · cases j with
      | zero => obtain rfl := Option.some.inj he; exact hd
      | succ j => rw [← fetchedWord_next]; exact hwords j e he

/-- PEEK_MANY answered OK (43 R198): word i is what the memory held, any write still pending having taken effect with the
address write (20 R67). -/
theorem MemPeer.Serves.readPeekMany (ha : a.extractLsb' 0 2 = 0#2) (h : p.Serves k c g)
    (hlist : es.map Exchange.access = (Params.ap4, some a) ::
      if n = 0 then [] else List.replicate n (Params.apC, none) ++ [(Params.dpC, none)])
    (hc : g.csw = some Config.cswWord) (htar : c.shown g.select Params.ap4 false = some .tar)
    (hdrw : c.shown g.select Params.apC true = some .drw) (hrdbuff : c.shown g.select Params.dpC true = some .rdbuff)
    (hends : ∀ i, i < n → c.ends (a + BitVec.ofNat 32 (4 * i)) = false)
    (hq : p.follow (es.flatMap Exchange.calls) = some q) :
    q.now.tar = some (a + BitVec.ofNat 32 (4 * n)) ∧
      ∀ i, i < n → ∀ w, g.settle.mem (a + BitVec.ofNat 32 (4 * i)) = some w → es[i + 2]?.map Exchange.data = some w := by
  obtain ⟨e, es, p1, rfl, he, hrest, f1, f2⟩ := follow_first hlist hq
  have s1 := h.wrote he f1 rfl htar (g' := { g.settle with tar := some a }) rfl
  split at hrest
  · next hn =>
    subst hn
    obtain rfl := List.map_eq_nil_iff.1 hrest
    obtain rfl := Option.some.inj f2
    exact ⟨by rw [s1.now]; simp, nofun⟩
  · next hn =>
    obtain ⟨reads, drains, rfl, hreads, hdrain⟩ := List.map_eq_append_iff.1 hrest
    have hlen : reads.length = n := by simpa using congrArg List.length hreads
    rw [List.flatMap_append] at f2
    obtain ⟨p2, f2, f3⟩ := follow_split f2
    obtain ⟨g2, s2, hselect, htar2, hposted, hwords⟩ := s1.readWords ha 0
      (fun e he => List.eq_of_mem_replicate (hreads ▸ List.mem_map_of_mem he)) (settle_pending g)
      ((settle_csw g).trans hc) (by rw [settle_select]; exact hdrw) (by simp) (fun i _ hi => hends i (by omega)) f2
    obtain ⟨e, ds, p3, rfl, he, hnil, f4, f5⟩ := follow_first hdrain f3
    obtain rfl := List.map_eq_nil_iff.1 hnil
    obtain rfl := Option.some.inj f5
    have hdata := s2.readRdbuff he f4 (by rw [hselect, settle_select]; exact hrdbuff)
    have s3 := s2.readDp he f4 rfl
    rw [hposted] at hdata
    refine ⟨by rw [s3.now, settle_tar, htar2, Nat.zero_add, hlen], fun i hi w hw => ?_⟩
    have hword : fetchedWord { g.settle with tar := some a } a 0 (i + 1) = some w := by
      rw [fetchedWord, Nat.zero_add]; exact hw
    show (reads ++ [_])[i + 1]?.map Exchange.data = some w
    obtain hi' | hi' : i + 1 < reads.length ∨ i + 1 = reads.length := by omega
    · rw [List.getElem?_append_left hi', List.getElem?_eq_getElem hi', Option.map_some,
        eq_of_all (hwords (i + 1) _ (List.getElem?_eq_getElem hi')) hword]
    · rw [← hi'] at hdata
      rw [hi', List.getElem?_concat_length, Option.map_some, eq_of_all hdata hword]

end

/-- Settles O37: after POKE_MANY the memory holds the words, and PEEK_MANY brings what the memory holds. -/
theorem memoryRoundTrip : Obligations.MemoryRoundTrip := by
  intro s t u b p q q' c hb hs hspace haligned hlink hcomp hcsw htar hdrw hrdbuff hends ht htok hq hu huok hq'
  obtain ⟨k, hserves⟩ := serves_of_component hlink hcomp
  rw [hserves.shown] at htar hrdbuff
  simp only [hserves.shown] at hdrw
  have hn := count_of_ok (i := .pokeMany) rfl hb ht htok (.inr rfl)
  obtain ⟨-, haddr, -, hcount, -, -, hsession, -⟩ := commandFrame .pokeMany _ s t rfl hb ht
  obtain ⟨hbound, -⟩ := hsession nofun nofun
  obtain ⟨l, es, v, -, hlist, -, -, hcalls, hend⟩ := exec_memory_ok (i := .pokeMany) rfl rfl hb hs ht htok
  obtain ⟨fs, hlist', hcalls', hwords⟩ := peekMany_ok (s := { t with port.buf := b }) (by rw [hend]; rfl)
    (hbound.trans hs) hu huok
  have hlen : (s.port.buf.toList.take s.port.argCount).length = s.port.argCount := by simpa using hn
  obtain ⟨q0, g, hq0, hg, hcsw', hselect, -, hmem, -⟩ := hserves.followPokeMany haligned hspace (Nat.le_of_eq hlen) hlist
    hcsw htar (hdrw false) (fun i hi => hends i (by omega))
  rw [hcalls] at hq
  obtain rfl := Option.some.inj (hq.symm.trans hq0)
  replace hq' : q.follow (fs.flatMap Exchange.calls) = some q' := hcalls' ▸ hq'
  simp only [accessList, haddr, hcount] at hlist' hwords
  obtain ⟨htar', hread⟩ := hg.readPeekMany haligned hlist' (hcsw'.trans hcsw) (by rwa [hselect])
    (by rw [hselect]; exact hdrw true) (by rwa [hselect]) hends hq'
  refine ⟨fun i hi => ?_, htar'⟩
  have hword : s.port.buf[i]? = some s.port.buf[i] := Vector.getElem?_eq_getElem (by omega)
  rw [hwords i hi, hword]
  refine hread i hi _ ?_
  rw [hmem i (by omega), buf_take_getElem? hi, hword]

/-! ## SETUP_MEM -/

/-- The ten accesses of SETUP_MEM, answered OK (43 R191): the read of RDBUFF brings the component's IDR (20 R58), and the
writes leave what they wrote. -/
theorem MemPeer.Serves.readSetupMem {p q : MemPeer} {k : Nat} {c : Component} {g : Regs} {es : List Exchange} {w : Word}
    {port : Port} (h : p.Serves k c g) (hlist : es.map Exchange.access = accessList port .setupMem)
    (hidr : c.idr = some w) (habort : ∀ b, c.shown b Params.dp0 false = some .abort)
    (hselect : ∀ b, c.shown b Params.dp8 false = some .select)
    (hctrlstat : ∀ b rnw, c.shown b Params.dp4 rnw = some .ctrlstat)
    (hrdbuff : ∀ b, c.shown b Params.dpC true = some .rdbuff)
    (hidrShown : c.shown (some Config.selectIdr) Params.apC true = some .idr)
    (hcswShown : c.shown (some Config.selectCsw) Params.ap0 false = some .csw)
    (hq : p.follow (es.flatMap Exchange.calls) = some q) :
    es[6]?.map Exchange.data = some w ∧ ∃ g', q.Serves k c g' ∧ g'.csw = some Config.cswWord ∧
      g'.select = some Config.selectIdle ∧ g'.sticky = some false := by
  obtain ⟨e0, es, p0, rfl, he, hlist, f, hq⟩ := follow_first hlist hq
  have s0 := h.wrote he f rfl (habort _) (write_abort _ _)
  obtain ⟨e1, es, p1, rfl, he, hlist, f, hq⟩ := follow_first hlist hq
  have s1 := s0.wrote he f rfl (hselect _) rfl
  obtain ⟨e2, es, p2, rfl, he, hlist, f, hq⟩ := follow_first hlist hq
  have s2 := s1.wrote he f rfl (hctrlstat _ _) (write_ctrlstat _ _)
  obtain ⟨e3, es, p3, rfl, he, hlist, f, hq⟩ := follow_first hlist hq
  have s3 := s2.readDp he f rfl
  obtain ⟨e4, es, p4, rfl, he, hlist, f, hq⟩ := follow_first hlist hq
  have s4 := s3.wrote he f rfl (hselect _) rfl
  obtain ⟨e5, es, p5, rfl, he, hlist, f, hq⟩ := follow_first hlist hq
  have s5 := (s4.readAp he f rfl hidrShown).2
  obtain ⟨e6, es, p6, rfl, he, hlist, f, hq⟩ := follow_first hlist hq
  have hdata := s5.readRdbuff he f (hrdbuff _)
  have s6 := s5.readDp he f rfl
  obtain ⟨e7, es, p7, rfl, he, hlist, f, hq⟩ := follow_first hlist hq
  have s7 := s6.wrote he f rfl (hselect _) rfl
  obtain ⟨e8, es, p8, rfl, he, hlist, f, hq⟩ := follow_first hlist hq
  have s8 := s7.wrote he f rfl hcswShown rfl
  obtain ⟨e9, es, p9, rfl, he, hlist, f, hq⟩ := follow_first hlist hq
  have s9 := s8.wrote he f rfl (hselect _) rfl
  obtain rfl := List.map_eq_nil_iff.1 hlist
  obtain rfl := Option.some.inj hq
  exact ⟨congrArg some (eq_of_all hdata hidr), _, s9, by simp, rfl, by simp [Regs.read]⟩

/-- Settles O38: every access was answered OK, and the seventh holds the value. -/
theorem setupMemIdentifiesThePeer : Obligations.SetupMemIdentifiesThePeer := by
  intro s t p q c w hb hs hlink hcomp hidr habort hselect hctrlstat hrdbuff hidrShown hcswShown ht hok hq
  obtain ⟨k, hserves⟩ := serves_of_component hlink hcomp
  obtain ⟨l, es, u, hp, hlist, -, hx, hcalls, rfl⟩ := exec_memory_ok (i := .setupMem) rfl rfl hb hs ht hok
  rw [hcalls] at hq
  obtain ⟨hdata, g, hg, hcsw, hsel, hsticky⟩ :=
    hserves.readSetupMem hlist hidr habort hselect hctrlstat hrdbuff hidrShown hcswShown hq
  obtain rfl := accesses_injective (l := [_, _, _, _, _, _, _, _, _, _]) hp
  have hheld : u.seq.held = w := hx.held.trans (held_of_last (l1 := [_, _, _, _, _, _]) (l2 := [_, _, _]) rfl
    (by simp [Access.write]) _ (List.getElem?_map.trans hdata))
  rw [hg.now]
  exact ⟨hheld, hcsw, hsel, hsticky, hg.link, hg.component⟩

end Sys2Proof.Machine
end

section
/-! PROOFS. Which commands are refused (60 R226): a command with one of the listed causes ends before it latches anything,
and any other runs its program, no status of which is REFUSED. It settles O44 and O45. -/

namespace Sys2Proof.Machine

/-- Each cause of 60 R226 stops the command. -/
theorem refusal_of_cause {i : Instr} {c : Command} (h : commandSpec i = some c) (s : State)
    (hcause : i = .reservedD ∨ i = .reservedE ∨ i = .reservedF ∨
      (i ≠ .init ∧ s.pins.bound = false) ∨ (i = .init ∧ s.pins.bound = true) ∨
      (i = .init ∧ pinOf s.port.argAddr = pinOf s.port.argData) ∨
      (∃ reg, (i = .getReg reg ∨ i = .setReg reg) ∧ legalReg reg = false) ∨
      ((i = .peekMany ∨ i = .pokeMany) ∧ Config.bufDepth < s.port.argCount)) :
    c.refusal s.latchOperands ≠ none := by
  intro hnone
  obtain ⟨hown, hbound⟩ := (refusal_none_iff c _).1 hnone
  obtain ⟨⟨hD, hE, hF⟩, hpins, hreg, hcount⟩ := (own_none_iff i c h s).1 hown
  rw [latchOperands_pins] at hbound
  have hinit := isInit_iff i c h
  rcases hcause with hi | hi | hi | ⟨hi, hb⟩ | ⟨hi, hb⟩ | ⟨hi, heq⟩ | ⟨reg, hi, hill⟩ | ⟨hi, hlt⟩
  · exact hD hi
  · exact hE hi
  · exact hF hi
  · rw [hb, Bool.eq_false_iff.2 (mt hinit.1 hi)] at hbound
    cases hbound
  · rw [hb, hinit.2 hi] at hbound
    cases hbound
  · exact hpins hi heq
  · rw [hreg reg hi] at hill
    cases hill
  · exact Nat.not_le_of_lt hlt (hcount hi)

/-- Settles O44: the cause refuses the command before anything is latched, and a refusal writes the report alone. -/
theorem refusedCommandsChangeNothing : Obligations.RefusedCommandsChangeNothing := by
  intro i w s he hb hcause
  obtain ⟨c, hc⟩ := commandSpec_of_encode i w he
  obtain ⟨x, hx⟩ := Option.ne_none_iff_exists'.1 (refusal_of_cause hc s hcause)
  rw [exec_command i c hc, runCommand_refused hb hx, refuseCommand_eq]
  simp only [valued_iff i c hc]
  rfl

theorem code_eq_refused (st : Status) : st.code = Status.code .refused ↔ st = .refused := by
  cases st <;> decide

/-- Settles O45: no cause applies, so the command ends with its program's status. -/
theorem otherCommandsAreNotRefused : Obligations.OtherCommandsAreNotRefused := by
  intro i w s t he hb ht hD hE hF hinit hpins hreg hcount
  obtain ⟨c, hc⟩ := commandSpec_of_encode i w he
  have hnone := refusal_none hc s hD hE hF hinit hpins hreg hcount
  rw [exec_command i c hc] at ht
  rcases runCommand_cases c s hb with ⟨x, hx, -⟩ | ⟨-, e⟩
  · rw [hnone] at hx
    cases hx
  · rw [e] at ht
    cases ht
    rw [endCommand_status, Ne, code_eq_refused]
    exact (runProgram_status _ _).2

end Sys2Proof.Machine
end

section
/-! PROOFS. The host's moves other than `start` and the call (60 R236): each writes one register of the port, or is
forbidden and stops by name. It settles O52. -/

namespace Sys2Proof.Machine

theorem step_idle {s : State} (hb : s.port.busy = false) (h : s.env.inputs = []) : step s = .next s := by
  unfold step
  rw [h]
  exact if_neg (by rw [hb]; nofun)

theorem hostMove_wait {s : State} (hb : s.port.busy = false) : hostMove .wait s = .next s :=
  if_neg (by rw [hb]; nofun)

theorem hostMove_writeCmdw (w : Word) {s : State} (hb : s.port.busy = false) :
    hostMove (.writeCmdw w) s = .next { s with port.cmdw := w } := if_neg (by rw [hb]; nofun)

theorem hostMove_writeCmdw_busy (w : Word) {s : State} (hb : s.port.busy = true) :
    hostMove (.writeCmdw w) s = .fault .cmdwWrittenWhileBusy := if_pos hb

theorem hostMove_writeBuf {i : Nat} (w : Word) {s : State} (hb : s.port.busy = false) (hi : i < Config.bufDepth) :
    hostMove (.writeBuf i w) s = .next (s.setBuf i w) := by
  rw [hostMove, if_neg (by rw [hb]; nofun), if_pos hi]

theorem hostMove_writeBuf_busy (i : Nat) (w : Word) {s : State} (hb : s.port.busy = true) :
    hostMove (.writeBuf i w) s = .fault .bufWrittenWhileBusy := if_pos hb

theorem hostMove_writeBuf_beyond {i : Nat} (w : Word) {s : State} (hb : s.port.busy = false)
    (hi : Config.bufDepth ≤ i) : hostMove (.writeBuf i w) s = .fault .bufIndexBeyondDepth := by
  rw [hostMove, if_neg (by rw [hb]; nofun), if_neg (Nat.not_lt_of_le hi)]

/-- Writing an entry of BUF changes that entry and no other (10 R35). -/
theorem setBuf_entry {i : Nat} (w : Word) (s : State) (hi : i < Config.bufDepth) :
    (s.setBuf i w).port.buf[i]? = some w ∧ ∀ j, j ≠ i → (s.setBuf i w).port.buf[j]? = s.port.buf[j]? := by
  refine ⟨?_, fun j hj => ?_⟩ <;> rw [setBuf_buf, Vector.getElem?_setIfInBounds]
  · rw [if_pos rfl, if_pos hi]
  · exact if_neg hj.symm

/-- Beside `start`, the call, and waiting for a running command, the host reaches the port alone (60 R236). -/
theorem hostMove_port {m : HostMove} {s t : State} (h : hostMove m s = .next t) (hstart : m ≠ .start)
    (hrun : m ≠ .run) (hwait : m = .wait → s.port.busy = false) : t = { s with port := t.port } := by
  cases m with
  | start => exact absurd rfl hstart
  | run => exact absurd rfl hrun
  | wait =>
    rw [hostMove_wait (hwait rfl)] at h
    cases h
    rfl
  | writeArgAddr w | writeArgData w | writeArgCount n | clearDiag =>
    cases h
    rfl
  | writeCmdw w =>
    rw [hostMove] at h
    split at h <;> cases h
    rfl
  | writeBuf i w =>
    rw [hostMove] at h
    split at h
    · cases h
    · split at h <;> cases h
      rfl

/-- Settles O52: with an input to come the step is the host's move, and each move is said above. -/
theorem hostMoves : Obligations.HostMoves := by
  refine ⟨fun s hin hb => step_idle hb hin, fun s rest => ⟨fun hin hb => ?_, fun w hin => ?_, fun w hin => ?_,
    fun n hin => ?_, fun hin => ?_, fun w hin hb => ?_, fun i w hin hb hi => ?_, fun w hin hb => ?_,
    fun i w hin hb => ?_, fun i w hin hb hi => ?_, fun m t hin hstart hrun hwait ht => ?_⟩⟩
  · exact (step_host hin).trans (hostMove_wait hb)
  · exact step_host hin
  · exact step_host hin
  · exact step_host hin
  · exact step_host hin
  · exact (step_host hin).trans (hostMove_writeCmdw w hb)
  · exact ⟨_, (step_host hin).trans (hostMove_writeBuf w hb hi), rfl, setBuf_entry w _ hi⟩
  · exact (step_host hin).trans (hostMove_writeCmdw_busy w hb)
  · exact (step_host hin).trans (hostMove_writeBuf_busy i w hb)
  · exact (step_host hin).trans (hostMove_writeBuf_beyond w hb hi)
  · rw [step_host hin] at ht
    rw [hostMove_port ht hstart hrun hwait]
    exact ⟨rfl, rfl, rfl⟩

end Sys2Proof.Machine
end

section
/-! PROOFS. Power-on (70 R250, R251): the state it leaves, and that the invariant holds there. It settles O55 and O56. -/

namespace Sys2Proof.Machine

/-- The reset state is its own power-on: there is nothing observed to forget, and no sample or input to keep (log 23). -/
theorem powerOn_reset : powerOn State.reset = State.reset := rfl

/-- The power coming on is the whole step; the inputs after it are still to come. -/
theorem step_powerOn {s : State} {rest : List Input} (h : s.env.inputs = .powerOn :: rest) :
    step s = .next (powerOn { s with env.inputs := rest }) := by
  rw [step, h]

/-- Settles O55: the values that the spec gives are read off the reset state, and the power-on step brings the engine
to it. -/
theorem powerOnState : Obligations.PowerOnState := by
  refine ⟨rfl, rfl, rfl, rfl, rfl, rfl, rfl, rfl, rfl, fun s rest hin => ?_⟩
  exact ⟨_, step_powerOn hin, rfl, rfl, rfl, rfl, rfl, rfl, rfl⟩

/-- Settles O56: power-on leaves the invariant true from whatever state, the reset state included. -/
theorem invariantHoldsAtReset : Obligations.InvariantHoldsAtReset := by
  have h : Safety.Inv (powerOn State.reset) := inv_powerOn State.reset
  rwa [powerOn_reset] at h

end Sys2Proof.Machine
end
